-- ==== Sys2Proof/Word.lean ====
section
/-! DEFINITION. The machine's two data widths (spec/00_scope.md R8): a byte is 8 bits, a word two bytes. -/

namespace Sys2Proof

/-- A byte, 8 bits (R8). -/
abbrev Byte := BitVec 8

/-- A word, two bytes (R8); general registers, PC and SR have this width (R10, R12, R15). -/
abbrev Word := BitVec 16

end Sys2Proof
end

