-- ==== Sys2Proof/Syntax.lean ====
section
/-! DEFINITION. The instructions: one constructor for each of the 59 rows of spec/opcode_table.json,
with the operand types of spec/30_encoding.md R79 to R81. All encodings are the spec's
general knowledge (R78 to R83, mark UNVERIFIED; log entry 1). -/

namespace Sys2Proof

/-- The eight general registers (R10). R7 is the stack pointer (R11). -/
inductive Reg where
  | r0 | r1 | r2 | r3 | r4 | r5 | r6 | r7
  deriving DecidableEq, Repr, Inhabited

/-- The size bit of an effective-address byte: 0 byte, 1 word (R79). -/
inductive Size where
  | byte | word
  deriving DecidableEq, Repr, Inhabited

/-- The control register number `ccc` (R80). The two numbers R80 calls undefined are kept as
written, so that an instruction that names one can be decoded and then found illegal. -/
inductive ControlReg where
  | sr | ccr | undefined2 | br | ep | dp | undefined6 | tp
  deriving DecidableEq, Repr, Inhabited

/-- The operand forms of the general format (R79). -/
inductive Ea where
  | reg (r : Reg)
  | ind (r : Reg)
  | disp8 (d : Byte) (r : Reg)
  | disp16 (d : Word) (r : Reg)
  | preDec (r : Reg)
  | postInc (r : Reg)
  | abs8 (a : Byte)
  | abs16 (a : Word)
  | imm8 (v : Byte)
  | imm16 (v : Word)
  deriving DecidableEq, Repr

/-- One constructor for each row of spec/opcode_table.json, in the table's order. `sz` is the size
bit, `e` the register of the effective address, `d` the destination register, `r` the source
register of a store, `c` the control register. -/
inductive Instr where
  | movRnRd (sz : Size) (e d : Reg)
  | movIndRd (sz : Size) (e d : Reg)
  | movDisp8Rd (sz : Size) (disp : Byte) (e d : Reg)
  | movDisp16Rd (sz : Size) (disp : Word) (e d : Reg)
  | movPreDecRd (sz : Size) (e d : Reg)
  | movPostIncRd (sz : Size) (e d : Reg)
  | movAbs8Rd (sz : Size) (a : Byte) (d : Reg)
  | movAbs16Rd (sz : Size) (a : Word) (d : Reg)
  | movImm8Rd (v : Byte) (d : Reg)
  | movImm16Rd (v : Word) (d : Reg)
  | movRsRn (sz : Size) (e r : Reg)
  | movRsInd (sz : Size) (e r : Reg)
  | movRsDisp8 (sz : Size) (disp : Byte) (e r : Reg)
  | movRsDisp16 (sz : Size) (disp : Word) (e r : Reg)
  | movRsPreDec (sz : Size) (e r : Reg)
  | movRsPostInc (sz : Size) (e r : Reg)
  | movRsAbs8 (sz : Size) (a : Byte) (r : Reg)
  | movRsAbs16 (sz : Size) (a : Word) (r : Reg)
  | addRnRd (sz : Size) (e d : Reg)
  | addIndRd (sz : Size) (e d : Reg)
  | addDisp8Rd (sz : Size) (disp : Byte) (e d : Reg)
  | addDisp16Rd (sz : Size) (disp : Word) (e d : Reg)
  | addPreDecRd (sz : Size) (e d : Reg)
  | addPostIncRd (sz : Size) (e d : Reg)
  | addAbs8Rd (sz : Size) (a : Byte) (d : Reg)
  | addAbs16Rd (sz : Size) (a : Word) (d : Reg)
  | addImm8Rd (v : Byte) (d : Reg)
  | addImm16Rd (v : Word) (d : Reg)
  | divxuRnRd (sz : Size) (e d : Reg)
  | divxuIndRd (sz : Size) (e d : Reg)
  | divxuDisp8Rd (sz : Size) (disp : Byte) (e d : Reg)
  | divxuDisp16Rd (sz : Size) (disp : Word) (e d : Reg)
  | divxuPreDecRd (sz : Size) (e d : Reg)
  | divxuPostIncRd (sz : Size) (e d : Reg)
  | divxuAbs8Rd (sz : Size) (a : Byte) (d : Reg)
  | divxuAbs16Rd (sz : Size) (a : Word) (d : Reg)
  | divxuImm8Rd (v : Byte) (d : Reg)
  | divxuImm16Rd (v : Word) (d : Reg)
  | ldcRn (sz : Size) (e : Reg) (c : ControlReg)
  | ldcInd (sz : Size) (e : Reg) (c : ControlReg)
  | ldcDisp8 (sz : Size) (disp : Byte) (e : Reg) (c : ControlReg)
  | ldcDisp16 (sz : Size) (disp : Word) (e : Reg) (c : ControlReg)
  | ldcPreDec (sz : Size) (e : Reg) (c : ControlReg)
  | ldcPostInc (sz : Size) (e : Reg) (c : ControlReg)
  | ldcAbs8 (sz : Size) (a : Byte) (c : ControlReg)
  | ldcAbs16 (sz : Size) (a : Word) (c : ControlReg)
  | ldcImm8 (v : Byte) (c : ControlReg)
  | ldcImm16 (v : Word) (c : ControlReg)
  | andcB (v : Byte) (c : ControlReg)
  | andcW (v : Word) (c : ControlReg)
  | orcB (v : Byte) (c : ControlReg)
  | orcW (v : Word) (c : ControlReg)
  | xorcB (v : Byte) (c : ControlReg)
  | xorcW (v : Word) (c : ControlReg)
  | trapa (v : BitVec 4)
  | trapVs
  | rte
  | movI (v : Word) (d : Reg)
  | nop
  deriving DecidableEq, Repr

end Sys2Proof
end

