-- ==== Sys2Proof/Config.lean ====
section
/-! DEFINITION. What one chip and its platform fix, and the values the spec leaves open.

`Params` is plain data that State carries unchanged (the open parameters of spec/00_scope.md R7 that a
run needs as values): a statement about every state is a statement about every choice of them.
The `opaque` constants have no body: nothing can be proved of their values, so a statement that
mentions one holds whatever it is (the draws and open functions of R7). -/

namespace Sys2Proof.Config

/-- The CPU mode (R3). -/
inductive CpuMode where
  | minimum | maximum
  deriving DecidableEq, Repr, Inhabited

/-- What the mode pins select: the CPU mode and whether the MCU is in single-chip mode (R3, R4, D2). -/
structure OperatingMode where
  cpu : CpuMode
  singleChip : Bool
  deriving DecidableEq, Repr, Inhabited

/-- The addresses `lo` to `lo + size - 1`. -/
structure Range where
  lo : Nat
  size : Nat
  deriving DecidableEq, Repr

/-- `reg_addr` (R7, D4): where the control registers that the spec names lie in the register field, as
offsets from H'FF80, and which bits of them hold the fields the spec names. The level of a source
is three bits of one of IPR A to D, its DTE bit one bit of one of DTE A to D (log entry 8). -/
structure RegisterMap where
  mdcr : BitVec 7
  ramcr : BitVec 7
  ipr : Vector (BitVec 7) 4
  dte : Vector (BitVec 7) 4
  mdsBit : Nat
  rameBit : Nat
  levelAt : Vector (Fin 4 × Nat) 21
  dteAt : Vector (Fin 4 × Nat) 21
  deriving DecidableEq, Repr

/-- One row of `Decode` (R7, R70, D31): what an instruction that begins with these bytes is, an instruction
of the syntax or, where `means` is none, the outcome `Invalid`. Its length is that of `code`. -/
structure CodeRow where
  code : List Byte
  means : Option Instr
  deriving DecidableEq, Repr

/-- The open parameters (R7) that a run needs as values. `legal` says what the spec requires of them. The 21
maskable interrupt sources are numbered: 0 IRQ0, 1 IRQ1, 2 to 20 the nineteen internal types (R153). -/
structure Params where
  /-- `mode_of_pins`: what each value of MD2 to MD0 selects (D2). -/
  modeOfPins : Vector OperatingMode 8
  /-- `Decode` (R70, D31): the rows that this chip is given beside the general-knowledge ones of
  Decode.lean, over which they take precedence (log entry 41). -/
  codes : List CodeRow
  /-- `rom_range` (R44, D30). -/
  rom : Range
  /-- The external memory that the launch declares (R62, D30). -/
  external : List Range
  /-- `reg_addr` and the places of the named fields (D4). -/
  registers : RegisterMap
  /-- `IntVector`: the vector index of each internal type (R153, D19). -/
  vectorOfInternal : Vector (BitVec 6) 19
  /-- `IntOrder`: among equal levels the lower rank is accepted first (R155, D18). -/
  rank : Vector Nat 21
  deriving DecidableEq, Repr

/-- What the spec requires of a choice of the parameters: `rom_range` lies inside H'0000 to H'7FFF (R7, R44),
and `IntVector` gives the internal types distinct indices from 34 to 63 (R153, D19). -/
structure Params.legal (p : Params) : Prop where
  rom : p.rom.lo + p.rom.size ≤ 0x8000
  vectorRange : ∀ i, 34 ≤ p.vectorOfInternal.get i
  vectorsDistinct : ∀ i j, p.vectorOfInternal.get i = p.vectorOfInternal.get j → i = j

/-- The parameters of the reset state (log entry 5): no statement rests on them. DESIGN CHOICE: the pin values
0, 5 and 6, which the family's mode table does not give a mode, select minimum mode, not single-chip; D2
leaves the whole table open. -/
def standard : Params where
  modeOfPins := #v[⟨.minimum, false⟩, ⟨.minimum, false⟩, ⟨.minimum, false⟩, ⟨.maximum, false⟩,
    ⟨.maximum, false⟩, ⟨.minimum, false⟩, ⟨.minimum, false⟩, ⟨.minimum, true⟩]
  codes := []
  rom := ⟨0, 0⟩
  external := [⟨0, 0x1000000⟩]
  registers :=
    { mdcr := 0x7A, ramcr := 0x79
      ipr := #v[0x70, 0x71, 0x72, 0x73]
      dte := #v[0x74, 0x75, 0x76, 0x77]
      mdsBit := 0, rameBit := 7
      levelAt := #v[(0, 4), (0, 0), (1, 4), (1, 4), (1, 4), (1, 4), (1, 0), (1, 0), (1, 0), (1, 0),
        (2, 4), (2, 4), (2, 4), (2, 4), (2, 0), (2, 0), (2, 0), (3, 4), (3, 4), (3, 4), (3, 0)]
      dteAt := #v[(0, 0), (0, 1), (0, 2), (0, 3), (0, 4), (0, 5), (0, 6), (0, 7),
        (1, 0), (1, 1), (1, 2), (1, 3), (1, 4), (1, 5), (1, 6), (1, 7),
        (2, 0), (2, 1), (2, 2), (2, 3), (2, 4)] }
  vectorOfInternal := #v[34, 35, 36, 37, 38, 39, 40, 41, 42, 43, 44, 45, 46, 47, 48, 49, 50, 51, 52]
  rank := #v[0, 1, 2, 3, 4, 5, 6, 7, 8, 9, 10, 11, 12, 13, 14, 15, 16, 17, 18, 19, 20]

/-! ### Layout of SR (R17, D3: general knowledge, log entry 4) -/

/-- The position of T. -/
def traceBit : Nat := 15

/-- The position of I0; I2 to I0 are the three bits from here up. -/
def maskBit : Nat := 8

def negativeBit : Nat := 3

def zeroBit : Nat := 2

def overflowBit : Nat := 1

def carryBit : Nat := 0

/-- The bits of SR that are not reserved; reserved bits read as 0. -/
def srNamed : Word := 0x870F

/-! ### Open values -/

/-- What a drawn value is for; see the operation that draws it. -/
inductive Draw where
  /-- `AddrErrExtra` (R146, D15). -/
  | addrErrExtra
  /-- `InvalidPC` (R172, D16). -/
  | invalidPc
  /-- `DontCare`, the unnamed byte of the maximum-mode frame (R125, D11). -/
  | dontCare
  /-- The destination register of an instruction whose access failed or whose divisor is 0 (R147, R92). -/
  | destination
  /-- The second register of a DIVXU.W destination pair (R92). -/
  | destinationNext
  /-- The automatically modified address register of an instruction whose access failed (R147). -/
  | addressRegister
  /-- Condition codes (R147; R92, those that are saved). -/
  | flags
  /-- Condition codes of the live SR after a zero divide (R92). -/
  | flagsAfter
  /-- The control register of an LDC whose source access failed (R147). -/
  | control
  /-- The divisor of a DIVXU whose source access failed (R147). -/
  | divisor
  /-- A byte at the failing address of a store (R147). -/
  | failingByte
  /-- What a store to on-chip ROM leaves there (R44). -/
  | romByte
  /-- A load from below H'8000 in single-chip mode where no on-chip ROM lies (R44; log entry 42). -/
  | vacant
  /-- The other byte of a byte-size push (R113). -/
  | otherByte
  /-- A load from the register field (R53). -/
  | registerField (offset : BitVec 7)
  /-- The MDS bits after a store to MDCR (R22). -/
  | modeBits
  /-- A byte fetched, as part of an instruction, from where no instruction may be fetched (R141, R144) or
  from a vacant place (log entry 42). -/
  | fetched (index : Nat)
  /-- A general register after a reset (R34). -/
  | resetRegister (r : Reg)
  /-- CP, TP, DP, EP, BR after a reset (R34). -/
  | resetCp | resetTp | resetDp | resetEp | resetBr
  /-- The bits of SR that a reset does not set (R34, D24). -/
  | resetSr
  /-- RAMCR.RAME, the levels and the DTE bits after a reset (R34), these two by their place in the
  register field. -/
  | resetRame | resetLevel (place : Fin 4 × Nat) | resetDte (place : Fin 4 × Nat)
  deriving DecidableEq, Repr

/-- The drawn values: the `n`-th value of a run, for a purpose `k` (R8 `draw`). -/
opaque draw (k : Draw) (n : Nat) : Word

/-- What DIVXU with a nonzero divisor leaves: Rd, for the word size the second register of the pair,
and N, Z, V, C (most significant first). -/
structure DivResult where
  rd : Word
  rdNext : Word
  flags : BitVec 4
  deriving DecidableEq, Repr, Inhabited

/-- How many accesses of a data transfer cycle are made before a reset abandons it, the `n`-th value of a run
(R200, D27; log entry 16). -/
opaque dtcDone (n : Nat) : Nat

/-- `Divxu` (R7, R93, D29): depends on its arguments alone. -/
opaque divxu (sz : Size) (dividend : BitVec 32) (divisor : Word) : DivResult

/-- The second register of a DIVXU.W pair whose first is R7; the spec names none (R93, log entry 14). -/
opaque pairOfR7 : Reg

/-- Whether the data byte of a byte-size access through `@-SP` or `@SP+` is the upper byte of the word
(R113, D34). -/
opaque stackByteIsUpper : Bool

/-- Whether running over the top of a page carries into CP or wraps inside the page (N6, U21,
log entry 15). -/
opaque pcCarries : Bool

end Sys2Proof.Config
end

