-- ==== Sys2Proof/WellFormed.lean ====
section
/-! DEFINITION. Which instructions are legal: the size bit must match the control register's size, and
the control register must be a defined one (spec/30_encoding.md R80). Everything else is legal by
its type. An instruction that is not legal is the spec's `Invalid` decode outcome: executing
it takes the invalid-instruction exception (spec/60_exceptions.md R164; log entry 2). -/

namespace Sys2Proof

/-- R80: SR is word size, CCR, BR, EP, DP and TP are byte size; numbers 010 and 110 are undefined. -/
def ControlReg.fits : ControlReg → Size → Bool
  | .sr, .word => true
  | .sr, .byte => false
  | .ccr, .byte | .br, .byte | .ep, .byte | .dp, .byte | .tp, .byte => true
  | .ccr, .word | .br, .word | .ep, .word | .dp, .word | .tp, .word => false
  | .undefined2, _ | .undefined6, _ => false

/-- The control register an instruction names and the size it names it with, if any. -/
def Instr.control : Instr → Option (ControlReg × Size)
  | .ldcRn sz _ c | .ldcInd sz _ c | .ldcDisp8 sz _ _ c | .ldcDisp16 sz _ _ c
  | .ldcPreDec sz _ c | .ldcPostInc sz _ c | .ldcAbs8 sz _ c | .ldcAbs16 sz _ c => some (c, sz)
  | .ldcImm8 _ c | .andcB _ c | .orcB _ c | .xorcB _ c => some (c, .byte)
  | .ldcImm16 _ c | .andcW _ c | .orcW _ c | .xorcW _ c => some (c, .word)
  | .movRnRd .. | .movIndRd .. | .movDisp8Rd .. | .movDisp16Rd .. | .movPreDecRd ..
  | .movPostIncRd .. | .movAbs8Rd .. | .movAbs16Rd .. | .movImm8Rd .. | .movImm16Rd ..
  | .movRsRn .. | .movRsInd .. | .movRsDisp8 .. | .movRsDisp16 .. | .movRsPreDec ..
  | .movRsPostInc .. | .movRsAbs8 .. | .movRsAbs16 ..
  | .addRnRd .. | .addIndRd .. | .addDisp8Rd .. | .addDisp16Rd .. | .addPreDecRd ..
  | .addPostIncRd .. | .addAbs8Rd .. | .addAbs16Rd .. | .addImm8Rd .. | .addImm16Rd ..
  | .divxuRnRd .. | .divxuIndRd .. | .divxuDisp8Rd .. | .divxuDisp16Rd .. | .divxuPreDecRd ..
  | .divxuPostIncRd .. | .divxuAbs8Rd .. | .divxuAbs16Rd .. | .divxuImm8Rd .. | .divxuImm16Rd ..
  | .trapa .. | .trapVs | .rte | .movI .. | .nop => none

/-- A legal instruction (R80). -/
def Instr.wellFormed (i : Instr) : Bool :=
  match i.control with
  | none => true
  | some (c, sz) => c.fits sz

end Sys2Proof
end

