-- ==== Sys2Proof/Decode.lean ====
section
/-! DEFINITION. Decoding bytes to instructions and encoding instructions to bytes, from the tables of
spec/30_encoding.md R78 to R81 (log entry 1). A byte sequence outside the rows the spec gives is
`unknown`, never an invalid instruction (R83). `lookup` is the parameter `Decode` of R70: the rows that a
chip is given (Config.Params.codes), among them those of the abstract outcome `Invalid`, before the
spec's own. -/

namespace Sys2Proof

/-- `rrr`, a general register number (R79, R80). -/
def Reg.code : Reg → BitVec 3
  | .r0 => 0 | .r1 => 1 | .r2 => 2 | .r3 => 3 | .r4 => 4 | .r5 => 5 | .r6 => 6 | .r7 => 7

def Reg.ofCode (b : BitVec 3) : Reg :=
  if b = 0 then .r0 else if b = 1 then .r1 else if b = 2 then .r2 else if b = 3 then .r3
  else if b = 4 then .r4 else if b = 5 then .r5 else if b = 6 then .r6 else .r7

/-- `S`: 0 = byte, 1 = word (R79). -/
def Size.code : Size → BitVec 1
  | .byte => 0 | .word => 1

def Size.ofCode (b : BitVec 1) : Size := if b = 0 then .byte else .word

/-- `ccc`: 000 SR, 001 CCR, 011 BR, 100 EP, 101 DP, 111 TP; 010 and 110 undefined (R80). -/
def ControlReg.code : ControlReg → BitVec 3
  | .sr => 0 | .ccr => 1 | .undefined2 => 2 | .br => 3 | .ep => 4 | .dp => 5 | .undefined6 => 6 | .tp => 7

def ControlReg.ofCode (b : BitVec 3) : ControlReg :=
  if b = 0 then .sr else if b = 1 then .ccr else if b = 2 then .undefined2 else if b = 3 then .br
  else if b = 4 then .ep else if b = 5 then .dp else if b = 6 then .undefined6 else .tp

/-- A word from its upper and lower byte (R78: upper byte first). -/
def wordOfBytes (hi lo : Byte) : Word := hi ++ lo

def upperByte (w : Word) : Byte := w.extractLsb' 8 8

def lowerByte (w : Word) : Byte := w.extractLsb' 0 8

/-- What decoding a byte sequence gives: an instruction, a sequence outside the spec's rows, or a
sequence that ends before its instruction does. -/
inductive Decoded where
  | instr (i : Instr)
  | unknown
  | short
  deriving DecidableEq, Repr

/-! ### The rows of one operation, by operand form -/

def movLoadRow (sz : Size) (ea : Ea) (d : Reg) : Instr :=
  match ea with
  | .reg e => .movRnRd sz e d
  | .ind e => .movIndRd sz e d
  | .disp8 x e => .movDisp8Rd sz x e d
  | .disp16 x e => .movDisp16Rd sz x e d
  | .preDec e => .movPreDecRd sz e d
  | .postInc e => .movPostIncRd sz e d
  | .abs8 a => .movAbs8Rd sz a d
  | .abs16 a => .movAbs16Rd sz a d
  | .imm8 v => .movImm8Rd v d
  | .imm16 v => .movImm16Rd v d

/-- R80: a store takes every form but the immediates. -/
def movStoreRow (sz : Size) (ea : Ea) (r : Reg) : Option Instr :=
  match ea with
  | .reg e => some (.movRsRn sz e r)
  | .ind e => some (.movRsInd sz e r)
  | .disp8 x e => some (.movRsDisp8 sz x e r)
  | .disp16 x e => some (.movRsDisp16 sz x e r)
  | .preDec e => some (.movRsPreDec sz e r)
  | .postInc e => some (.movRsPostInc sz e r)
  | .abs8 a => some (.movRsAbs8 sz a r)
  | .abs16 a => some (.movRsAbs16 sz a r)
  | .imm8 _ | .imm16 _ => none

def addRow (sz : Size) (ea : Ea) (d : Reg) : Instr :=
  match ea with
  | .reg e => .addRnRd sz e d
  | .ind e => .addIndRd sz e d
  | .disp8 x e => .addDisp8Rd sz x e d
  | .disp16 x e => .addDisp16Rd sz x e d
  | .preDec e => .addPreDecRd sz e d
  | .postInc e => .addPostIncRd sz e d
  | .abs8 a => .addAbs8Rd sz a d
  | .abs16 a => .addAbs16Rd sz a d
  | .imm8 v => .addImm8Rd v d
  | .imm16 v => .addImm16Rd v d

def divxuRow (sz : Size) (ea : Ea) (d : Reg) : Instr :=
  match ea with
  | .reg e => .divxuRnRd sz e d
  | .ind e => .divxuIndRd sz e d
  | .disp8 x e => .divxuDisp8Rd sz x e d
  | .disp16 x e => .divxuDisp16Rd sz x e d
  | .preDec e => .divxuPreDecRd sz e d
  | .postInc e => .divxuPostIncRd sz e d
  | .abs8 a => .divxuAbs8Rd sz a d
  | .abs16 a => .divxuAbs16Rd sz a d
  | .imm8 v => .divxuImm8Rd v d
  | .imm16 v => .divxuImm16Rd v d

def ldcRow (sz : Size) (ea : Ea) (c : ControlReg) : Instr :=
  match ea with
  | .reg e => .ldcRn sz e c
  | .ind e => .ldcInd sz e c
  | .disp8 x e => .ldcDisp8 sz x e c
  | .disp16 x e => .ldcDisp16 sz x e c
  | .preDec e => .ldcPreDec sz e c
  | .postInc e => .ldcPostInc sz e c
  | .abs8 a => .ldcAbs8 sz a c
  | .abs16 a => .ldcAbs16 sz a c
  | .imm8 v => .ldcImm8 v c
  | .imm16 v => .ldcImm16 v c

/-- R80: ANDC, ORC and XORC take the two immediate forms only. -/
def andcRow (ea : Ea) (c : ControlReg) : Option Instr :=
  match ea with
  | .imm8 v => some (.andcB v c)
  | .imm16 v => some (.andcW v c)
  | .reg _ | .ind _ | .disp8 .. | .disp16 .. | .preDec _ | .postInc _ | .abs8 _ | .abs16 _ => none

def orcRow (ea : Ea) (c : ControlReg) : Option Instr :=
  match ea with
  | .imm8 v => some (.orcB v c)
  | .imm16 v => some (.orcW v c)
  | .reg _ | .ind _ | .disp8 .. | .disp16 .. | .preDec _ | .postInc _ | .abs8 _ | .abs16 _ => none

def xorcRow (ea : Ea) (c : ControlReg) : Option Instr :=
  match ea with
  | .imm8 v => some (.xorcB v c)
  | .imm16 v => some (.xorcW v c)
  | .reg _ | .ind _ | .disp8 .. | .disp16 .. | .preDec _ | .postInc _ | .abs8 _ | .abs16 _ => none

/-- The instruction of an operand form and an operation-code byte (R80). -/
def generalRow (sz : Size) (ea : Ea) (op : Byte) : Option Instr :=
  let r := Reg.ofCode (op.extractLsb' 0 3)
  let c := ControlReg.ofCode (op.extractLsb' 0 3)
  let code := op.extractLsb' 3 5
  if code = 0b10000#5 then some (movLoadRow sz ea r)
  else if code = 0b10010#5 then movStoreRow sz ea r
  else if code = 0b00100#5 then some (addRow sz ea r)
  else if code = 0b10111#5 then some (divxuRow sz ea r)
  else if code = 0b10001#5 then some (ldcRow sz ea c)
  else if code = 0b01011#5 then andcRow ea c
  else if code = 0b01001#5 then orcRow ea c
  else if code = 0b01101#5 then xorcRow ea c
  else none

/-- How an instruction begins: a general-format operand of 0, 1 or 2 further bytes (R79), a special
format (R81), or a byte outside the rows. -/
inductive FirstByte where
  | ea0 (sz : Size) (ea : Ea)
  | ea1 (sz : Size) (ea : Byte → Ea)
  | ea2 (sz : Size) (ea : Word → Ea)
  | trapa
  | trapVs
  | rte
  | movI (d : Reg)
  | nop
  | none

/-- The first byte, read by R79 and R81. -/
def firstByte (b : Byte) : FirstByte :=
  let high := b.extractLsb' 4 4
  let sz := Size.ofCode (b.extractLsb' 3 1)
  let r := Reg.ofCode (b.extractLsb' 0 3)
  if high = 0b1010#4 then .ea0 sz (.reg r)
  else if high = 0b1101#4 then .ea0 sz (.ind r)
  else if high = 0b1110#4 then .ea1 sz (fun d => .disp8 d r)
  else if high = 0b1111#4 then .ea2 sz (fun d => .disp16 d r)
  else if high = 0b1011#4 then .ea0 sz (.preDec r)
  else if high = 0b1100#4 then .ea0 sz (.postInc r)
  else if high = 0b0000#4 ∧ b.extractLsb' 0 3 = 0b101#3 then .ea1 sz .abs8
  else if high = 0b0001#4 ∧ b.extractLsb' 0 3 = 0b101#3 then .ea2 sz .abs16
  else if b = 0b00000100#8 then .ea1 .byte .imm8
  else if b = 0b00001100#8 then .ea2 .word .imm16
  else if b = 0b00001000#8 then .trapa
  else if b = 0b00001001#8 then .trapVs
  else if b = 0b00001010#8 then .rte
  else if b.extractLsb' 3 5 = 0b01011#5 then .movI r
  else if b = 0b00000000#8 then .nop
  else .none

/-- The operation-code part after an operand form. -/
def decodeOperation (sz : Size) (ea : Ea) : List Byte → Decoded
  | [] => .short
  | op :: _ =>
    match generalRow sz ea op with
    | some i => .instr i
    | none => .unknown

/-- Decoding, total on any bytes (R70, R83); bytes after the instruction are ignored. -/
def decode : List Byte → Decoded
  | [] => .short
  | b :: rest =>
    match firstByte b with
    | .ea0 sz ea => decodeOperation sz ea rest
    | .ea1 sz ea =>
      match rest with
      | x :: rest => decodeOperation sz (ea x) rest
      | [] => .short
    | .ea2 sz ea =>
      match rest with
      | x :: y :: rest => decodeOperation sz (ea (wordOfBytes x y)) rest
      | _ => .short
    | .trapa =>
      match rest with
      | x :: _ => if x.extractLsb' 4 4 = 0b0001#4 then .instr (.trapa (x.extractLsb' 0 4)) else .unknown
      | [] => .short
    | .trapVs => .instr .trapVs
    | .rte => .instr .rte
    | .movI d =>
      match rest with
      | x :: y :: _ => .instr (.movI (wordOfBytes x y) d)
      | _ => .short
    | .nop => .instr .nop
    | .none => .unknown

/-! ### Encoding -/

/-- The EA part of the general format (R79). -/
def encodeEa (sz : Size) : Ea → List Byte
  | .reg r => [0b1010#4 ++ sz.code ++ r.code]
  | .ind r => [0b1101#4 ++ sz.code ++ r.code]
  | .disp8 d r => [0b1110#4 ++ sz.code ++ r.code, d]
  | .disp16 d r => [0b1111#4 ++ sz.code ++ r.code, upperByte d, lowerByte d]
  | .preDec r => [0b1011#4 ++ sz.code ++ r.code]
  | .postInc r => [0b1100#4 ++ sz.code ++ r.code]
  | .abs8 a => [0b0000#4 ++ sz.code ++ 0b101#3, a]
  | .abs16 a => [0b0001#4 ++ sz.code ++ 0b101#3, upperByte a, lowerByte a]
  | .imm8 v => [0b00000100#8, v]
  | .imm16 v => [0b00001100#8, upperByte v, lowerByte v]

/-- The operation-code byte: five bits and a register number (R80). -/
def opByte (code : BitVec 5) (n : BitVec 3) : Byte := code ++ n

def encodeMovLoad (sz : Size) (ea : Ea) (d : Reg) : List Byte := encodeEa sz ea ++ [opByte 0b10000 d.code]

def encodeMovStore (sz : Size) (ea : Ea) (r : Reg) : List Byte := encodeEa sz ea ++ [opByte 0b10010 r.code]

def encodeAdd (sz : Size) (ea : Ea) (d : Reg) : List Byte := encodeEa sz ea ++ [opByte 0b00100 d.code]

def encodeDivxu (sz : Size) (ea : Ea) (d : Reg) : List Byte := encodeEa sz ea ++ [opByte 0b10111 d.code]

def encodeLdc (sz : Size) (ea : Ea) (c : ControlReg) : List Byte := encodeEa sz ea ++ [opByte 0b10001 c.code]

/-- The bytes of an instruction, lowest address first (R79 to R81). -/
def encode : Instr → List Byte
  | .movRnRd sz e d => encodeMovLoad sz (.reg e) d
  | .movIndRd sz e d => encodeMovLoad sz (.ind e) d
  | .movDisp8Rd sz x e d => encodeMovLoad sz (.disp8 x e) d
  | .movDisp16Rd sz x e d => encodeMovLoad sz (.disp16 x e) d
  | .movPreDecRd sz e d => encodeMovLoad sz (.preDec e) d
  | .movPostIncRd sz e d => encodeMovLoad sz (.postInc e) d
  | .movAbs8Rd sz a d => encodeMovLoad sz (.abs8 a) d
  | .movAbs16Rd sz a d => encodeMovLoad sz (.abs16 a) d
  | .movImm8Rd v d => encodeMovLoad .byte (.imm8 v) d
  | .movImm16Rd v d => encodeMovLoad .word (.imm16 v) d
  | .movRsRn sz e r => encodeMovStore sz (.reg e) r
  | .movRsInd sz e r => encodeMovStore sz (.ind e) r
  | .movRsDisp8 sz x e r => encodeMovStore sz (.disp8 x e) r
  | .movRsDisp16 sz x e r => encodeMovStore sz (.disp16 x e) r
  | .movRsPreDec sz e r => encodeMovStore sz (.preDec e) r
  | .movRsPostInc sz e r => encodeMovStore sz (.postInc e) r
  | .movRsAbs8 sz a r => encodeMovStore sz (.abs8 a) r
  | .movRsAbs16 sz a r => encodeMovStore sz (.abs16 a) r
  | .addRnRd sz e d => encodeAdd sz (.reg e) d
  | .addIndRd sz e d => encodeAdd sz (.ind e) d
  | .addDisp8Rd sz x e d => encodeAdd sz (.disp8 x e) d
  | .addDisp16Rd sz x e d => encodeAdd sz (.disp16 x e) d
  | .addPreDecRd sz e d => encodeAdd sz (.preDec e) d
  | .addPostIncRd sz e d => encodeAdd sz (.postInc e) d
  | .addAbs8Rd sz a d => encodeAdd sz (.abs8 a) d
  | .addAbs16Rd sz a d => encodeAdd sz (.abs16 a) d
  | .addImm8Rd v d => encodeAdd .byte (.imm8 v) d
  | .addImm16Rd v d => encodeAdd .word (.imm16 v) d
  | .divxuRnRd sz e d => encodeDivxu sz (.reg e) d
  | .divxuIndRd sz e d => encodeDivxu sz (.ind e) d
  | .divxuDisp8Rd sz x e d => encodeDivxu sz (.disp8 x e) d
  | .divxuDisp16Rd sz x e d => encodeDivxu sz (.disp16 x e) d
  | .divxuPreDecRd sz e d => encodeDivxu sz (.preDec e) d
  | .divxuPostIncRd sz e d => encodeDivxu sz (.postInc e) d
  | .divxuAbs8Rd sz a d => encodeDivxu sz (.abs8 a) d
  | .divxuAbs16Rd sz a d => encodeDivxu sz (.abs16 a) d
  | .divxuImm8Rd v d => encodeDivxu .byte (.imm8 v) d
  | .divxuImm16Rd v d => encodeDivxu .word (.imm16 v) d
  | .ldcRn sz e c => encodeLdc sz (.reg e) c
  | .ldcInd sz e c => encodeLdc sz (.ind e) c
  | .ldcDisp8 sz x e c => encodeLdc sz (.disp8 x e) c
  | .ldcDisp16 sz x e c => encodeLdc sz (.disp16 x e) c
  | .ldcPreDec sz e c => encodeLdc sz (.preDec e) c
  | .ldcPostInc sz e c => encodeLdc sz (.postInc e) c
  | .ldcAbs8 sz a c => encodeLdc sz (.abs8 a) c
  | .ldcAbs16 sz a c => encodeLdc sz (.abs16 a) c
  | .ldcImm8 v c => encodeLdc .byte (.imm8 v) c
  | .ldcImm16 v c => encodeLdc .word (.imm16 v) c
  | .andcB v c => encodeEa .byte (.imm8 v) ++ [opByte 0b01011 c.code]
  | .andcW v c => encodeEa .word (.imm16 v) ++ [opByte 0b01011 c.code]
  | .orcB v c => encodeEa .byte (.imm8 v) ++ [opByte 0b01001 c.code]
  | .orcW v c => encodeEa .word (.imm16 v) ++ [opByte 0b01001 c.code]
  | .xorcB v c => encodeEa .byte (.imm8 v) ++ [opByte 0b01101 c.code]
  | .xorcW v c => encodeEa .word (.imm16 v) ++ [opByte 0b01101 c.code]
  | .trapa v => [0b00001000#8, 0b0001#4 ++ v]
  | .trapVs => [0b00001001#8]
  | .rte => [0b00001010#8]
  | .movI v d => [0b01011#5 ++ d.code, upperByte v, lowerByte v]
  | .nop => [0b00000000#8]

/-- The length of an instruction in bytes (R70, R78). -/
def Instr.length (i : Instr) : Nat := (encode i).length

/-- The length of the EA part (R79). -/
def Ea.length : Ea → Nat
  | .reg _ | .ind _ | .preDec _ | .postInc _ => 1
  | .disp8 .. | .abs8 _ | .imm8 _ => 2
  | .disp16 .. | .abs16 _ | .imm16 _ => 3

/-- The longest instruction of the table. -/
def maxLength : Nat := 4

/-! ### `Decode` of R70: the rows a chip is given, then the rows of the spec -/

/-- What `Decode` gives: an instruction and its length, `Invalid` (with the length of the code that is
so), a sequence outside the rows, or one that ends before its row does. -/
inductive Lookup where
  | instr (i : Instr) (len : Nat)
  | invalid (len : Nat)
  | unknown
  | short
  deriving DecidableEq, Repr

/-- What a row gives. An instruction with an illegal control register is `Invalid` (R80). -/
def Config.CodeRow.result (r : Config.CodeRow) : Lookup :=
  match r.means with
  | some i => if i.wellFormed then .instr i r.code.length else .invalid r.code.length
  | none => .invalid r.code.length

/-- What the spec's own rows give (R79 to R81), each instruction with its own length. -/
def Decoded.result : Decoded → Lookup
  | .instr i => .instr i i.length
  | .unknown => .unknown
  | .short => .short

/-- `Decode` (R70, R83, D31): the first given row whose code the bytes begin with, and where none is, the
spec's rows. A row of no bytes is none; bytes that end inside the code of a row are short. -/
def lookup : List Config.CodeRow → List Byte → Lookup
  | [], bs => (decode bs).result
  | r :: rows, bs =>
    if r.code = [] then lookup rows bs
    else if r.code.isPrefixOf bs then r.result
    else if bs.isPrefixOf r.code then .short
    else lookup rows bs

/-- Bytes agree with a code, as far as they go, in all that are certain. -/
def agrees (uncertain : Nat → Bool) : (code bs : List Byte) → (n : Nat) → Bool
  | [], _, _ | _ :: _, [], _ => true
  | c :: code, b :: bs, n => (uncertain n || c == b) && agrees uncertain code bs (n + 1)

/-- A given row that stands before the one that `lookup` takes, or before the spec's own rows, would be taken
for some values of the bytes that are not certain. -/
def contested (uncertain : Nat → Bool) : List Config.CodeRow → List Byte → Bool
  | [], _ => false
  | r :: rows, bs =>
    if r.code = [] then contested uncertain rows bs
    else if r.code.isPrefixOf bs || bs.isPrefixOf r.code then false
    else agrees uncertain r.code bs 0 || contested uncertain rows bs

/-- The longest code of some rows and of the table. -/
def longestCode (rows : List Config.CodeRow) : Nat := rows.foldl (fun n r => max n r.code.length) maxLength

/-- The first `n` bytes of a number of `8 * n` bits that holds the FIRST byte in its most significant
byte, as the `match` and `mask` columns of spec/opcode_table.json do (log entry 3). -/
def bytesOfNumber (n w : Nat) : List Byte :=
  match n with
  | 0 => []
  | n + 1 => bytesOfNumber n (w / 256) ++ [BitVec.ofNat 8 w]

/-- The bytes of a table word, followed by zero bytes up to the longest instruction. -/
def tableBytes (nbits w : Nat) : List Byte :=
  bytesOfNumber (nbits / 8) w ++ List.replicate (maxLength - nbits / 8) 0

/-- The instruction the decoder reads from a word of spec/opcode_table.json. -/
def decodeTableWord (nbits w : Nat) : Option Instr :=
  match decode (tableBytes nbits w) with
  | .instr i => some i
  | .unknown | .short => none

end Sys2Proof
end

