-- ==== Sys2Proof/Machine/State.lean ====
section
/-! DEFINITION. The machine's state, all of it plain data, the reasons a step can stop, and the state
after reset. INVENTORY.md, "State", lists every field with the rule that names it. -/

namespace Sys2Proof.Machine

/-- The eight general registers (spec/10_state.md R10). -/
structure Regs where
  r0 : Word
  r1 : Word
  r2 : Word
  r3 : Word
  r4 : Word
  r5 : Word
  r6 : Word
  r7 : Word
  deriving DecidableEq, Repr, Inhabited

/-- An interrupt source (R153): NMI, or one of the 21 maskable sources, numbered 0 IRQ0, 1 IRQ1,
2 to 20 the internal types. -/
inductive Source where
  | nmi
  | maskable (k : Fin 21)
  deriving DecidableEq, Repr

/-- What the outside world can do between two steps (R5, R26, R28, R192, D27). -/
inductive EnvEvent where
  /-- A request of a source becomes pending. -/
  | request (s : Source)
  /-- A request of a source stops being pending. -/
  | withdraw (s : Source)
  /-- RES goes Low: the chip enters the reset state (R200). -/
  | resLow
  /-- RES returns High. -/
  | resHigh
  /-- The mode pins MD2 to MD0 are set. -/
  | modePins (v : BitVec 3)
  deriving DecidableEq, Repr

/-- The whole machine. -/
structure State where
  /-- R0 to R7; R7 is SP (R10, R11). -/
  regs : Regs
  /-- The program counter (R12). -/
  pc : Word
  /-- The code page register (R13). -/
  cp : Byte
  /-- The stack page register (R14). -/
  tp : Byte
  /-- The data page register (R21). -/
  dp : Byte
  /-- The extended page register (R21). -/
  ep : Byte
  /-- The base register (R21). -/
  br : Byte
  /-- The status register; CCR is its lower byte (R15 to R20). -/
  sr : Word
  /-- MDCR.MDS2 to MDS0 (R22). -/
  mds : BitVec 3
  /-- RAMCR.RAME (R23). -/
  rame : Bool
  /-- The priority levels in IPR A to D, by maskable source: IntLevel (R24). -/
  level : Vector (BitVec 3) 21
  /-- The DTE bits in DTE A to D, by maskable source: IntDTE (R25). -/
  dte : Vector Bool 21
  /-- The operating mode that the last reset fixed (R3, R4, R201). -/
  mode : Config.OperatingMode
  /-- Whether NMI is pending (R28). -/
  nmiPending : Bool
  /-- Which maskable sources are pending (R28). -/
  pending : Vector Bool 21
  /-- An address error is pending (R29). -/
  addrErrPending : Bool
  /-- MODEL'S OWN: an address error was detected in the instruction being executed (R177, last but
  one line); false between instructions. -/
  addrErrDetected : Bool
  /-- The deferral flag (R30). -/
  defer : Bool
  /-- The last thing the CPU did was to execute an instruction (R30). -/
  lastWasInstruction : Bool
  /-- The DTC performs a data transfer cycle for this source (R31). -/
  dtcActive : Option (Fin 21)
  /-- The chip is in the reset state (R32). -/
  inReset : Bool
  /-- The RES pin is High (R26). -/
  resHigh : Bool
  /-- The mode pins MD2 to MD0 (R26). -/
  modePins : BitVec 3
  /-- The contents of every storage byte, ROM, RAM and external (R40, R43); see Machine/Ops.lean. -/
  mem : List Host.Cell
  /-- MODEL'S OWN: the bytes stored to since the last change of control flow, whose fetch the spec does not
  settle (R60), each by the name that `State.byteKey` gives it. -/
  stale : List Nat
  /-- MODEL'S OWN: how many values have been drawn. -/
  draws : Nat
  /-- MODEL'S OWN: what the outside world does before each of the coming steps (R5, D27). -/
  env : List (List EnvEvent)
  /-- MODEL'S OWN: the open parameters of the chip and its platform (R7); no step changes them. -/
  cfg : Config.Params
  deriving DecidableEq, Repr

/-- One access of the DTC to the bus: a byte, at an address as page and offset. -/
inductive BusAccess where
  | read (page : Byte) (off : Word)
  | write (page : Byte) (off : Word) (v : Byte)
  deriving DecidableEq, Repr

/-- What one data transfer cycle does to the machine: the registers that it leaves, and its accesses to the
bus, in order (R158; log entry 16). -/
structure DtcEffect where
  regs : Regs
  tp : Byte
  dp : Byte
  ep : Byte
  br : Byte
  accesses : List BusAccess
  deriving DecidableEq, Repr, Inhabited

end Sys2Proof.Machine

/-- `DtcCycle` (R7, R158, D20), from state to state and open: what a data transfer cycle for a source does
in a state. -/
opaque Sys2Proof.Config.dtcCycle (source : Fin 21) (s : Sys2Proof.Machine.State) : Sys2Proof.Machine.DtcEffect

namespace Sys2Proof.Machine

/-- Why the machine stops with no next state. Both are the spec's own. -/
inductive Fault where
  /-- An address error in the stack or vector accesses of an exception sequence or of a reset, or in
  RTE's pops: "a state that is never final and from which the spec defines no step" (R133, D13).
  Raised by `pushWord`, `popWord` and `loadVector`. Safe. -/
  | addressErrorInSequence
  /-- An access to an address with no on-chip memory and no declared external memory: "stuck" (R62,
  D30, U22). Raised by every access to memory. Safe. -/
  | absentMemory
  deriving DecidableEq, Repr

/-- Why the model gives no meaning. -/
inductive Refusal where
  /-- An instruction of the table with no meaning yet; no arm uses it. Safe. -/
  | notModelled (mnemonic : String)
  /-- Bytes outside the rows the spec gives: "it must refuse it" (R83, D31). Raised by `fetch`. Safe. -/
  | unknownCode
  /-- A byte that the choice of the instruction rests on was stored to with no change of control flow since:
  "refused" (R60, D32, U20). Raised by `fetch`. Safe. -/
  | storeIntoPrefetchedCode
  /-- An access to the on-chip RAM area with RAME = 0 outside single-chip mode where no external memory
  is declared: "refuse" (R23, D30, U14). Raised by every access to memory. Safe. -/
  | disabledRam
  deriving DecidableEq, Repr

/-- The machine right after reset (R34, R201), in the operating mode that the pins select under
`Config.standard`, with nothing listed in memory, so that the reset vector and PC are 0. Values the
spec does not state: log entry 6 (registers) and log entry 5 (parameters). -/
def State.reset : State where
  regs := ⟨0, 0, 0, 0, 0, 0, 0, 0⟩
  pc := 0
  cp := 0
  tp := 0
  dp := 0
  ep := 0
  br := 0
  sr := 0x0700
  mds := 1
  rame := true
  level := Vector.replicate 21 0
  dte := Vector.replicate 21 false
  mode := ⟨.minimum, false⟩
  nmiPending := false
  pending := Vector.replicate 21 false
  addrErrPending := false
  addrErrDetected := false
  defer := true
  lastWasInstruction := true
  dtcActive := none
  inReset := false
  resHigh := true
  modePins := 1
  mem := []
  stale := []
  draws := 0
  env := []
  cfg := Config.standard

end Sys2Proof.Machine
end

