-- ==== Sys2Proof/Machine/Flags.lean ====
section
/-! DEFINITION. The fields of SR through accessors, so that the layout of spec/10_state.md R17 stands in
Config alone, and the condition codes that the instructions compute. -/

namespace Sys2Proof.Machine

/-- SR.T (R16). -/
def traceOf (sr : Word) : Bool := sr.getLsbD Config.traceBit

/-- SR.I, the interrupt mask level (R18). -/
def maskOf (sr : Word) : BitVec 3 := sr.extractLsb' Config.maskBit 3

def negativeOf (sr : Word) : Bool := sr.getLsbD Config.negativeBit

def zeroOf (sr : Word) : Bool := sr.getLsbD Config.zeroBit

/-- SR.V (R19). -/
def overflowOf (sr : Word) : Bool := sr.getLsbD Config.overflowBit

def carryOf (sr : Word) : Bool := sr.getLsbD Config.carryBit

/-- The `n` bits of `w` from `lo` up replaced by those of `v`. -/
def replaceBits (w : Word) (lo n : Nat) (v : Word) : Word :=
  let field : Word := BitVec.ofNat 16 (2 ^ n - 1) <<< lo
  (w &&& ~~~field) ||| ((v <<< lo) &&& field)

def bit (b : Bool) : Word := if b then 1 else 0

/-- SR.T written. -/
def withTrace (sr : Word) (t : Bool) : Word := replaceBits sr Config.traceBit 1 (bit t)

/-- SR.I written. -/
def withMask (sr : Word) (level : BitVec 3) : Word := replaceBits sr Config.maskBit 3 (level.setWidth 16)

/-- The four condition codes written. -/
def withFlags (sr : Word) (n z v c : Bool) : Word :=
  replaceBits (replaceBits (replaceBits (replaceBits sr Config.negativeBit 1 (bit n))
    Config.zeroBit 1 (bit z)) Config.overflowBit 1 (bit v)) Config.carryBit 1 (bit c)

/-- N, Z, V, C from a four-bit value, most significant first (draws, and the parameter `Divxu`). -/
def withFlagBits (sr : Word) (b : BitVec 4) : Word :=
  withFlags sr (b.getLsbD 3) (b.getLsbD 2) (b.getLsbD 1) (b.getLsbD 0)

/-- What SR holds after `v` is written to it: reserved bits read as 0 (R17). -/
def asSr (v : Word) : Word := v &&& Config.srNamed

/-- The sign bit of a value of a size. -/
def signOf (sz : Size) (v : Word) : Bool :=
  match sz with
  | .byte => v.getLsbD 7
  | .word => v.getLsbD 15

/-- A value cut to a size. -/
def cut (sz : Size) (v : Word) : Word :=
  match sz with
  | .byte => (v.setWidth 8).setWidth 16
  | .word => v

/-- MOV: N and Z from the value moved, V cleared, C unchanged (R111; general knowledge, log entry 11). -/
def moveFlags (sz : Size) (v : Word) (sr : Word) : Word :=
  withFlags sr (signOf sz v) (cut sz v == 0) false (carryOf sr)

/-- The exact sum of two values of a size, as a number. -/
def exactSum (sz : Size) (a b : Word) : Nat := (cut sz a).toNat + (cut sz b).toNat

/-- The number of values of a size. -/
def modulus : Size → Nat
  | .byte => 256
  | .word => 65536

/-- The sum of two values of a size, modulo its number of values (R110). -/
def sum (sz : Size) (a b : Word) : Word := BitVec.ofNat 16 (exactSum sz a b % modulus sz)

/-- ADD: N and Z from the sum, V when two operands of one sign give a sum of the other, C when the
exact sum does not fit (R110; general knowledge, log entry 11). -/
def addFlags (sz : Size) (a b : Word) (sr : Word) : Word :=
  let r := sum sz a b
  withFlags sr (signOf sz r) (r == 0)
    (signOf sz a == signOf sz b && signOf sz r != signOf sz a)
    (decide (modulus sz ≤ exactSum sz a b))

end Sys2Proof.Machine
end

