-- ==== Sys2Proof/Machine/Ops.lean ====
section
/-! DEFINITION. The named operations over registers and memory, taking an exception and returning from
one. Addresses, regions and address errors: spec/20_memory.md and spec/60_exceptions.md R140 to R147;
the sequence: R124 to R131. -/

namespace Sys2Proof.Machine

/-- An outcome carried on: a fault or a refusal ends the step. -/
def andThen {α β : Type} (o : Host.Outcome α Fault Refusal) (f : α → Host.Outcome β Fault Refusal) :
    Host.Outcome β Fault Refusal :=
  match o with
  | .next a => f a
  | .fault r => .fault r
  | .refused r => .refused r

/-! ### Registers -/

def Regs.get (rf : Regs) : Reg → Word
  | .r0 => rf.r0
  | .r1 => rf.r1
  | .r2 => rf.r2
  | .r3 => rf.r3
  | .r4 => rf.r4
  | .r5 => rf.r5
  | .r6 => rf.r6
  | .r7 => rf.r7

def Regs.set (rf : Regs) (r : Reg) (v : Word) : Regs :=
  match r with
  | .r0 => { rf with r0 := v }
  | .r1 => { rf with r1 := v }
  | .r2 => { rf with r2 := v }
  | .r3 => { rf with r3 := v }
  | .r4 => { rf with r4 := v }
  | .r5 => { rf with r5 := v }
  | .r6 => { rf with r6 := v }
  | .r7 => { rf with r7 := v }

/-- `x[i]` (R8, R10). -/
def State.reg (s : State) (r : Reg) : Word := s.regs.get r

/-- `x[i] <- v` (R8, R10). -/
def State.setReg (s : State) (r : Reg) (v : Word) : State := { s with regs := s.regs.set r v }

/-- SP is R7 (R11). -/
def State.sp (s : State) : Word := s.reg .r7

/-- A register operand of a size: the byte size reads the low byte (log entry 10). -/
def State.readReg (s : State) (sz : Size) (r : Reg) : Word := cut sz (s.reg r)

/-- What a register holds after a value of a size is written to it: the byte size keeps the upper byte
(log entry 10). -/
def merge (sz : Size) (old v : Word) : Word :=
  match sz with
  | .byte => upperByte old ++ lowerByte v
  | .word => v

def State.writeReg (s : State) (sz : Size) (r : Reg) (v : Word) : State :=
  s.setReg r (merge sz (s.reg r) v)

def State.setSr (s : State) (v : Word) : State := { s with sr := v }

/-! ### Drawn values -/

/-- The next drawn value (R8 `draw`). -/
def State.drawn (s : State) (k : Config.Draw) : Word := Config.draw k s.draws

/-- The next drawn value is used up. -/
def State.tick (s : State) : State := { s with draws := s.draws + 1 }

/-- A register operand of a size takes a drawn value. -/
def State.drawReg (s : State) (k : Config.Draw) (sz : Size) (r : Reg) : State :=
  s.tick.writeReg sz r (s.drawn k)

/-- The condition codes take drawn values. -/
def State.drawFlags (s : State) (k : Config.Draw) : State :=
  s.tick.setSr (withFlagBits s.sr ((s.drawn k).setWidth 4))

/-! ### Storage: a list of cells in canonical form -/

/-- What a byte of storage that nothing has written reads as (log entry 7). -/
def unlisted : Byte := 0

def memRead : List Host.Cell → Nat → Byte
  | [], _ => unlisted
  | (k, v) :: m, a => if a = k then v else memRead m a

/-- Writing keeps the keys rising and no cell at the unlisted value. -/
def memWrite : List Host.Cell → Nat → Byte → List Host.Cell
  | [], a, v => if v = unlisted then [] else [(a, v)]
  | (k, w) :: m, a, v =>
    if a < k then (if v = unlisted then (k, w) :: m else (a, v) :: (k, w) :: m)
    else if a = k then (if v = unlisted then m else (a, v) :: m)
    else (k, w) :: memWrite m a v

/-- The canonical form: keys above `lo` and rising, no cell at the unlisted value. -/
def Memory.wfAbove : Nat → List Host.Cell → Bool
  | _, [] => true
  | lo, (k, v) :: m => decide (lo ≤ k) && decide (v ≠ unlisted) && Memory.wfAbove (k + 1) m

def Memory.wf (m : List Host.Cell) : Bool := Memory.wfAbove 0 m

/-- A byte was stored to, so that its fetch is not settled until the flow of control changes (R60). -/
def State.markStored (s : State) (k : Nat) : State :=
  { s with stale := if k ∈ s.stale then s.stale else k :: s.stale }

/-- A storage byte written. -/
def State.writeCell (s : State) (k : Nat) (v : Byte) : State :=
  State.markStored { s with mem := memWrite s.mem k v } k

/-! ### The address map (R40 to R45, R143 to R145) -/

/-- `EA(page, offset)`: in minimum mode the page is ignored (R8, R41, R42). -/
def busAddressIn (cpu : Config.CpuMode) (page : Byte) (off : Word) : Nat :=
  match cpu with
  | .minimum => off.toNat
  | .maximum => page.toNat * 65536 + off.toNat

def State.busAddress (s : State) (page : Byte) (off : Word) : Nat := busAddressIn s.mode.cpu page off

def Config.Range.holds (r : Config.Range) (a : Nat) : Bool := decide (r.lo ≤ a) && decide (a < r.lo + r.size)

/-- External memory exists where the launch declares it (R62, D30). -/
def Config.Params.externalAt (cfg : Config.Params) (a : Nat) : Bool :=
  cfg.external.any (fun r => Config.Range.holds r a)

/-- What lies at an address: storage that a store changes (on-chip RAM, declared external memory), on-chip
ROM, a byte of the register field, a place that can be accessed though no memory is known to lie there
(R44, log entry 42), a place whose access is an address error (with the storage byte that an access may
still reach, if there is one), nothing, or the disabled RAM area with nothing declared behind it (with the
RAM byte, which only an access that is an address error may still reach). -/
inductive Region where
  | cell (key : Nat)
  | rom (key : Nat)
  | register (offset : BitVec 7)
  | vacant
  | error (key : Option Nat)
  | absent
  | disabled (key : Nat)
  deriving DecidableEq, Repr

/-- The storage key of the external byte behind the on-chip RAM area: it is another byte than the
on-chip one (D30). -/
def behindRam (a : Nat) : Nat := a + 0x1000000

/-- An external byte of storage, if the launch declares it. -/
def externalRegion (cfg : Config.Params) (a : Nat) : Region :=
  if Config.Params.externalAt cfg a then .cell a else .absent

/-- The region of a bus address. The on-chip regions and the address-error ranges are ranges of page 0
(R45, D26). On-chip ROM is where `rom_range` has it; in single-chip mode the rest of H'0000 to H'7FFF is
accessible without address error all the same (R44). -/
def regionIn (mode : Config.OperatingMode) (rame : Bool) (cfg : Config.Params) (a : Nat) : Region :=
  if 0x10000 ≤ a then externalRegion cfg a
  else if 0xFF80 ≤ a then .register (BitVec.ofNat 7 (a - 0xFF80))
  else if 0xFB80 ≤ a then
    (if rame then .cell a
     else if mode.singleChip then .error (some a)
     else if Config.Params.externalAt cfg a then .cell (behindRam a) else .disabled a)
  else if 0x8000 ≤ a then (if mode.singleChip then .error none else externalRegion cfg a)
  else if Config.Range.holds cfg.rom a then .rom a
  else if mode.singleChip then .vacant
  else externalRegion cfg a

def State.region (s : State) (page : Byte) (off : Word) : Region :=
  regionIn s.mode s.rame s.cfg (s.busAddress page off)

/-- How the list of stored bytes names the byte at an address: by its storage key, and where no storage lies,
whatever a store does there, by its bus address (R60: "any byte of an instruction"). No two addresses
share a name. -/
def State.byteKey (s : State) (page : Byte) (off : Word) : Nat :=
  match s.region page off with
  | .cell k | .rom k | .error (some k) | .disabled k => k
  | .register _ | .vacant | .error none | .absent => s.busAddress page off

/-- Word data starts at an odd address (R48, R142). -/
def isOdd (off : Word) : Bool := off.getLsbD 0

/-- `raise AddressError` (R8, R29, R140): detection sets `addr_err_pending`. -/
def State.raiseAddressError (s : State) : State := { s with addrErrPending := true, addrErrDetected := true }

/-! ### The register field (R22 to R25, R53; log entry 8) -/

/-- `n` bits of a byte from `lo` up replaced. -/
def placeBits (b : Byte) (lo n : Nat) (v : Byte) : Byte :=
  let field : Byte := BitVec.ofNat 8 (2 ^ n - 1) <<< lo
  (b &&& ~~~field) ||| ((v <<< lo) &&& field)

/-- A field of a control register: where it lies in its byte, and what it holds. -/
structure Field where
  lo : Nat
  width : Nat
  value : Byte
  deriving DecidableEq, Repr

/-- The sources whose field, by a list of registers and of places, lies at an offset. -/
def sourcesAt (o : BitVec 7) (registers : Vector (BitVec 7) 4) (places : Vector (Fin 4 × Nat) 21) : List (Fin 21) :=
  (List.finRange 21).filter fun k => registers.get (places.get k).1 = o

/-- The fields the spec names that lie at an offset of the register field: MDS, RAME, the levels and the
DTE bits (R22 to R25). Where two overlap the later stands over the earlier (log entry 8). -/
def State.fieldsAt (s : State) (o : BitVec 7) : List Field :=
  let map := s.cfg.registers
  (if map.mdcr = o then [⟨map.mdsBit, 3, s.mds.setWidth 8⟩] else []) ++
  (if map.ramcr = o then [⟨map.rameBit, 1, if s.rame then 1 else 0⟩] else []) ++
  (sourcesAt o map.ipr map.levelAt).map (fun k => ⟨(map.levelAt.get k).2, 3, (s.level.get k).setWidth 8⟩) ++
  (sourcesAt o map.dte map.dteAt).map (fun k => ⟨(map.dteAt.get k).2, 1, if s.dte.get k then 1 else 0⟩)

/-- A byte loaded from the register field: an oracle answer but for the fields the spec names (R53). -/
def State.registerLoad (s : State) (o : BitVec 7) : Byte :=
  (s.fieldsAt o).foldl (fun b f => placeBits b f.lo f.width f.value) ((s.drawn (.registerField o)).setWidth 8)

/-- A byte stored to the register field: the fields the spec names that lie there take the byte's bits
(R23 to R25, R53). Whether the MDS bits can be written is not stated: they take a drawn value (R22). -/
def State.registerStore (s : State) (o : BitVec 7) (v : Byte) : State :=
  let map := s.cfg.registers
  { s.tick with
    mds := if map.mdcr = o then (s.drawn .modeBits).setWidth 3 else s.mds
    rame := if map.ramcr = o then v.getLsbD map.rameBit else s.rame
    level := Vector.ofFn fun k =>
      if map.ipr.get (map.levelAt.get k).1 = o then v.extractLsb' (map.levelAt.get k).2 3 else s.level.get k
    dte := Vector.ofFn fun k =>
      if map.dte.get (map.dteAt.get k).1 = o then v.getLsbD (map.dteAt.get k).2 else s.dte.get k }

/-! ### Accesses -/

/-- What a load gives: the value, or none when the access raised an address error. -/
structure Loaded where
  value : Option Word
  state : State
  deriving DecidableEq, Repr

/-- What a store gives: whether it was made without an address error. -/
structure Stored where
  made : Bool
  state : State
  deriving DecidableEq, Repr

/-- `MemRead(addr, 1)` (R8). -/
def loadByte (page : Byte) (off : Word) (s : State) : Host.Outcome Loaded Fault Refusal :=
  match s.region page off with
  | .cell k | .rom k => .next ⟨some ((memRead s.mem k).setWidth 16), s⟩
  | .register o => .next ⟨some ((s.registerLoad o).setWidth 16), s.tick⟩
  | .vacant => .next ⟨some ((lowerByte (s.drawn .vacant)).setWidth 16), s.tick⟩
  | .error _ => .next ⟨none, s.raiseAddressError⟩
  | .absent => .fault .absentMemory
  | .disabled _ => .refused .disabledRam

/-- Two loaded bytes as a word, upper byte first (R46). -/
def joinLoaded (hi lo : Option Word) : Option Word :=
  match hi, lo with
  | some h, some l => some (wordOfBytes (lowerByte h) (lowerByte l))
  | _, _ => none

/-- `MemRead(addr, 2)`: an odd address is an address error (R46, R48, R142). -/
def loadWord (page : Byte) (off : Word) (s : State) : Host.Outcome Loaded Fault Refusal :=
  if isOdd off then .next ⟨none, s.raiseAddressError⟩
  else
    andThen (loadByte page off s) fun hi =>
    andThen (loadByte page (off + 1) hi.state) fun lo =>
    .next ⟨joinLoaded hi.value lo.value, lo.state⟩

/-- `MemRead(addr, n)` by size. -/
def load (sz : Size) (page : Byte) (off : Word) (s : State) : Host.Outcome Loaded Fault Refusal :=
  match sz with
  | .byte => loadByte page off s
  | .word => loadWord page off s

/-- The byte at the failing address of a store takes a drawn value, where there is one, that of the disabled
RAM included (R147, D14). DESIGN CHOICE (log entry 19): where an access would otherwise stop, at an address
with no memory (R62) or in the disabled RAM area outside single-chip mode with nothing declared behind it
(U14), a word access at an odd address is the address error of R142 and does not stop. -/
def drawByteAt (page : Byte) (off : Word) (s : State) : State :=
  let v : Byte := (s.drawn .failingByte).setWidth 8
  match s.region page off with
  | .cell k | .rom k | .error (some k) | .disabled k => s.tick.writeCell k v
  | .register o => (s.tick.registerStore o v).markStored (s.busAddress page off)
  | .vacant | .error none | .absent => s.tick.markStored (s.busAddress page off)

/-- `MemWrite(addr, 1, v)` (R8). What a store to ROM leaves is a drawn value (R44); a store to a vacant
place completes and changes no storage (log entry 42). -/
def storeByte (page : Byte) (off : Word) (v : Byte) (s : State) : Host.Outcome Stored Fault Refusal :=
  match s.region page off with
  | .cell k => .next ⟨true, s.writeCell k v⟩
  | .rom k => .next ⟨true, s.tick.writeCell k ((s.drawn .romByte).setWidth 8)⟩
  | .register o => .next ⟨true, (s.registerStore o v).markStored (s.busAddress page off)⟩
  | .vacant => .next ⟨true, s.markStored (s.busAddress page off)⟩
  | .error _ => .next ⟨false, (drawByteAt page off s).raiseAddressError⟩
  | .absent => .fault .absentMemory
  | .disabled _ => .refused .disabledRam

/-- `MemWrite(addr, 2, v)`: upper byte at the lower address; an odd address is an address error
(R46, R48, R142) that leaves drawn values at the failing address (R147). -/
def storeWord (page : Byte) (off : Word) (v : Word) (s : State) : Host.Outcome Stored Fault Refusal :=
  if isOdd off then
    .next ⟨false, (drawByteAt page (off + 1) (drawByteAt page off s)).raiseAddressError⟩
  else
    andThen (storeByte page off (upperByte v) s) fun hi =>
    andThen (storeByte page (off + 1) (lowerByte v) hi.state) fun lo =>
    .next ⟨hi.made && lo.made, lo.state⟩

/-- `MemWrite(addr, n, v)` by size. -/
def store (sz : Size) (page : Byte) (off : Word) (v : Word) (s : State) : Host.Outcome Stored Fault Refusal :=
  match sz with
  | .byte => storeByte page off (lowerByte v) s
  | .word => storeWord page off v s

/-! ### The stack of sequences and of RTE (R50, R133) -/

/-- `Push16(v)`; an address error here is a fault (R133). -/
def pushWord (v : Word) (s : State) : Host.Outcome State Fault Refusal :=
  andThen (storeWord s.tp (s.sp - 2) v (s.setReg .r7 (s.sp - 2))) fun w =>
  if w.made then .next w.state else .fault .addressErrorInSequence

/-- A popped word and the state after. -/
structure Popped where
  value : Word
  state : State
  deriving DecidableEq, Repr

/-- `Pop16()`; an address error here is a fault (R133). -/
def popWord (s : State) : Host.Outcome Popped Fault Refusal :=
  andThen (loadWord s.tp s.sp s) fun g =>
  match g.value with
  | some v => .next ⟨v, g.state.setReg .r7 (s.sp + 2)⟩
  | none => .fault .addressErrorInSequence

/-! ### Taking an exception (R124 to R131) and returning from one (R104) -/

/-- Step 1 of the sequence: save PC and SR, in maximum mode CP with PC (R124, R125, R131). The
"Don't-care" byte is a drawn value. -/
def saveContext (pushedPc : Word) (pushedCp : Byte) (s : State) : Host.Outcome State Fault Refusal :=
  match s.mode.cpu with
  | .minimum => andThen (pushWord pushedPc s) (pushWord s.sr)
  | .maximum =>
    andThen (pushWord pushedPc s) fun t =>
    andThen (pushWord (lowerByte (t.drawn .dontCare) ++ pushedCp) t.tick) (pushWord s.sr)

/-- Step 2: T is cleared and, for an interrupt, the mask level is written (R124, R126). -/
def enterSr (newMask : Option (BitVec 3)) (sr : Word) : Word :=
  match newMask with
  | none => withTrace sr false
  | some l => withMask (withTrace sr false) l

/-- Steps 3 and 4: fetch the vector entry of an index and branch to it (R127, R129); the code there is
fetched afresh (R60). -/
def loadVector (index : BitVec 6) (s : State) : Host.Outcome State Fault Refusal :=
  match s.mode.cpu with
  | .minimum =>
    andThen (loadWord 0 (index.setWidth 16 * 2) s) fun g =>
    match g.value with
    | some v => .next { g.state with pc := v, stale := [] }
    | none => .fault .addressErrorInSequence
  | .maximum =>
    andThen (loadByte 0 (index.setWidth 16 * 4 + 1) s) fun p =>
    andThen (loadWord 0 (index.setWidth 16 * 4 + 2) p.state) fun g =>
    match p.value, g.value with
    | some page, some v => .next { g.state with cp := lowerByte page, pc := v, stale := [] }
    | _, _ => .fault .addressErrorInSequence

/-- `ExceptionSequence(index, pushed_pc, pushed_cp, new_I)` (R131). -/
def exceptionSequence (index : BitVec 6) (pushedPc : Word) (pushedCp : Byte) (newMask : Option (BitVec 3))
    (s : State) : Host.Outcome State Fault Refusal :=
  andThen (saveContext pushedPc pushedCp s) fun t =>
  loadVector index (t.setSr (enterSr newMask t.sr))

/-- RTE's pops (R104): SR, in maximum mode the word that holds CP, then PC. -/
def returnFromException (s : State) : Host.Outcome State Fault Refusal :=
  match s.mode.cpu with
  | .minimum =>
    andThen (popWord s) fun sr =>
    andThen (popWord sr.state) fun pc =>
    .next { pc.state with sr := asSr sr.value, pc := pc.value, stale := [] }
  | .maximum =>
    andThen (popWord s) fun sr =>
    andThen (popWord sr.state) fun page =>
    andThen (popWord page.state) fun pc =>
    .next { pc.state with sr := asSr sr.value, cp := lowerByte page.value, pc := pc.value, stale := [] }

/-! ### The program counter and the end of an instruction -/

/-- The code address `n` bytes after CP:PC, as page and offset. In minimum mode CP takes no part (R13);
over the top of a page in maximum mode the carry into CP is open (N6, U21, log entry 15). -/
def State.codeAddress (s : State) (n : Nat) : Byte × Word :=
  match s.mode.cpu with
  | .minimum => (s.cp, s.pc + BitVec.ofNat 16 n)
  | .maximum =>
    (if s.pc.toNat + n < 65536 then s.cp else if Config.pcCarries then s.cp + 1 else s.cp,
      s.pc + BitVec.ofNat 16 n)

/-- `PC <- next_pc`, the next instruction address after an instruction of `n` bytes (R170). -/
def State.advance (s : State) (n : Nat) : State :=
  { s with cp := (s.codeAddress n).1, pc := (s.codeAddress n).2 }

/-- The end of an instruction (R177, last two lines): `five` says whether it is one of XORC, ORC, ANDC,
LDC, RTE. `AddrErrExtra` is drawn when an address error was detected in it (R146). -/
def State.finish (s : State) (five : Bool) : State :=
  { s with
    defer := five || (s.addrErrDetected && (s.drawn .addrErrExtra).getLsbD 0)
    lastWasInstruction := true
    draws := if s.addrErrDetected then s.draws + 1 else s.draws
    addrErrDetected := false }

/-- The end of an instruction of `n` bytes that does not change the flow of control. -/
def State.complete (s : State) (five : Bool) (n : Nat) : State := (s.advance n).finish five

/-- The exception of an illegal instruction (R164): PC pushed is a drawn value (R172, D16). -/
def invalidInstruction (s : State) : Host.Outcome State Fault Refusal :=
  andThen (exceptionSequence 2 (s.drawn .invalidPc) s.cp none s.tick) fun t => .next (t.finish false)

end Sys2Proof.Machine
end

