-- ==== Sys2Proof/Machine/Fetch.lean ====
section
/-! DEFINITION. Fetching the instruction at CP:PC: where no instruction may be fetched, which addresses raise
the prefetch address error (spec/60_exceptions.md R141, R144, R145, D21), when the fetched bytes are
not settled (spec/20_memory.md R60), and what `Decode` gives for them (spec/30_encoding.md R70). -/

namespace Sys2Proof.Machine

/-- R141 (b), R144, R145: no instruction is fetched from the register field, nor from where an access is
an address error. -/
def State.mayFetch (s : State) : Bool :=
  match s.region s.cp s.pc with
  | .register _ | .error _ => false
  | .cell _ | .rom _ | .vacant | .absent | .disabled _ => true

/-- The region of the instruction byte `n` bytes after CP:PC. -/
def State.codeRegion (s : State) (n : Nat) : Region := s.region (s.codeAddress n).1 (s.codeAddress n).2

/-- An instruction byte. One that lies where no instruction may be fetched, or in a vacant place, has a
drawn value. -/
def fetchByte (s : State) (n : Nat) : Host.Outcome Byte Fault Refusal :=
  match s.codeRegion n with
  | .cell k | .rom k => .next (memRead s.mem k)
  | .register _ | .vacant | .error _ => .next ((s.drawn (.fetched n)).setWidth 8)
  | .absent => .fault .absentMemory
  | .disabled _ => .refused .disabledRam

/-- Up to `count` instruction bytes from the `n`-th on, as far as they can be fetched. -/
def fetchBytes (s : State) : (count n : Nat) → List Byte
  | 0, _ => []
  | count + 1, n =>
    match fetchByte s n with
    | .next b => b :: fetchBytes s count (n + 1)
    | .fault _ | .refused _ => []

/-- The bytes at CP:PC, as many as `Decode` may look at and can be fetched (R70). -/
def State.codeBytes (s : State) : List Byte := fetchBytes s (longestCode s.cfg.codes) 0

/-- What `Decode` gives at CP:PC (R70). -/
def State.decoded (s : State) : Lookup := lookup s.cfg.codes s.codeBytes

/-- Whether an instruction byte was stored to since the last change of control flow. -/
def State.staleAt (s : State) (n : Nat) : Bool :=
  decide (s.byteKey (s.codeAddress n).1 (s.codeAddress n).2 ∈ s.stale)

/-- Whether the value of an instruction byte is a drawn one. -/
def State.drawnAt (s : State) (n : Nat) : Bool :=
  match s.codeRegion n with
  | .register _ | .vacant | .error _ => true
  | .cell _ | .rom _ | .absent | .disabled _ => false

/-- Some byte of an instruction of `len` bytes has a drawn value. -/
def State.drawnWithin (s : State) (len : Nat) : Bool := (List.range len).any s.drawnAt

/-- R60: what `Decode` gives for the bytes at CP:PC, an instruction of `len` bytes, rests on a byte that was
stored to since the last change of control flow: one of the instruction's own, or one that alone keeps
a given row from being taken before it, so that the prefetched bytes may be that row's. DESIGN CHOICE (log
entry 20): the latter whatever the byte held before. -/
def State.staleWithin (s : State) (len : Nat) : Bool :=
  (List.range len).any s.staleAt || contested s.staleAt s.cfg.codes s.codeBytes

/-- R141 (a), (c), R144: in page 0, an instruction that begins below H'FF80 and has a byte at or above
H'FF7D, and in single-chip mode one that begins below H'8000 and has a byte at or above H'7FFD. -/
def State.prefetchError (s : State) (len : Nat) : Bool :=
  let a := s.busAddress s.cp s.pc
  (decide (a < 0xFF80) && decide (0xFF7D < a + len)) ||
  (s.mode.singleChip && decide (a < 0x8000) && decide (0x7FFD < a + len))

/-- The state after `len` bytes of code were fetched: the drawn values used up, and the address error of
the prefetch. -/
def State.fetched (s : State) (len : Nat) : State :=
  let t := if s.drawnWithin len then s.tick else s
  if s.prefetchError len then t.raiseAddressError else { t with addrErrDetected := false }

/-- CP and PC so that the next instruction address of an instruction of `n` bytes is the given one. -/
def State.placedBefore (s : State) (next : Byte × Word) (n : Nat) : State :=
  let pc := next.2 - BitVec.ofNat 16 n
  { s with
    pc := pc
    cp :=
      match s.mode.cpu with
      | .minimum => next.1
      | .maximum => if pc.toNat + n < 65536 then next.1 else if Config.pcCarries then next.1 - 1 else next.1 }

/-- The state in which a fetched instruction is executed. Where `Decode` gives it another length than the
spec's own rows do, CP:PC is moved by the difference, so that the next instruction address is CP:PC plus
the length that `Decode` gives (R70, R170; log entry 41). -/
def State.executing (s : State) (i : Instr) (len : Nat) : State :=
  if len = i.length then s.fetched len else (s.fetched len).placedBefore (s.codeAddress len) i.length

/-- What the fetch gives: nothing may be fetched here, an instruction and the state to execute it in, or
`Invalid` and the state to take its exception in. -/
inductive Fetched where
  | blocked
  | run (i : Instr) (s : State)
  | invalid (s : State)
  deriving DecidableEq, Repr

/-- The fetch at CP:PC (R177 step 2). -/
def fetch (s : State) : Host.Outcome Fetched Fault Refusal :=
  if s.mayFetch then
    match s.decoded with
    | .instr i len =>
      if s.staleWithin len then .refused .storeIntoPrefetchedCode else .next (.run i (s.executing i len))
    | .invalid len =>
      if s.staleWithin len then .refused .storeIntoPrefetchedCode else .next (.invalid (s.fetched len))
    | .unknown => .refused .unknownCode
    | .short =>
      if s.staleWithin s.codeBytes.length then .refused .storeIntoPrefetchedCode
      else
        match fetchByte s s.codeBytes.length with
        | .fault r => .fault r
        | .refused r => .refused r
        | .next _ => .refused .unknownCode
  else .next .blocked

/-- R141 (b), R177: the attempt to fetch sets `addr_err_pending` and nothing is executed. -/
def State.fetchBlocked (s : State) : State :=
  { s with addrErrPending := true, defer := false, lastWasInstruction := false }

end Sys2Proof.Machine
end

