-- ==== Sys2Proof/Machine/Interrupts.lean ====
section
/-! DEFINITION. The CPU's side of interrupts (spec/60_exceptions.md R153 to R159): which pending requests
are acceptable, which of them is taken, and what accepting it does; and the DTC's step (R158, R163). -/

namespace Sys2Proof.Machine

/-- R154: a pending maskable source is acceptable iff its level is above the mask level. -/
def State.acceptable (s : State) (k : Fin 21) : Bool :=
  s.pending.get k && decide (maskOf s.sr < s.level.get k)

/-- R155: `a` is accepted before `b` if its level is greater, or the levels are equal and it comes first
in `IntOrder` (equal ranks: the lower number). -/
def State.before (s : State) (a b : Fin 21) : Bool :=
  decide (s.level.get b < s.level.get a) ||
  (s.level.get a == s.level.get b &&
    (decide (s.cfg.rank.get a < s.cfg.rank.get b) ||
      (s.cfg.rank.get a == s.cfg.rank.get b && decide (a ≤ b))))

/-- The first of a list of sources in the order of acceptance. -/
def State.firstOf (s : State) : List (Fin 21) → Option (Fin 21)
  | [] => none
  | k :: ks =>
    match s.firstOf ks with
    | none => some k
    | some b => if s.before k b then some k else some b

/-- The request that is accepted, if any: NMI before all (R154, R155). -/
def State.chosen (s : State) : Option Source :=
  if s.nmiPending then some .nmi
  else (s.firstOf ((List.finRange 21).filter s.acceptable)).map .maskable

/-- The vector index of a maskable source (R157, R128). -/
def State.vectorOf (s : State) (k : Fin 21) : BitVec 6 :=
  if k.val = 0 then 32
  else if k.val = 1 then 33
  else s.cfg.vectorOfInternal.get ⟨k.val - 2, by omega⟩

/-- Acceptance takes the request out of the pending set (R156). -/
def State.withoutNmi (s : State) : State := { s with nmiPending := false }

def State.withoutPending (s : State) (k : Fin 21) : State := { s with pending := s.pending.set k false }

/-- NMI: vector index 11, mask level 7, never the DTC (R157, R158). -/
def acceptNmi (s : State) : Host.Outcome State Fault Refusal :=
  exceptionSequence 11 s.pc s.cp (some 7) s.withoutNmi

/-- A CPU interrupt of a maskable source: the mask becomes its level (R157). -/
def acceptInterrupt (k : Fin 21) (s : State) : Host.Outcome State Fault Refusal :=
  exceptionSequence (s.vectorOf k) s.pc s.cp (some (s.level.get k)) (s.withoutPending k)

/-- A DTC start: nothing is pushed, the CPU stops (R158). -/
def State.startDtc (s : State) (k : Fin 21) : State := { s.withoutPending k with dtcActive := some k }

/-- An access of the DTC. One that the model does not admit stops as the CPU's does: where there is no memory
(R62, D30, U22), and in the disabled RAM area outside single-chip mode with nothing declared behind it
(U14). A read leaves no trace of its own. DESIGN CHOICE (log entry 16), the spec being silent: where a
store of the CPU would be an address error, a write does what `storeByte` does there but for the error, so
that one to the disabled RAM area in single-chip mode (RAME = 0) leaves a drawn byte in that RAM, and
one to H'8000 to H'FB7F nothing. -/
def busAccess (a : BusAccess) (s : State) : Host.Outcome State Fault Refusal :=
  match a with
  | .read page off => andThen (loadByte page off s) fun _ => .next s
  | .write page off v => andThen (storeByte page off v s) fun w => .next w.state

/-- Accesses of the DTC, in order. -/
def busAccesses : List BusAccess → State → Host.Outcome State Fault Refusal
  | [], s => .next s
  | a :: as, s => andThen (busAccess a s) (busAccesses as)

/-- The DTC's step, one whole data transfer cycle, what `DtcCycle` makes of the state (R158). SR and PC do
not change, and CP stays with PC, so that the next instruction is the CPU's own (R158, R163); the
cycle raises no address error; afterwards the CPU resumes with `defer` set (R31, R163, R177; log entry
16). -/
def State.dtcCycle (s : State) (k : Fin 21) : Host.Outcome State Fault Refusal :=
  let e := Config.dtcCycle k s
  andThen (busAccesses e.accesses s.tick) fun t =>
  .next { t with
    regs := e.regs
    tp := e.tp
    dp := e.dp
    ep := e.ep
    br := e.br
    addrErrPending := s.addrErrPending
    addrErrDetected := s.addrErrDetected
    dtcActive := none
    defer := true
    lastWasInstruction := false }

/-- A data transfer cycle that a reset abandons, with the partial effects it had (R200, D27): the first of its
accesses, any number of them up to all. The registers, which the reset sequence draws afresh, are as they
were (log entry 36). -/
def State.abandonDtc (s : State) (k : Fin 21) : Host.Outcome State Fault Refusal :=
  andThen (busAccesses ((Config.dtcCycle k s).accesses.take (Config.dtcDone s.draws)) s.tick) fun t =>
  .next { t with addrErrPending := s.addrErrPending, addrErrDetected := s.addrErrDetected, dtcActive := none }

end Sys2Proof.Machine
end

