-- ==== Sys2Proof/Machine/Reset.lean ====
section
/-! DEFINITION. What the outside world does to the machine, and reset (spec/70_reset_and_hazards.md R200 to
R203, spec/10_state.md R34). -/

namespace Sys2Proof.Machine

/-- R200: RES Low halts all processing; nothing is saved. A data transfer cycle under way is abandoned by the
step that follows (`State.abandonDtc`). -/
def State.enterReset (s : State) : State :=
  { s with resHigh := false, inReset := true, addrErrPending := false, addrErrDetected := false }

/-- One act of the outside world (R5, R28, R192, D27). -/
def State.applyEvent (s : State) (e : EnvEvent) : State :=
  match e with
  | .request .nmi => { s with nmiPending := true }
  | .request (.maskable k) => { s with pending := s.pending.set k true }
  | .withdraw .nmi => { s with nmiPending := false }
  | .withdraw (.maskable k) => { s with pending := s.pending.set k false }
  | .resLow => s.enterReset
  | .resHigh => { s with resHigh := true }
  | .modePins v => { s with modePins := v }

/-- What the outside world does before this step (R5, D27). -/
def State.applyEnvironment (s : State) : State :=
  match s.env with
  | [] => s
  | now :: later => now.foldl State.applyEvent { s with env := later }

/-- The state a reset leaves unspecified takes drawn values (R34, R201; log entry 6). What survives:
memory (R63), the pending set, and the parameters. -/
def State.unspecified (s : State) : State :=
  { s.tick with
    regs := ⟨s.drawn (.resetRegister .r0), s.drawn (.resetRegister .r1), s.drawn (.resetRegister .r2),
      s.drawn (.resetRegister .r3), s.drawn (.resetRegister .r4), s.drawn (.resetRegister .r5),
      s.drawn (.resetRegister .r6), s.drawn (.resetRegister .r7)⟩
    cp := lowerByte (s.drawn .resetCp)
    tp := lowerByte (s.drawn .resetTp)
    dp := lowerByte (s.drawn .resetDp)
    ep := lowerByte (s.drawn .resetEp)
    br := lowerByte (s.drawn .resetBr)
    sr := asSr (s.drawn .resetSr)
    rame := (s.drawn .resetRame).getLsbD 0
    level := Vector.ofFn fun k => (s.drawn (.resetLevel (s.cfg.registers.levelAt.get k))).setWidth 3
    dte := Vector.ofFn fun k => (s.drawn (.resetDte (s.cfg.registers.dteAt.get k))).getLsbD 0 }

/-- The mode pins latched, which fixes the operating mode for the run (R201 step 1, R3). -/
def State.latchMode (s : State) : State :=
  { s with mds := s.modePins, mode := s.cfg.modeOfPins.get s.modePins.toFin }

/-- R201 step 2: T cleared, the mask level 7. -/
def resetSr (sr : Word) : Word := withMask (withTrace sr false) 7

/-- The reset sequence (R201): nothing is pushed and no memory is written; the vector entry is entry 0. -/
def resetSequence (s : State) : Host.Outcome State Fault Refusal :=
  let t := s.latchMode.unspecified
  andThen (loadVector 0 (t.setSr (resetSr t.sr))) fun u =>
  .next { u with
    addrErrPending := false, addrErrDetected := false, dtcActive := none
    defer := true, lastWasInstruction := true, inReset := false }

end Sys2Proof.Machine
end

