-- ==== Sys2Proof/Machine/Boundary.lean ====
section
/-! DEFINITION. What the next step is (spec/60_exceptions.md R121 to R123, R159, R160, R177): one exception
sequence, one data transfer cycle, the reset sequence, or one instruction (R177 note (e)). -/

namespace Sys2Proof.Machine

/-- What one step does. -/
inductive Action where
  /-- RES is Low: no agent steps (R32, R200). -/
  | halted
  /-- The reset sequence (R201). -/
  | reset
  /-- A data transfer cycle (R158). -/
  | dtc (k : Fin 21)
  /-- A data transfer cycle that a reset abandons (R200, D27). -/
  | abandonDtc (k : Fin 21)
  /-- The address error sequence (R140). -/
  | addressError
  /-- The trace sequence (R151). -/
  | trace
  /-- A CPU interrupt, or a DTC start (R157, R158). -/
  | accept (s : Source)
  /-- One instruction. -/
  | instruction
  deriving DecidableEq, Repr

/-- The boundary checks, in order of priority (R121, R177 step 1); skipped while deferred (R160). -/
def State.nextAction (s : State) : Action :=
  if s.inReset then
    match s.dtcActive with
    | some k => .abandonDtc k
    | none => if s.resHigh then .reset else .halted
  else
    match s.dtcActive with
    | some k => .dtc k
    | none =>
      if s.defer then .instruction
      else if s.addrErrPending then .addressError
      else if traceOf s.sr && s.lastWasInstruction then .trace
      else
        match s.chosen with
        | some src => .accept src
        | none => .instruction

/-- The address error sequence: vector index 8; the pending bit is cleared (R29, R140). -/
def addressErrorSequence (s : State) : Host.Outcome State Fault Refusal :=
  exceptionSequence 8 s.pc s.cp none { s with addrErrPending := false }

/-- The trace sequence: vector index 9 (R151). -/
def traceSequence (s : State) : Host.Outcome State Fault Refusal := exceptionSequence 9 s.pc s.cp none s

/-- Accepting a request: NMI and a source whose DTE bit is 0 interrupt the CPU, another source starts
the DTC (R157, R158). -/
def acceptRequest (src : Source) (s : State) : Host.Outcome State Fault Refusal :=
  match src with
  | .nmi => acceptNmi s
  | .maskable k => if s.dte.get k then .next (s.startDtc k) else acceptInterrupt k s

/-- The storage keys of the code bytes from CP:PC on, with the byte each is to hold. -/
def State.placeCode (s : State) : List Byte → Nat → List Host.Cell → List Host.Cell
  | [], _, m => m
  | b :: bs, n, m =>
    match s.codeRegion n with
    | .cell k | .rom k => s.placeCode bs (n + 1) (memWrite m k b)
    | .register _ | .vacant | .error _ | .absent | .disabled _ => s.placeCode bs (n + 1) m

end Sys2Proof.Machine
end

