-- ==== Sys2Proof/Machine/Operands.lean ====
section
/-! DEFINITION. The operand forms of spec/30_encoding.md R79 over the state: where an operand lies, reading
it, writing it, and what its addressing mode does to the address register (R50, R51, R112, R113). -/

namespace Sys2Proof.Machine

/-- Where an operand lies. -/
inductive Place where
  | register (r : Reg)
  | immediate (v : Word)
  | memory (page : Byte) (off : Word)
  deriving DecidableEq, Repr

/-- The page register of an access through a general register in maximum mode: TP for R6 and R7, EP for
R4 and R5, DP for the others. For R7 in `@-SP` and `@SP+` it is the spec's (D37); the rest is
PRESUMED (log entry 9). -/
def State.pageOf (s : State) (r : Reg) : Byte :=
  match r with
  | .r7 | .r6 => s.tp
  | .r5 | .r4 => s.ep
  | .r3 | .r2 | .r1 | .r0 => s.dp

/-- The size of the access: `@-SP` and `@SP+` make word accesses (R51, R112). -/
def accessSize (sz : Size) : Ea → Size
  | .preDec .r7 | .postInc .r7 => .word
  | _ => sz

/-- How far `@-Rn` and `@Rn+` move the register: by the size of the access (R51). -/
def stepOf (sz : Size) (ea : Ea) : Word :=
  match accessSize sz ea with
  | .byte => 1
  | .word => 2

/-- Where the operand of a form lies, by the registers before the instruction. -/
def State.place (s : State) (sz : Size) (ea : Ea) : Place :=
  match ea with
  | .reg r => .register r
  | .ind r | .postInc r => .memory (s.pageOf r) (s.reg r)
  | .disp8 d r => .memory (s.pageOf r) (s.reg r + d.signExtend 16)
  | .disp16 d r => .memory (s.pageOf r) (s.reg r + d)
  | .preDec r => .memory (s.pageOf r) (s.reg r - stepOf sz ea)
  | .abs8 a => .memory s.dp (s.br ++ a)
  | .abs16 a => .memory s.dp a
  | .imm8 v => .immediate (v.setWidth 16)
  | .imm16 v => .immediate v

/-- The address register that the form modifies (R51). -/
def Ea.modified : Ea → Option Reg
  | .preDec r | .postInc r => some r
  | .reg _ | .ind _ | .disp8 .. | .disp16 .. | .abs8 _ | .abs16 _ | .imm8 _ | .imm16 _ => none

/-- The address register after the form's modification. -/
def State.modify (s : State) (sz : Size) (ea : Ea) : State :=
  match ea with
  | .preDec r => s.setReg r (s.reg r - stepOf sz ea)
  | .postInc r => s.setReg r (s.reg r + stepOf sz ea)
  | .reg _ | .ind _ | .disp8 .. | .disp16 .. | .abs8 _ | .abs16 _ | .imm8 _ | .imm16 _ => s

/-- The address register after a failed access: a drawn value (R147, D14). -/
def State.modifyFailed (s : State) (ea : Ea) : State :=
  match Ea.modified ea with
  | some r => s.drawReg .addressRegister .word r
  | none => s

/-- The operand in the word that was loaded for it: of a byte-size pop, the byte that carries the data
(R113). -/
def operandOf (sz : Size) (ea : Ea) (w : Word) : Word :=
  match sz, accessSize sz ea with
  | .byte, .word => (if Config.stackByteIsUpper then upperByte w else lowerByte w).setWidth 16
  | _, _ => cut sz w

/-- The word that is stored for an operand: in a byte-size push the other byte is drawn (R113). -/
def State.storedWord (s : State) (sz : Size) (ea : Ea) (v : Word) : Word :=
  match sz, accessSize sz ea with
  | .byte, .word =>
    if Config.stackByteIsUpper then lowerByte v ++ lowerByte (s.drawn .otherByte)
    else lowerByte (s.drawn .otherByte) ++ lowerByte v
  | _, _ => v

/-- A value is used up where `storedWord` drew one. -/
def State.tickForStore (s : State) (sz : Size) (ea : Ea) : State :=
  match sz, accessSize sz ea with
  | .byte, .word => s.tick
  | _, _ => s

/-- Reading an operand. -/
def readOperand (sz : Size) (ea : Ea) (s : State) : Host.Outcome Loaded Fault Refusal :=
  match s.place sz ea with
  | .register r => .next ⟨some (s.readReg sz r), s⟩
  | .immediate v => .next ⟨some v, s⟩
  | .memory page off =>
    andThen (load (accessSize sz ea) page off s) fun g =>
    match g.value with
    | some w => .next ⟨some (operandOf sz ea w), g.state.modify sz ea⟩
    | none => .next ⟨none, g.state.modifyFailed ea⟩

/-- Writing an operand; an immediate cannot be a destination (R80). -/
def writeOperand (sz : Size) (ea : Ea) (v : Word) (s : State) : Host.Outcome Stored Fault Refusal :=
  match s.place sz ea with
  | .register r => .next ⟨true, s.writeReg sz r v⟩
  | .immediate _ => .next ⟨true, s⟩
  | .memory page off =>
    andThen (store (accessSize sz ea) page off (s.storedWord sz ea v) (s.tickForStore sz ea)) fun w =>
    if w.made then .next ⟨true, w.state.modify sz ea⟩
    else .next ⟨false, w.state.modifyFailed ea⟩

/-- The length of an instruction of the general format: the EA part and one operation-code byte (R78). -/
def generalLength (ea : Ea) : Nat := ea.length + 1

end Sys2Proof.Machine
end

