-- ==== Sys2Proof/Machine/Arithmetic.lean ====
section
/-! DEFINITION. ADD:G (spec/42_example_and_stack_instructions.md R110) and DIVXU
(spec/40_instruction_exceptions.md R92, R93). The sum and its flags are general knowledge (log entry 11);
the quotient is the open parameter `Divxu`; a zero divisor takes the zero-divide exception. -/

namespace Sys2Proof.Machine

/-- ADD an operand to a register (R110). -/
def addToRegister (sz : Size) (ea : Ea) (d : Reg) (s : State) : Host.Outcome State Fault Refusal :=
  andThen (readOperand sz ea s) fun g =>
  match g.value with
  | some v =>
    .next (((g.state.writeReg sz d (sum sz (g.state.reg d) v)).setSr
      (addFlags sz (g.state.reg d) v g.state.sr)).complete false (generalLength ea))
  | none =>
    .next (((g.state.drawReg .destination sz d).drawFlags .flags).complete false (generalLength ea))

def execAddRnRd (sz : Size) (e d : Reg) (s : State) : Host.Outcome State Fault Refusal :=
  addToRegister sz (.reg e) d s

def execAddIndRd (sz : Size) (e d : Reg) (s : State) : Host.Outcome State Fault Refusal :=
  addToRegister sz (.ind e) d s

def execAddDisp8Rd (sz : Size) (disp : Byte) (e d : Reg) (s : State) : Host.Outcome State Fault Refusal :=
  addToRegister sz (.disp8 disp e) d s

def execAddDisp16Rd (sz : Size) (disp : Word) (e d : Reg) (s : State) : Host.Outcome State Fault Refusal :=
  addToRegister sz (.disp16 disp e) d s

def execAddPreDecRd (sz : Size) (e d : Reg) (s : State) : Host.Outcome State Fault Refusal :=
  addToRegister sz (.preDec e) d s

def execAddPostIncRd (sz : Size) (e d : Reg) (s : State) : Host.Outcome State Fault Refusal :=
  addToRegister sz (.postInc e) d s

def execAddAbs8Rd (sz : Size) (a : Byte) (d : Reg) (s : State) : Host.Outcome State Fault Refusal :=
  addToRegister sz (.abs8 a) d s

def execAddAbs16Rd (sz : Size) (a : Word) (d : Reg) (s : State) : Host.Outcome State Fault Refusal :=
  addToRegister sz (.abs16 a) d s

def execAddImm8Rd (v : Byte) (d : Reg) (s : State) : Host.Outcome State Fault Refusal :=
  addToRegister .byte (.imm8 v) d s

def execAddImm16Rd (v : Word) (d : Reg) (s : State) : Host.Outcome State Fault Refusal :=
  addToRegister .word (.imm16 v) d s

/-- The second register of a DIVXU.W pair: R(d+1) (R93); for R7 it is open (log entry 14). -/
def pairOf : Reg → Reg
  | .r0 => .r1
  | .r1 => .r2
  | .r2 => .r3
  | .r3 => .r4
  | .r4 => .r5
  | .r5 => .r6
  | .r6 => .r7
  | .r7 => Config.pairOfR7

/-- The dividend: the 16-bit Rd, or the 32-bit pair with Rd as its upper word (R92, R93). -/
def State.dividend (s : State) (sz : Size) (d : Reg) : BitVec 32 :=
  match sz with
  | .byte => (s.reg d).setWidth 32
  | .word => s.reg d ++ s.reg (pairOf d)

/-- The destination of DIVXU: all of Rd, for the word size the pair (R92, R93). -/
def State.setDivResult (s : State) (sz : Size) (d : Reg) (r : Config.DivResult) : State :=
  match sz with
  | .byte => s.setReg d r.rd
  | .word => (s.setReg (pairOf d) r.rdNext).setReg d r.rd

/-- The destination takes drawn values (R92, R147). -/
def State.drawDivResult (s : State) (sz : Size) (d : Reg) : State :=
  s.tick.setDivResult sz d ⟨s.drawn .destination, s.drawn .destinationNext, 0⟩

/-- The zero-divisor case of an instruction of `n` bytes (R92): the zero-divide sequence, vector index 3,
pushing the next instruction address; Rd, the saved and the live condition codes are drawn values. -/
def zeroDivide (sz : Size) (d : Reg) (n : Nat) (s : State) : Host.Outcome State Fault Refusal :=
  andThen (exceptionSequence 3 (s.codeAddress n).2 (s.codeAddress n).1 none
    ((s.drawDivResult sz d).drawFlags .flags)) fun t =>
  .next ((t.drawFlags .flagsAfter).finish false)

/-- DIVXU once its divisor is known (R92, R93): the divisor of the instruction's size is compared with 0. -/
def divideBy (sz : Size) (d : Reg) (n : Nat) (divisor : Word) (s : State) : Host.Outcome State Fault Refusal :=
  if cut sz divisor = 0 then zeroDivide sz d n s
  else
    let r := Config.divxu sz (s.dividend sz d) (cut sz divisor)
    .next (((s.setDivResult sz d r).setSr (withFlagBits s.sr r.flags)).complete false n)

/-- DIVXU whose source access failed: the divisor is a drawn value, which may be 0, and every result is
one too (R147, D14). -/
def divideFailed (sz : Size) (d : Reg) (n : Nat) (s : State) : Host.Outcome State Fault Refusal :=
  if cut sz (s.drawn .divisor) = 0 then zeroDivide sz d n s.tick
  else .next (((s.tick.drawDivResult sz d).drawFlags .flags).complete false n)

/-- DIVXU (R92, R93). -/
def divideRegister (sz : Size) (ea : Ea) (d : Reg) (s : State) : Host.Outcome State Fault Refusal :=
  andThen (readOperand sz ea s) fun g =>
  match g.value with
  | some v => divideBy sz d (generalLength ea) v g.state
  | none => divideFailed sz d (generalLength ea) g.state

def execDivxuRnRd (sz : Size) (e d : Reg) (s : State) : Host.Outcome State Fault Refusal :=
  divideRegister sz (.reg e) d s

def execDivxuIndRd (sz : Size) (e d : Reg) (s : State) : Host.Outcome State Fault Refusal :=
  divideRegister sz (.ind e) d s

def execDivxuDisp8Rd (sz : Size) (disp : Byte) (e d : Reg) (s : State) : Host.Outcome State Fault Refusal :=
  divideRegister sz (.disp8 disp e) d s

def execDivxuDisp16Rd (sz : Size) (disp : Word) (e d : Reg) (s : State) : Host.Outcome State Fault Refusal :=
  divideRegister sz (.disp16 disp e) d s

def execDivxuPreDecRd (sz : Size) (e d : Reg) (s : State) : Host.Outcome State Fault Refusal :=
  divideRegister sz (.preDec e) d s

def execDivxuPostIncRd (sz : Size) (e d : Reg) (s : State) : Host.Outcome State Fault Refusal :=
  divideRegister sz (.postInc e) d s

def execDivxuAbs8Rd (sz : Size) (a : Byte) (d : Reg) (s : State) : Host.Outcome State Fault Refusal :=
  divideRegister sz (.abs8 a) d s

def execDivxuAbs16Rd (sz : Size) (a : Word) (d : Reg) (s : State) : Host.Outcome State Fault Refusal :=
  divideRegister sz (.abs16 a) d s

def execDivxuImm8Rd (v : Byte) (d : Reg) (s : State) : Host.Outcome State Fault Refusal :=
  divideRegister .byte (.imm8 v) d s

def execDivxuImm16Rd (v : Word) (d : Reg) (s : State) : Host.Outcome State Fault Refusal :=
  divideRegister .word (.imm16 v) d s

end Sys2Proof.Machine
end

