-- ==== Sys2Proof/Machine/Control.lean ====
section
/-! DEFINITION. LDC, ANDC, ORC and XORC (spec/41_sr_instructions.md R100 to R103): what they compute is
general knowledge (log entry 12), that they defer exceptions for one instruction is the source's
(R160, R161). A control register of the wrong size, or an undefined one, is an illegal
specification and takes the invalid-instruction exception (spec/30_encoding.md R80, R164; log
entry 2). -/

namespace Sys2Proof.Machine

/-- Reading a control register (R100 to R103); the two undefined numbers are illegal before they are read. -/
def State.controlReg (s : State) (c : ControlReg) : Word :=
  match c with
  | .sr => s.sr
  | .ccr => (lowerByte s.sr).setWidth 16
  | .br => s.br.setWidth 16
  | .ep => s.ep.setWidth 16
  | .dp => s.dp.setWidth 16
  | .tp => s.tp.setWidth 16
  | .undefined2 | .undefined6 => 0

/-- Writing a control register (R100): SR whole, CCR the lower byte of SR, a page register, or BR. -/
def State.setControlReg (s : State) (c : ControlReg) (v : Word) : State :=
  match c with
  | .sr => s.setSr (asSr v)
  | .ccr => s.setSr (upperByte s.sr ++ lowerByte (asSr v))
  | .br => { s with br := lowerByte v }
  | .ep => { s with ep := lowerByte v }
  | .dp => { s with dp := lowerByte v }
  | .tp => { s with tp := lowerByte v }
  | .undefined2 | .undefined6 => s

/-- LDC (R100): after a failed access the control register takes a drawn value (R147). -/
def loadControl (sz : Size) (ea : Ea) (c : ControlReg) (s : State) : Host.Outcome State Fault Refusal :=
  if c.fits sz then
    andThen (readOperand sz ea s) fun g =>
    match g.value with
    | some v => .next ((g.state.setControlReg c v).complete true (generalLength ea))
    | none =>
      .next ((g.state.tick.setControlReg c (g.state.drawn .control)).complete true (generalLength ea))
  else invalidInstruction s

/-- A control register replaced by a function of it, by an instruction of `n` bytes (R101 to R103). -/
def combineControl (sz : Size) (n : Nat) (c : ControlReg) (f : Word) (s : State) :
    Host.Outcome State Fault Refusal :=
  if c.fits sz then .next ((s.setControlReg c f).complete true n) else invalidInstruction s

def execLdcRn (sz : Size) (e : Reg) (c : ControlReg) (s : State) : Host.Outcome State Fault Refusal :=
  loadControl sz (.reg e) c s

def execLdcInd (sz : Size) (e : Reg) (c : ControlReg) (s : State) : Host.Outcome State Fault Refusal :=
  loadControl sz (.ind e) c s

def execLdcDisp8 (sz : Size) (disp : Byte) (e : Reg) (c : ControlReg) (s : State) :
    Host.Outcome State Fault Refusal :=
  loadControl sz (.disp8 disp e) c s

def execLdcDisp16 (sz : Size) (disp : Word) (e : Reg) (c : ControlReg) (s : State) :
    Host.Outcome State Fault Refusal :=
  loadControl sz (.disp16 disp e) c s

def execLdcPreDec (sz : Size) (e : Reg) (c : ControlReg) (s : State) : Host.Outcome State Fault Refusal :=
  loadControl sz (.preDec e) c s

def execLdcPostInc (sz : Size) (e : Reg) (c : ControlReg) (s : State) : Host.Outcome State Fault Refusal :=
  loadControl sz (.postInc e) c s

def execLdcAbs8 (sz : Size) (a : Byte) (c : ControlReg) (s : State) : Host.Outcome State Fault Refusal :=
  loadControl sz (.abs8 a) c s

def execLdcAbs16 (sz : Size) (a : Word) (c : ControlReg) (s : State) : Host.Outcome State Fault Refusal :=
  loadControl sz (.abs16 a) c s

def execLdcImm8 (v : Byte) (c : ControlReg) (s : State) : Host.Outcome State Fault Refusal :=
  loadControl .byte (.imm8 v) c s

def execLdcImm16 (v : Word) (c : ControlReg) (s : State) : Host.Outcome State Fault Refusal :=
  loadControl .word (.imm16 v) c s

/-- ANDC.B (R101). -/
def execAndcB (v : Byte) (c : ControlReg) (s : State) : Host.Outcome State Fault Refusal :=
  combineControl .byte 3 c (s.controlReg c &&& v.setWidth 16) s

/-- ANDC.W (R101). -/
def execAndcW (v : Word) (c : ControlReg) (s : State) : Host.Outcome State Fault Refusal :=
  combineControl .word 4 c (s.controlReg c &&& v) s

/-- ORC.B (R102). -/
def execOrcB (v : Byte) (c : ControlReg) (s : State) : Host.Outcome State Fault Refusal :=
  combineControl .byte 3 c (s.controlReg c ||| v.setWidth 16) s

/-- ORC.W (R102). -/
def execOrcW (v : Word) (c : ControlReg) (s : State) : Host.Outcome State Fault Refusal :=
  combineControl .word 4 c (s.controlReg c ||| v) s

/-- XORC.B (R103). -/
def execXorcB (v : Byte) (c : ControlReg) (s : State) : Host.Outcome State Fault Refusal :=
  combineControl .byte 3 c (s.controlReg c ^^^ v.setWidth 16) s

/-- XORC.W (R103). -/
def execXorcW (v : Word) (c : ControlReg) (s : State) : Host.Outcome State Fault Refusal :=
  combineControl .word 4 c (s.controlReg c ^^^ v) s

end Sys2Proof.Machine
end

