-- ==== Sys2Proof/Machine/Move.lean ====
section
/-! DEFINITION. MOV:G and MOV:I (spec/42_example_and_stack_instructions.md R111 to R113). The move itself,
its flags and its byte size are general knowledge (log entries 10, 11). After a failed access every
result is a drawn value (spec/60_exceptions.md R147, D14). -/

namespace Sys2Proof.Machine

/-- MOV from an operand to a register (R111). -/
def moveToRegister (sz : Size) (ea : Ea) (d : Reg) (s : State) : Host.Outcome State Fault Refusal :=
  andThen (readOperand sz ea s) fun g =>
  match g.value with
  | some v =>
    .next (((g.state.writeReg sz d v).setSr (moveFlags sz v g.state.sr)).complete false (generalLength ea))
  | none =>
    .next (((g.state.drawReg .destination sz d).drawFlags .flags).complete false (generalLength ea))

/-- MOV from a register to an operand (R111); the value is read before the address register changes
(R112: the pushed value is an argument of the push). -/
def moveFromRegister (sz : Size) (ea : Ea) (r : Reg) (s : State) : Host.Outcome State Fault Refusal :=
  andThen (writeOperand sz ea (s.readReg sz r) s) fun w =>
  if w.made then
    .next ((w.state.setSr (moveFlags sz (s.readReg sz r) w.state.sr)).complete false (generalLength ea))
  else
    .next ((w.state.drawFlags .flags).complete false (generalLength ea))

def execMovRnRd (sz : Size) (e d : Reg) (s : State) : Host.Outcome State Fault Refusal :=
  moveToRegister sz (.reg e) d s

def execMovIndRd (sz : Size) (e d : Reg) (s : State) : Host.Outcome State Fault Refusal :=
  moveToRegister sz (.ind e) d s

def execMovDisp8Rd (sz : Size) (disp : Byte) (e d : Reg) (s : State) : Host.Outcome State Fault Refusal :=
  moveToRegister sz (.disp8 disp e) d s

def execMovDisp16Rd (sz : Size) (disp : Word) (e d : Reg) (s : State) : Host.Outcome State Fault Refusal :=
  moveToRegister sz (.disp16 disp e) d s

def execMovPreDecRd (sz : Size) (e d : Reg) (s : State) : Host.Outcome State Fault Refusal :=
  moveToRegister sz (.preDec e) d s

def execMovPostIncRd (sz : Size) (e d : Reg) (s : State) : Host.Outcome State Fault Refusal :=
  moveToRegister sz (.postInc e) d s

def execMovAbs8Rd (sz : Size) (a : Byte) (d : Reg) (s : State) : Host.Outcome State Fault Refusal :=
  moveToRegister sz (.abs8 a) d s

def execMovAbs16Rd (sz : Size) (a : Word) (d : Reg) (s : State) : Host.Outcome State Fault Refusal :=
  moveToRegister sz (.abs16 a) d s

def execMovImm8Rd (v : Byte) (d : Reg) (s : State) : Host.Outcome State Fault Refusal :=
  moveToRegister .byte (.imm8 v) d s

def execMovImm16Rd (v : Word) (d : Reg) (s : State) : Host.Outcome State Fault Refusal :=
  moveToRegister .word (.imm16 v) d s

def execMovRsRn (sz : Size) (e r : Reg) (s : State) : Host.Outcome State Fault Refusal :=
  moveFromRegister sz (.reg e) r s

def execMovRsInd (sz : Size) (e r : Reg) (s : State) : Host.Outcome State Fault Refusal :=
  moveFromRegister sz (.ind e) r s

def execMovRsDisp8 (sz : Size) (disp : Byte) (e r : Reg) (s : State) : Host.Outcome State Fault Refusal :=
  moveFromRegister sz (.disp8 disp e) r s

def execMovRsDisp16 (sz : Size) (disp : Word) (e r : Reg) (s : State) : Host.Outcome State Fault Refusal :=
  moveFromRegister sz (.disp16 disp e) r s

def execMovRsPreDec (sz : Size) (e r : Reg) (s : State) : Host.Outcome State Fault Refusal :=
  moveFromRegister sz (.preDec e) r s

def execMovRsPostInc (sz : Size) (e r : Reg) (s : State) : Host.Outcome State Fault Refusal :=
  moveFromRegister sz (.postInc e) r s

def execMovRsAbs8 (sz : Size) (a : Byte) (r : Reg) (s : State) : Host.Outcome State Fault Refusal :=
  moveFromRegister sz (.abs8 a) r s

def execMovRsAbs16 (sz : Size) (a : Word) (r : Reg) (s : State) : Host.Outcome State Fault Refusal :=
  moveFromRegister sz (.abs16 a) r s

/-- MOV:I.W, three bytes (R81, R111). -/
def execMovI (v : Word) (d : Reg) (s : State) : Host.Outcome State Fault Refusal :=
  .next (((s.setReg d v).setSr (moveFlags .word v s.sr)).complete false 3)

end Sys2Proof.Machine
end

