-- ==== Sys2Proof/Machine/Trap.lean ====
section
/-! DEFINITION. TRAPA and TRAP/VS (spec/40_instruction_exceptions.md R90, R91), RTE
(spec/41_sr_instructions.md R104) and NOP (spec/42_example_and_stack_instructions.md R116). -/

namespace Sys2Proof.Machine

/-- The sequence of a trap instruction of `n` bytes, which pushes the next instruction address (R90,
R91, R171). -/
def trap (index : BitVec 6) (n : Nat) (s : State) : Host.Outcome State Fault Refusal :=
  andThen (exceptionSequence index (s.codeAddress n).2 (s.codeAddress n).1 none s) fun t =>
  .next (t.finish false)

/-- TRAPA #v: vector index 16 + v (R90, R128). -/
def execTrapa (v : BitVec 4) (s : State) : Host.Outcome State Fault Refusal :=
  trap (16 + v.setWidth 6) 2 s

/-- TRAP/VS: vector index 4 if V = 1, else the next instruction (R91). -/
def execTrapVs (s : State) : Host.Outcome State Fault Refusal :=
  if overflowOf s.sr then trap 4 1 s else .next (s.complete false 1)

/-- RTE: one of the five that defer (R104, R161). -/
def execRte (s : State) : Host.Outcome State Fault Refusal :=
  andThen (returnFromException s) fun t => .next (t.finish true)

/-- NOP (R116). -/
def execNop (s : State) : Host.Outcome State Fault Refusal := .next (s.complete false 1)

end Sys2Proof.Machine
end

