-- ==== Sys2Proof/Machine/Dispatch.lean ====
section
/-! DEFINITION. One arm for each instruction of spec/opcode_table.json, in the table's order. -/

namespace Sys2Proof.Machine

def exec (i : Instr) (s : State) : Host.Outcome State Fault Refusal :=
  match i with
  | .movRnRd sz e d => Sys2Proof.Machine.execMovRnRd sz e d s
  | .movIndRd sz e d => Sys2Proof.Machine.execMovIndRd sz e d s
  | .movDisp8Rd sz disp e d => Sys2Proof.Machine.execMovDisp8Rd sz disp e d s
  | .movDisp16Rd sz disp e d => Sys2Proof.Machine.execMovDisp16Rd sz disp e d s
  | .movPreDecRd sz e d => Sys2Proof.Machine.execMovPreDecRd sz e d s
  | .movPostIncRd sz e d => Sys2Proof.Machine.execMovPostIncRd sz e d s
  | .movAbs8Rd sz a d => Sys2Proof.Machine.execMovAbs8Rd sz a d s
  | .movAbs16Rd sz a d => Sys2Proof.Machine.execMovAbs16Rd sz a d s
  | .movImm8Rd v d => Sys2Proof.Machine.execMovImm8Rd v d s
  | .movImm16Rd v d => Sys2Proof.Machine.execMovImm16Rd v d s
  | .movRsRn sz e r => Sys2Proof.Machine.execMovRsRn sz e r s
  | .movRsInd sz e r => Sys2Proof.Machine.execMovRsInd sz e r s
  | .movRsDisp8 sz disp e r => Sys2Proof.Machine.execMovRsDisp8 sz disp e r s
  | .movRsDisp16 sz disp e r => Sys2Proof.Machine.execMovRsDisp16 sz disp e r s
  | .movRsPreDec sz e r => Sys2Proof.Machine.execMovRsPreDec sz e r s
  | .movRsPostInc sz e r => Sys2Proof.Machine.execMovRsPostInc sz e r s
  | .movRsAbs8 sz a r => Sys2Proof.Machine.execMovRsAbs8 sz a r s
  | .movRsAbs16 sz a r => Sys2Proof.Machine.execMovRsAbs16 sz a r s
  | .addRnRd sz e d => Sys2Proof.Machine.execAddRnRd sz e d s
  | .addIndRd sz e d => Sys2Proof.Machine.execAddIndRd sz e d s
  | .addDisp8Rd sz disp e d => Sys2Proof.Machine.execAddDisp8Rd sz disp e d s
  | .addDisp16Rd sz disp e d => Sys2Proof.Machine.execAddDisp16Rd sz disp e d s
  | .addPreDecRd sz e d => Sys2Proof.Machine.execAddPreDecRd sz e d s
  | .addPostIncRd sz e d => Sys2Proof.Machine.execAddPostIncRd sz e d s
  | .addAbs8Rd sz a d => Sys2Proof.Machine.execAddAbs8Rd sz a d s
  | .addAbs16Rd sz a d => Sys2Proof.Machine.execAddAbs16Rd sz a d s
  | .addImm8Rd v d => Sys2Proof.Machine.execAddImm8Rd v d s
  | .addImm16Rd v d => Sys2Proof.Machine.execAddImm16Rd v d s
  | .divxuRnRd sz e d => Sys2Proof.Machine.execDivxuRnRd sz e d s
  | .divxuIndRd sz e d => Sys2Proof.Machine.execDivxuIndRd sz e d s
  | .divxuDisp8Rd sz disp e d => Sys2Proof.Machine.execDivxuDisp8Rd sz disp e d s
  | .divxuDisp16Rd sz disp e d => Sys2Proof.Machine.execDivxuDisp16Rd sz disp e d s
  | .divxuPreDecRd sz e d => Sys2Proof.Machine.execDivxuPreDecRd sz e d s
  | .divxuPostIncRd sz e d => Sys2Proof.Machine.execDivxuPostIncRd sz e d s
  | .divxuAbs8Rd sz a d => Sys2Proof.Machine.execDivxuAbs8Rd sz a d s
  | .divxuAbs16Rd sz a d => Sys2Proof.Machine.execDivxuAbs16Rd sz a d s
  | .divxuImm8Rd v d => Sys2Proof.Machine.execDivxuImm8Rd v d s
  | .divxuImm16Rd v d => Sys2Proof.Machine.execDivxuImm16Rd v d s
  | .ldcRn sz e c => Sys2Proof.Machine.execLdcRn sz e c s
  | .ldcInd sz e c => Sys2Proof.Machine.execLdcInd sz e c s
  | .ldcDisp8 sz disp e c => Sys2Proof.Machine.execLdcDisp8 sz disp e c s
  | .ldcDisp16 sz disp e c => Sys2Proof.Machine.execLdcDisp16 sz disp e c s
  | .ldcPreDec sz e c => Sys2Proof.Machine.execLdcPreDec sz e c s
  | .ldcPostInc sz e c => Sys2Proof.Machine.execLdcPostInc sz e c s
  | .ldcAbs8 sz a c => Sys2Proof.Machine.execLdcAbs8 sz a c s
  | .ldcAbs16 sz a c => Sys2Proof.Machine.execLdcAbs16 sz a c s
  | .ldcImm8 v c => Sys2Proof.Machine.execLdcImm8 v c s
  | .ldcImm16 v c => Sys2Proof.Machine.execLdcImm16 v c s
  | .andcB v c => Sys2Proof.Machine.execAndcB v c s
  | .andcW v c => Sys2Proof.Machine.execAndcW v c s
  | .orcB v c => Sys2Proof.Machine.execOrcB v c s
  | .orcW v c => Sys2Proof.Machine.execOrcW v c s
  | .xorcB v c => Sys2Proof.Machine.execXorcB v c s
  | .xorcW v c => Sys2Proof.Machine.execXorcW v c s
  | .trapa v => Sys2Proof.Machine.execTrapa v s
  | .trapVs => Sys2Proof.Machine.execTrapVs s
  | .rte => Sys2Proof.Machine.execRte s
  | .movI v d => Sys2Proof.Machine.execMovI v d s
  | .nop => Sys2Proof.Machine.execNop s

end Sys2Proof.Machine
end

