-- ==== Sys2Proof/Machine/Step.lean ====
section
/-! DEFINITION. One step of the machine (spec/60_exceptions.md R177, split as its note (e) allows). -/

namespace Sys2Proof.Machine

/-- One instruction: fetched and executed, blocked, or the exception of `Invalid` (R177 step 2). -/
def instructionStep (s : State) : Host.Outcome State Fault Refusal :=
  andThen (fetch s) fun f =>
  match f with
  | .blocked => .next s.fetchBlocked
  | .run i t => exec i t
  | .invalid t => invalidInstruction t

/-- What the action of a step does. -/
def perform (a : Action) (s : State) : Host.Outcome State Fault Refusal :=
  match a with
  | .halted => .next s
  | .reset => resetSequence s
  | .dtc k => s.dtcCycle k
  | .abandonDtc k => s.abandonDtc k
  | .addressError => addressErrorSequence s
  | .trace => traceSequence s
  | .accept src => acceptRequest src s
  | .instruction => instructionStep s

/-- One step: what the outside world does first, then what the machine does next. -/
def step (s : State) : Host.Outcome State Fault Refusal :=
  perform s.applyEnvironment.nextAction s.applyEnvironment

/-- `s` with an instruction of the opcode table stored where `step` fetches its next instruction, zero
bytes after it, and with what would keep the very next step from running it taken away: coming acts of
the outside world, the reset state, a data transfer cycle under way, exceptions that would be taken
first, earlier stores to the code, and rows of `Decode` beside the table's (log entry 17). -/
def State.withFetchWord (s : State) (nbits w : Nat) : State :=
  let t := { s with
    env := [], inReset := false, resHigh := true, dtcActive := none, stale := [], cfg := { s.cfg with codes := [] } }
  { t with
    mem := t.placeCode (tableBytes nbits w) 0 t.mem
    defer := t.defer || decide (t.nextAction ≠ .instruction) }

end Sys2Proof.Machine
end

