-- ==== Sys2Proof/Safety.lean ====
section
/-! DEFINITION. The terms that claims about the machine use: reading one byte, operands that can be accessed,
a stack and a vector entry that are ready for a sequence (spec/70_reset_and_hazards.md R207), what a
sequence leaves (spec/60_exceptions.md R124 to R131), the five deferring instructions, safe runs, and
the machine's invariant. No step uses them. -/

namespace Sys2Proof

/-- One of XORC, ORC, ANDC, LDC, RTE (R161). -/
def Instr.isFive : Instr → Bool
  | .ldcRn .. | .ldcInd .. | .ldcDisp8 .. | .ldcDisp16 .. | .ldcPreDec .. | .ldcPostInc ..
  | .ldcAbs8 .. | .ldcAbs16 .. | .ldcImm8 .. | .ldcImm16 ..
  | .andcB .. | .andcW .. | .orcB .. | .orcW .. | .xorcB .. | .xorcW .. | .rte => true
  | .movRnRd .. | .movIndRd .. | .movDisp8Rd .. | .movDisp16Rd .. | .movPreDecRd ..
  | .movPostIncRd .. | .movAbs8Rd .. | .movAbs16Rd .. | .movImm8Rd .. | .movImm16Rd ..
  | .movRsRn .. | .movRsInd .. | .movRsDisp8 .. | .movRsDisp16 .. | .movRsPreDec ..
  | .movRsPostInc .. | .movRsAbs8 .. | .movRsAbs16 ..
  | .addRnRd .. | .addIndRd .. | .addDisp8Rd .. | .addDisp16Rd .. | .addPreDecRd ..
  | .addPostIncRd .. | .addAbs8Rd .. | .addAbs16Rd .. | .addImm8Rd .. | .addImm16Rd ..
  | .divxuRnRd .. | .divxuIndRd .. | .divxuDisp8Rd .. | .divxuDisp16Rd .. | .divxuPreDecRd ..
  | .divxuPostIncRd .. | .divxuAbs8Rd .. | .divxuAbs16Rd .. | .divxuImm8Rd .. | .divxuImm16Rd ..
  | .trapa .. | .trapVs | .movI .. | .nop => false

/-- The immediate forms have one size each (R79). -/
def Ea.takesSize : Ea → Size → Bool
  | .imm8 _, .byte => true
  | .imm8 _, .word => false
  | .imm16 _, .word => true
  | .imm16 _, .byte => false
  | .reg _, _ | .ind _, _ | .disp8 .., _ | .disp16 .., _ | .preDec _, _ | .postInc _, _
  | .abs8 _, _ | .abs16 _, _ => true

namespace Machine

/-! ### Memory as software sees it -/

/-- The address is a byte of storage that can be read. -/
def State.readableAt (s : State) (page : Byte) (off : Word) : Bool :=
  match s.region page off with
  | .cell _ | .rom _ => true
  | .register _ | .vacant | .error _ | .absent | .disabled _ => false

/-- The address is a byte of storage that a store changes. -/
def State.writableAt (s : State) (page : Byte) (off : Word) : Bool :=
  match s.region page off with
  | .cell _ => true
  | .rom _ | .register _ | .vacant | .error _ | .absent | .disabled _ => false

/-- Reading one byte of storage. -/
def State.byteAt (s : State) (page : Byte) (off : Word) : Byte :=
  match s.region page off with
  | .cell k | .rom k => memRead s.mem k
  | .register _ | .vacant | .error _ | .absent | .disabled _ => unlisted

/-- Reading a word: upper byte at the lower address (R46). -/
def State.wordAt (s : State) (page : Byte) (off : Word) : Word :=
  wordOfBytes (s.byteAt page off) (s.byteAt page (off + 1))

/-- Reading a value of a size. -/
def State.valueAt (s : State) (sz : Size) (page : Byte) (off : Word) : Word :=
  match sz with
  | .byte => (s.byteAt page off).setWidth 16
  | .word => s.wordAt page off

/-- A load of a size reads storage, a word at an even address (R48). -/
def State.readableFor (s : State) (sz : Size) (page : Byte) (off : Word) : Bool :=
  match sz with
  | .byte => s.readableAt page off
  | .word => !isOdd off && s.readableAt page off && s.readableAt page (off + 1)

/-- A store of a size changes storage, a word at an even address (R48). -/
def State.writableFor (s : State) (sz : Size) (page : Byte) (off : Word) : Bool :=
  match sz with
  | .byte => s.writableAt page off
  | .word => !isOdd off && s.writableAt page off && s.writableAt page (off + 1)

/-- The operand of a form can be read. -/
def State.operandReadable (s : State) (sz : Size) (ea : Ea) : Bool :=
  match s.place sz ea with
  | .register _ | .immediate _ => true
  | .memory page off => s.readableFor (accessSize sz ea) page off

/-- The operand of a form can be written. -/
def State.operandWritable (s : State) (sz : Size) (ea : Ea) : Bool :=
  match s.place sz ea with
  | .register _ => true
  | .immediate _ => false
  | .memory page off => s.writableFor (accessSize sz ea) page off

/-- An access to the address, load or store, is made and raises no address error. -/
def State.acceptsAt (s : State) (page : Byte) (off : Word) : Bool :=
  match s.region page off with
  | .cell _ | .rom _ | .register _ | .vacant => true
  | .error _ | .absent | .disabled _ => false

/-- An access of a size is made and raises no address error. -/
def State.acceptsFor (s : State) (sz : Size) (page : Byte) (off : Word) : Bool :=
  match sz with
  | .byte => s.acceptsAt page off
  | .word => !isOdd off && s.acceptsAt page off && s.acceptsAt page (off + 1)

/-- The access that an operand form makes, if any, is made and raises no address error. -/
def State.operandAccepted (s : State) (sz : Size) (ea : Ea) : Bool :=
  match s.place sz ea with
  | .register _ | .immediate _ => true
  | .memory page off => s.acceptsFor (accessSize sz ea) page off

/-- The value of an operand that can be read. -/
def State.operandValue (s : State) (sz : Size) (ea : Ea) : Word :=
  match s.place sz ea with
  | .register r => s.readReg sz r
  | .immediate v => v
  | .memory page off => operandOf sz ea (s.valueAt (accessSize sz ea) page off)

/-- An address lies outside the bytes of an access of a size. -/
def State.outside (s : State) (sz : Size) (page : Byte) (off : Word) (p : Byte) (o : Word) : Prop :=
  s.busAddress p o ≠ s.busAddress page off ∧
  (sz = .word → s.busAddress p o ≠ s.busAddress page (off + 1))

/-! ### The register field -/

/-- A byte shows every named field of an offset of the register field that lies within the byte and
overlaps no other. -/
def State.byteShows (s : State) (o : BitVec 7) (b : Byte) : Prop :=
  ∀ f ∈ s.fieldsAt o, f.lo + f.width ≤ 8 →
    (∀ g ∈ s.fieldsAt o, g = f ∨ g.lo + g.width ≤ f.lo ∨ f.lo + f.width ≤ g.lo) →
    ∀ i, i < f.width → b.getLsbD (f.lo + i) = f.value.getLsbD i

/-- A value of a size shows the named fields of the byte or the two bytes it was loaded from. -/
def State.valueShows (s : State) (sz : Size) (o : BitVec 7) (w : Word) : Prop :=
  match sz with
  | .byte => s.byteShows o (lowerByte w)
  | .word => s.byteShows o (upperByte w) ∧ s.byteShows (o + 1) (lowerByte w)

/-- The byte that storing a value of a size at offset `o` of the register field puts at offset `q`, if it
reaches it. -/
def storedAt (sz : Size) (o : BitVec 7) (v : Word) (q : BitVec 7) : Option Byte :=
  match sz with
  | .byte => if q = o then some (lowerByte v) else none
  | .word => if q = o then some (upperByte v) else if q = o + 1 then some (lowerByte v) else none

/-- The address of an offset of the register field. -/
def fieldAddress (o : BitVec 7) : Nat := 0xFF80 + o.toNat

/-! ### Accesses of the DTC -/

/-- What lies at the address of an access. -/
def State.accessRegion (s : State) (a : BusAccess) : Region :=
  match a with
  | .read page off | .write page off _ => s.region page off

/-- The model admits the access whatever RAME is: there is memory, or something else that answers (R62, U14). -/
def State.admits (s : State) (a : BusAccess) : Prop :=
  ∀ b, State.accessRegion { s with rame := b } a ≠ .absent ∧
    ∀ k, State.accessRegion { s with rame := b } a ≠ .disabled k

/-- The byte that an access puts at a bus address, if it writes there. -/
def State.written (s : State) (a : BusAccess) (addr : Nat) : Option Byte :=
  match a with
  | .read _ _ => none
  | .write page off v => if s.busAddress page off = addr then some v else none

/-- The byte that the last write among some accesses to a bus address puts there, if one goes there. -/
def State.lastWrite (s : State) : List BusAccess → Nat → Option Byte
  | [], _ => none
  | a :: as, addr =>
    match s.lastWrite as addr with
    | some b => some b
    | none => s.written a addr

/-- What some accesses of the DTC leave. The last write to the register of a control field sets that field
(MDS, which R22 leaves open, is not said). The last write to a byte of storage leaves its value there, and
a byte to which none goes is as it was; these two for the on-chip RAM area only where RAMCR is not
written. -/
structure AccessesMade (as : List BusAccess) (s t : State) : Prop where
  rame : t.rame = (match s.lastWrite as (fieldAddress s.cfg.registers.ramcr) with
    | some b => b.getLsbD s.cfg.registers.rameBit
    | none => s.rame)
  level : ∀ j, t.level.get j =
    match s.lastWrite as (fieldAddress (s.cfg.registers.ipr.get (s.cfg.registers.levelAt.get j).1)) with
    | some b => b.extractLsb' (s.cfg.registers.levelAt.get j).2 3
    | none => s.level.get j
  dte : ∀ j, t.dte.get j =
    match s.lastWrite as (fieldAddress (s.cfg.registers.dte.get (s.cfg.registers.dteAt.get j).1)) with
    | some b => b.getLsbD (s.cfg.registers.dteAt.get j).2
    | none => s.dte.get j
  mds : s.lastWrite as (fieldAddress s.cfg.registers.mdcr) = none → t.mds = s.mds
  bytes : ∀ p o, s.lastWrite as (fieldAddress s.cfg.registers.ramcr) = none ∨
      ¬(0xFB80 ≤ s.busAddress p o ∧ s.busAddress p o ≤ 0xFF7F) →
    (s.lastWrite as (s.busAddress p o) = none → t.byteAt p o = s.byteAt p o) ∧
    (∀ v, s.lastWrite as (s.busAddress p o) = some v → s.writableAt p o = true → Memory.wf s.mem = true →
      t.byteAt p o = v)

/-! ### Code -/

/-- The bytes lie in storage from CP:PC on. -/
def State.holdsCode (s : State) (bs : List Byte) : Prop :=
  ∀ n (h : n < bs.length), ∃ k, (s.codeRegion n = .cell k ∨ s.codeRegion n = .rom k) ∧ memRead s.mem k = bs[n]

/-- No row beside the spec's own speaks of bytes that begin like these. -/
def Config.CodeRow.leaves (rows : List Config.CodeRow) (bs : List Byte) : Prop :=
  ∀ r ∈ rows, r.code ≠ [] → ∀ rest, ¬ r.code <+: bs ++ rest

/-- An instruction may not be fetched here: the register field, and in single-chip mode what lies off the
chip and the disabled RAM area (R141, R144, R145). -/
def State.fetchForbidden (s : State) : Prop :=
  let a := s.busAddress s.cp s.pc
  (0xFF80 ≤ a ∧ a ≤ 0xFFFF) ∨
  (s.mode.singleChip = true ∧ 0x8000 ≤ a ∧ a ≤ 0xFB7F) ∨
  (s.mode.singleChip = true ∧ s.rame = false ∧ 0xFB80 ≤ a ∧ a ≤ 0xFF7F)

/-! ### Sequences -/

/-- The bytes of a frame (R125). -/
def State.frameBytes (s : State) : Nat :=
  match s.mode.cpu with
  | .minimum => 4
  | .maximum => 6

/-- SP is even and the bytes of a frame below it can be written (R207 item 3). -/
def State.stackReady (s : State) : Bool :=
  !isOdd s.sp &&
  (List.range s.frameBytes).all fun k => s.writableAt s.tp (s.sp - BitVec.ofNat 16 (k + 1))

/-- SP is even and the bytes of a frame from it up can be read. -/
def State.frameReady (s : State) : Bool :=
  !isOdd s.sp &&
  (List.range s.frameBytes).all fun k => s.readableAt s.tp (s.sp + BitVec.ofNat 16 k)

/-- The address of a vector entry in page 0 (R127). -/
def State.vectorAddress (s : State) (index : BitVec 6) : Word :=
  match s.mode.cpu with
  | .minimum => index.setWidth 16 * 2
  | .maximum => index.setWidth 16 * 4

/-- The bytes of a vector entry that are fetched can be read (R129). -/
def State.vectorReady (s : State) (index : BitVec 6) : Bool :=
  match s.mode.cpu with
  | .minimum => s.readableFor .word 0 (s.vectorAddress index)
  | .maximum => s.readableAt 0 (s.vectorAddress index + 1) && s.readableFor .word 0 (s.vectorAddress index + 2)

/-- What a sequence leaves on the stack: SR as it was, and the pushed address (R125, R126). -/
structure Framed (pushedPc : Word) (pushedCp : Byte) (sr : Word) (s t : State) : Prop where
  minimum : s.mode.cpu = .minimum →
    t.sp = s.sp - 4 ∧ t.wordAt s.tp t.sp = sr ∧ t.wordAt s.tp (t.sp + 2) = pushedPc
  maximum : s.mode.cpu = .maximum →
    t.sp = s.sp - 6 ∧ t.wordAt s.tp t.sp = sr ∧ t.byteAt s.tp (t.sp + 3) = pushedCp ∧
    t.wordAt s.tp (t.sp + 4) = pushedPc

/-- Where a sequence branches to (R129): in minimum mode CP is not touched (R13). -/
structure Vectored (index : BitVec 6) (s t : State) : Prop where
  minimum : s.mode.cpu = .minimum → t.pc = t.wordAt 0 (s.vectorAddress index) ∧ t.cp = s.cp
  maximum : s.mode.cpu = .maximum →
    t.cp = t.byteAt 0 (s.vectorAddress index + 1) ∧ t.pc = t.wordAt 0 (s.vectorAddress index + 2)

/-- What a sequence does to SR: T cleared, the mask level as given or unchanged, every other bit
unchanged (R126). -/
structure Masked (newMask : Option (BitVec 3)) (sr sr' : Word) : Prop where
  trace : traceOf sr' = false
  mask : maskOf sr' = newMask.getD (maskOf sr)
  rest : ∀ i, i ≠ 15 → i ≠ 8 → i ≠ 9 → i ≠ 10 → sr'.getLsbD i = sr.getLsbD i

/-- What nothing but a reset, a store to the register field, an LDC, or a change of the pending set
touches, and a sequence leaves alone (R124: "Nothing else is saved or changed"). -/
structure Untouched (s t : State) : Prop where
  tp : t.tp = s.tp
  dp : t.dp = s.dp
  ep : t.ep = s.ep
  br : t.br = s.br
  mds : t.mds = s.mds
  rame : t.rame = s.rame
  level : t.level = s.level
  dte : t.dte = s.dte
  mode : t.mode = s.mode
  nmiPending : t.nmiPending = s.nmiPending
  pending : t.pending = s.pending
  dtcActive : t.dtcActive = s.dtcActive
  inReset : t.inReset = s.inReset
  resHigh : t.resHigh = s.resHigh
  modePins : t.modePins = s.modePins
  cfg : t.cfg = s.cfg

/-- All that an exception sequence does from `s` to `t` (R124 to R131). -/
structure Entered (index : BitVec 6) (pushedPc : Word) (pushedCp : Byte) (newMask : Option (BitVec 3))
    (s t : State) : Prop where
  frame : Framed pushedPc pushedCp s.sr s t
  vector : Vectored index s t
  status : Masked newMask s.sr t.sr
  registers : ∀ r, r ≠ .r7 → t.reg r = s.reg r
  memory : ∀ p o, (∀ k, k < s.frameBytes → s.busAddress p o ≠ s.busAddress s.tp (s.sp - BitVec.ofNat 16 (k + 1))) →
    t.byteAt p o = s.byteAt p o
  untouched : Untouched s t

/-- PC is the address after an instruction of `n` bytes; CP does not change but for an instruction that
runs over the top of a page in maximum mode, where the spec is silent (R170, N6). -/
structure Advanced (n : Nat) (s t : State) : Prop where
  pc : t.pc = s.pc + BitVec.ofNat 16 n
  cp : s.mode.cpu = .minimum ∨ s.pc.toNat + n < 65536 → t.cp = s.cp

/-- The CPU is running and the outside world does nothing before this step. -/
def State.running (s : State) : Prop := s.env = [] ∧ s.inReset = false ∧ s.dtcActive = none

/-- The boundary checks are made at this step and neither an address error nor a trace exception is
due, so that an interrupt can be accepted (R121, R160). -/
def State.openToInterrupts (s : State) : Prop :=
  s.running ∧ s.defer = false ∧ s.addrErrPending = false ∧ (traceOf s.sr = false ∨ s.lastWasInstruction = false)

/-- What a control register holds after a value is loaded into it (R17, R80, R100). -/
def controlValue (c : ControlReg) (v : Word) : Word :=
  match c with
  | .sr => asSr v
  | .ccr => v &&& 0x0F
  | .br | .ep | .dp | .tp => (lowerByte v).setWidth 16
  | .undefined2 | .undefined6 => 0

/-- The control registers other than `c` are unchanged; of SR, loading CCR keeps the upper byte. -/
structure OtherControlKept (c : ControlReg) (s t : State) : Prop where
  sr : c ≠ .sr → upperByte t.sr = upperByte s.sr
  ccr : c ≠ .sr → c ≠ .ccr → t.sr = s.sr
  br : c ≠ .br → t.br = s.br
  ep : c ≠ .ep → t.ep = s.ep
  dp : c ≠ .dp → t.dp = s.dp
  tp : c ≠ .tp → t.tp = s.tp

/-- What ANDC, ORC and XORC change, from `s` to `t`: the control register `c`, which holds `v` as far as it has
bits, PC, and the two flags that every instruction leaves at its end (R101 to R103, R161, R177). All else
is as it was. -/
structure ControlCombined (c : ControlReg) (v : Word) (n : Nat) (s t : State) : Prop where
  result : t.controlReg c = controlValue c v
  control : OtherControlKept c s t
  registers : t.regs = s.regs
  memory : t.mem = s.mem
  advanced : Advanced n s t
  defer : t.defer = true
  lastWasInstruction : t.lastWasInstruction = true
  errorPending : t.addrErrPending = s.addrErrPending
  mds : t.mds = s.mds
  rame : t.rame = s.rame
  level : t.level = s.level
  dte : t.dte = s.dte
  mode : t.mode = s.mode
  nmiPending : t.nmiPending = s.nmiPending
  pending : t.pending = s.pending
  dtcActive : t.dtcActive = s.dtcActive
  inReset : t.inReset = s.inReset
  resHigh : t.resHigh = s.resHigh
  modePins : t.modePins = s.modePins
  cfg : t.cfg = s.cfg

/-! ### DIVXU -/

/-- What DIVXU by a divisor `v` other than 0 leaves (R92, R93; log entries 13 and 14): the open result
`Divxu` of size, dividend and divisor in Rd, for the word size its pair, and the condition codes; every
other register as the operand form leaves it; SR's other bits, memory and a pending address error as they
were. -/
structure Divided (sz : Size) (ea : Ea) (d : Reg) (v : Word) (s t : State) : Prop where
  result : t.reg d = (Config.divxu sz ((s.modify sz ea).dividend sz d) (cut sz v)).rd
  second : sz = .word → pairOf d ≠ d →
    t.reg (pairOf d) = (Config.divxu sz ((s.modify sz ea).dividend sz d) (cut sz v)).rdNext
  others : ∀ r, r ≠ d → (sz = .word → r ≠ pairOf d) → t.reg r = (s.modify sz ea).reg r
  flags : negativeOf t.sr = (Config.divxu sz ((s.modify sz ea).dividend sz d) (cut sz v)).flags.getLsbD 3 ∧
    zeroOf t.sr = (Config.divxu sz ((s.modify sz ea).dividend sz d) (cut sz v)).flags.getLsbD 2 ∧
    overflowOf t.sr = (Config.divxu sz ((s.modify sz ea).dividend sz d) (cut sz v)).flags.getLsbD 1 ∧
    carryOf t.sr = (Config.divxu sz ((s.modify sz ea).dividend sz d) (cut sz v)).flags.getLsbD 0
  status : ∀ i, 4 ≤ i → t.sr.getLsbD i = s.sr.getLsbD i
  advanced : Advanced (generalLength ea) s t
  defer : t.defer = false
  memory : t.mem = s.mem
  errorPending : t.addrErrPending = s.addrErrPending

/-! ### Runs -/

/-- `n` steps of the machine, all of which answer a next state. -/
def runs : Nat → State → Option State
  | 0, s => some s
  | n + 1, s =>
    match step s with
    | .next t => runs n t
    | .fault _ | .refused _ => none

/-- A run of `n` steps is safe if none of them ends in a fault or a refusal. -/
def SafeFor (n : Nat) (s : State) : Prop := (runs n s).isSome = true

/-- No storage byte lies in the register field (R53). -/
def Memory.noRegisterField (m : List Host.Cell) : Prop := ∀ a, 0xFF80 ≤ a → a ≤ 0xFFFF → memRead m a = unlisted

/-- The machine's invariant: memory in canonical form with nothing in the register field, reserved bits of
SR reading as 0 (R17), no detected address error between instructions, in the reset state no pending
address error and no data transfer cycle (R200), and parameters that the spec allows (R44, R153). -/
structure State.Inv (s : State) : Prop where
  memory : Memory.wf s.mem = true
  registerField : Memory.noRegisterField s.mem
  status : asSr s.sr = s.sr
  detected : s.addrErrDetected = false
  halted : s.inReset = true → s.addrErrPending = false ∧ s.dtcActive = none
  parameters : s.cfg.legal

end Machine

end Sys2Proof
end

