-- ==== Sys2Proof/Certificates/Slice0/Obligations.lean ====
section
/-! DEFINITION. The statements for the provers; OBLIGATIONS.json lists them. The rules of spec/ are cited by
their numbers; "log entry n" is notes/assumptions/n.md. A statement that rests on a log entry says so. -/

open Sys2Proof Sys2Proof.Machine

/-! ### Encoding -/

/-- Decoding what an instruction encodes to, with any bytes after it, gives the instruction (R79 to R81). -/
def Obligations.DecodeReadsBackEncode : Prop :=
  ∀ (i : Instr) (rest : List Byte), decode (encode i ++ rest) = .instr i

/-- Bytes that decode to an instruction begin with its encoding: no two encodings of one instruction, and
no bit that the decoder does not look at (R79 to R81). -/
def Obligations.DecodedBytesAreTheEncoding : Prop :=
  ∀ (bs : List Byte) (i : Instr), decode bs = .instr i → ∃ rest, bs = encode i ++ rest

/-- The concrete instructions of R82, each from its bytes written out. -/
def Obligations.SpecExampleWordsDecode : Prop :=
  decode [0xAA, 0x20] = .instr (.addRnRd .word .r2 .r0) ∧
  decode [0x1D, 0xFF, 0x00, 0x90] = .instr (.movRsAbs16 .word 0xFF00 .r0) ∧
  decode [0x58, 0xFF, 0x02] = .instr (.movI 0xFF02 .r0) ∧
  decode [0x5F, 0xFF, 0x00] = .instr (.movI 0xFF00 .r7) ∧
  decode [0x04, 0x00, 0x8F] = .instr (.ldcImm8 0x00 .tp) ∧
  decode [0xA8, 0x88] = .instr (.ldcRn .word .r0 .sr) ∧
  decode [0x0C, 0x7F, 0xFF, 0x58] = .instr (.andcW 0x7FFF .sr) ∧
  decode [0x0C, 0x80, 0x00, 0x48] = .instr (.orcW 0x8000 .sr) ∧
  decode [0x04, 0x02, 0x69] = .instr (.xorcB 0x02 .ccr) ∧
  decode [0xA1, 0xB8] = .instr (.divxuRnRd .byte .r1 .r0) ∧
  decode [0xA9, 0xB8] = .instr (.divxuRnRd .word .r1 .r0) ∧
  decode [0x08, 0x15] = .instr (.trapa 5) ∧
  decode [0x09] = .instr .trapVs ∧
  decode [0x0A] = .instr .rte ∧
  decode [0x00] = .instr .nop ∧
  decode [0x08, 0x10] = .instr (.trapa 0) ∧
  decode [0x08, 0x1F] = .instr (.trapa 15) ∧
  decode [0xAA, 0xB8] = .instr (.divxuRnRd .word .r2 .r0) ∧
  decode [0x04, 0x00, 0x89] = .instr (.ldcImm8 0x00 .ccr) ∧
  decode [0x0C, 0x07, 0x00, 0x48] = .instr (.orcW 0x0700 .sr) ∧
  decode [0x04, 0x00, 0x49] = .instr (.orcB 0x00 .ccr) ∧
  decode [0x0C, 0xF8, 0xFF, 0x58] = .instr (.andcW 0xF8FF .sr) ∧
  decode [0xBF, 0x90] = .instr (.movRsPreDec .word .r7 .r0) ∧
  decode [0xCF, 0x81] = .instr (.movPostIncRd .word .r7 .r1) ∧
  decode [0x1D, 0xFF, 0x01, 0x90] = .instr (.movRsAbs16 .word 0xFF01 .r0) ∧
  decode [0x15, 0x90, 0x00, 0x80] = .instr (.movAbs16Rd .byte 0x9000 .r0) ∧
  decode [0xAA, 0x21] = .instr (.addRnRd .word .r2 .r1) ∧
  decode [0x58, 0x00, 0x01] = .instr (.movI 0x0001 .r0) ∧
  decode [0x58, 0x12, 0x34] = .instr (.movI 0x1234 .r0) ∧
  decode [0x58, 0x00, 0x00] = .instr (.movI 0x0000 .r0) ∧
  decode [0x5F, 0xFE, 0x00] = .instr (.movI 0xFE00 .r7)

/-! ### One step -/

/-- Bytes outside the rows the spec gives are refused (R83), and `Invalid` comes from nowhere but a row of
`Decode` that a chip is given: one that says so or one with an illegal control register (D31, R80; log
entry 41). -/
def Obligations.UnknownBytesAreRefused : Prop :=
  (∀ s : State, s.env = [] → s.nextAction = .instruction → s.mayFetch = true → s.decoded = .unknown →
    step s = .refused .unknownCode) ∧
  (∀ (rows : List Config.CodeRow) (bs : List Byte), Config.CodeRow.leaves rows bs →
    (decode bs = .unknown → lookup rows bs = .unknown) ∧
    (∀ i, decode bs = .instr i → lookup rows bs = .instr i i.length)) ∧
  (∀ (rows : List Config.CodeRow) (bs : List Byte) (len : Nat), lookup rows bs = .invalid len →
    ∃ r ∈ rows, r.code ≠ [] ∧ r.code <+: bs ∧ r.code.length = len ∧ ∀ i, r.means = some i → i.wellFormed = false)

/-- When `Decode` gives an instruction and its length for the bytes at CP:PC, none of them stored to since the
last change of control flow, the step is that instruction's meaning in the state the fetch leaves: the
next instruction address is CP:PC plus the length (R70, R170). All else is as it was but for an address error
of the prefetch, which becomes pending, and the count of draws (R141, R177), and, where the length is not
that of the spec's own row, CP:PC, which the model then moves so that a meaning ends at that address
(log entry 41). -/
def Obligations.StepRunsTheDecodedInstruction : Prop :=
  ∀ (s : State) (i : Instr) (len : Nat), s.env = [] → s.nextAction = .instruction → s.mayFetch = true →
    s.decoded = .instr i len → s.staleWithin len = false →
    step s = exec i (s.executing i len) ∧
    (s.executing i len).codeAddress i.length = s.codeAddress len ∧
    (s.executing i len).regs = s.regs ∧ (s.executing i len).sr = s.sr ∧ (s.executing i len).mem = s.mem ∧
    Untouched s (s.executing i len) ∧ (s.executing i len).defer = s.defer ∧
    (s.executing i len).lastWasInstruction = s.lastWasInstruction ∧
    (s.executing i len).addrErrPending = (s.prefetchError len || s.addrErrPending) ∧
    (s.executing i len).stale = s.stale ∧ (s.executing i len).env = s.env ∧
    (len = i.length → (s.executing i len).pc = s.pc ∧ (s.executing i len).cp = s.cp ∧
      (s.prefetchError len = false → s.drawnWithin len = false → s.addrErrDetected = false →
        s.executing i len = s))

/-- When storage at CP:PC holds bytes that `Decode` gives an instruction for, none of the instruction's bytes
stale, the step is that instruction's meaning (R70, R177); so it is for the encoding of any instruction,
where no row that a chip is given beside the spec's speaks of it. -/
def Obligations.StepRunsTheEncodedInstruction : Prop :=
  (∀ (s : State) (bs : List Byte) (i : Instr) (len : Nat), s.env = [] → s.nextAction = .instruction →
    lookup s.cfg.codes bs = .instr i len → s.holdsCode bs → s.staleWithin len = false →
    step s = exec i (s.executing i len)) ∧
  (∀ (s : State) (i : Instr), s.env = [] → s.nextAction = .instruction →
    Config.CodeRow.leaves s.cfg.codes (encode i) → s.holdsCode (encode i) →
    (∀ n, n < i.length → s.staleAt n = false) → step s = exec i (s.fetched i.length))

/-- R60, D32: when any byte of the instruction at CP:PC, or of a code that is `Invalid`, was stored to with no
change of control flow since, whatever lies there, the step is refused. So it is where such a byte alone keeps
the code at CP:PC from being a longer or another given one, which `Decode` would take first: that this is so
whatever the byte held before is the model's choice, log entry 20. Elsewhere what `Decode` gives is the same
for whatever values the stored bytes had before. A byte that MOV stores to is one of them from then on, no
other byte becomes one by it, and an exception sequence, RTE and a reset, which change the flow of control,
leave none. -/
def Obligations.StoreIntoFetchedCodeIsRefused : Prop :=
  (∀ (s : State) (len : Nat), s.env = [] → s.nextAction = .instruction → s.mayFetch = true →
    ((∃ i, s.decoded = .instr i len) ∨ s.decoded = .invalid len) →
    (∃ n, n < len ∧ s.byteKey (s.codeAddress n).1 (s.codeAddress n).2 ∈ s.stale) →
    step s = .refused .storeIntoPrefetchedCode) ∧
  (∀ (s : State) (i : Instr), s.env = [] → s.nextAction = .instruction →
    Config.CodeRow.leaves s.cfg.codes (encode i) → s.holdsCode (encode i) →
    (∃ n, n < (encode i).length ∧ s.byteKey (s.codeAddress n).1 (s.codeAddress n).2 ∈ s.stale) →
    step s = .refused .storeIntoPrefetchedCode) ∧
  (∀ (s : State) (len : Nat) (before after : List Config.CodeRow) (r : Config.CodeRow), s.env = [] →
    s.nextAction = .instruction → s.mayFetch = true →
    ((∃ i, s.decoded = .instr i len) ∨ s.decoded = .invalid len) →
    s.cfg.codes = before ++ r :: after → r.code ≠ [] →
    (∀ q, q = r ∨ q ∈ before → q.code ≠ [] → ¬ q.code <+: s.codeBytes) →
    (∀ n c b, r.code[n]? = some c → s.codeBytes[n]? = some b →
      c = b ∨ s.byteKey (s.codeAddress n).1 (s.codeAddress n).2 ∈ s.stale) →
    step s = .refused .storeIntoPrefetchedCode) ∧
  (∀ (s : State) (len : Nat) (bs : List Byte), ((∃ i, s.decoded = .instr i len) ∨ s.decoded = .invalid len) →
    s.staleWithin len = false → bs.length = s.codeBytes.length →
    (∀ n, s.byteKey (s.codeAddress n).1 (s.codeAddress n).2 ∉ s.stale → bs[n]? = s.codeBytes[n]?) →
    lookup s.cfg.codes bs = s.decoded) ∧
  (∀ (sz : Size) (ea : Ea) (r : Reg) (i : Instr) (s t : State) (page : Byte) (off : Word),
    movStoreRow sz ea r = some i → exec i s = .next t → s.place sz ea = .memory page off →
    ∀ k, k ∈ t.stale ↔ k ∈ s.stale ∨ k = s.byteKey page off ∨
      (accessSize sz ea = .word ∧ k = s.byteKey page (off + 1))) ∧
  (∀ (index : BitVec 6) (pc : Word) (cp : Byte) (m : Option (BitVec 3)) (s t : State),
    exceptionSequence index pc cp m s = .next t → t.stale = []) ∧
  (∀ s t : State, exec .rte s = .next t → t.stale = []) ∧
  (∀ s t : State, resetSequence s = .next t → t.stale = [])

/-! ### Invariants and whole-machine rules -/

/-- Every step from a state that meets the invariant leads to one that does: canonical storage with nothing
in the register field, reserved bits of SR reading as 0 (R17), the reset state's flags (R200), and
parameters that the spec allows, `IntVector` with its distinct indices from 34 to 63 among them (R153). -/
def Obligations.EveryStepKeepsTheInvariant : Prop :=
  ∀ s t : State, s.Inv → step s = .next t → t.Inv

/-- The state after reset meets the invariant. -/
def Obligations.ResetStateMeetsTheInvariant : Prop := State.reset.Inv

/-- No step changes the parameters, and only a reset sequence changes the operating mode (R3, R7, R36). -/
def Obligations.ModeIsFixedBetweenResets : Prop :=
  ∀ s t : State, step s = .next t →
    t.cfg = s.cfg ∧ (s.applyEnvironment.nextAction ≠ .reset → t.mode = s.mode)

/-- Of the instructions only LDC, ANDC, ORC and XORC change TP, DP, EP or BR, and of each only the one they
name; no exception sequence, no acceptance of a request and no attempt to fetch does (R14, R21, R124). A
data transfer cycle leaves in them what the open `DtcCycle` gives (log entry 16), and one that a reset
abandons leaves them alone (log entry 36); the reset sequence changes them too (R34, log entry 36) and is
not spoken of here. -/
def Obligations.PageRegistersChangeOnlyByControlInstructions : Prop :=
  (∀ (i : Instr) (s t : State), exec i s = .next t →
    (t.tp = s.tp ∨ ∃ sz, i.control = some (.tp, sz)) ∧ (t.dp = s.dp ∨ ∃ sz, i.control = some (.dp, sz)) ∧
    (t.ep = s.ep ∨ ∃ sz, i.control = some (.ep, sz)) ∧ (t.br = s.br ∨ ∃ sz, i.control = some (.br, sz))) ∧
  (∀ s t : State, instructionStep s = .next t → (∀ i len, s.decoded ≠ .instr i len) →
    t.tp = s.tp ∧ t.dp = s.dp ∧ t.ep = s.ep ∧ t.br = s.br) ∧
  (∀ (a : Action) (s t : State), a ≠ .instruction → a ≠ .reset → (∀ k, a ≠ .dtc k) → perform a s = .next t →
    t.tp = s.tp ∧ t.dp = s.dp ∧ t.ep = s.ep ∧ t.br = s.br) ∧
  (∀ (k : Fin 21) (s t : State), perform (.dtc k) s = .next t →
    t.tp = (Config.dtcCycle k s).tp ∧ t.dp = (Config.dtcCycle k s).dp ∧ t.ep = (Config.dtcCycle k s).ep ∧
    t.br = (Config.dtcCycle k s).br)

/-- An instruction that is not one of the five, or is illegal, never raises or lowers the mask level and
never sets T (R126, R150, R161). -/
def Obligations.OnlyTheFiveChangeMaskOrSetTrace : Prop :=
  ∀ (i : Instr) (s t : State), exec i s = .next t → (i.isFive = false ∨ i.wellFormed = false) →
    maskOf t.sr = maskOf s.sr ∧ (traceOf t.sr = true → traceOf s.sr = true)

/-- R161: at the end of an instruction `defer` is set if it is one of the five, and else cleared, unless
the draw of R146 sets it after an address error. (An illegal instruction is none of the five, R164.) No
instruction clears a pending address error, which waits for its sequence (R29). -/
def Obligations.TheFiveDeferAndNoOtherDoes : Prop :=
  ∀ (i : Instr) (s t : State), exec i s = .next t →
    (i.isFive = true → i.wellFormed = true → t.defer = true) ∧
    ((i.isFive = false ∨ i.wellFormed = false) → s.addrErrDetected = false → t.addrErrPending = false →
      t.defer = false) ∧
    t.lastWasInstruction = true ∧ (s.addrErrPending = true → t.addrErrPending = true)

/-- R160: while `defer` is set the boundary checks are skipped, whatever is pending. -/
def Obligations.DeferralSkipsTheBoundaryChecks : Prop :=
  ∀ s : State, s.running → s.defer = true → s.nextAction = .instruction ∧ step s = instructionStep s

/-- An instruction ends without a next state only by three of the spec's stops: an access to nothing (R62), an
access to the disabled RAM area (U14), or an address error in a sequence or RTE (R133), the last only
in an instruction that takes a sequence or is RTE. That nothing else stops it rests on the model's
choices not to take stops that the spec also allows: the fault of a failed access (R147, D14; log entry
19), the refusal of byte-size stack forms (D34; log entry 25), the refusal at a page top (U21; log entry
15), the fault of reading a register that nothing has written (R34, R205, D24; log entry 6). -/
def Obligations.InstructionsStopOnlyByName : Prop :=
  ∀ (i : Instr) (s : State),
    (∀ r, exec i s = .refused r → r = .disabledRam) ∧
    (∀ f, exec i s = .fault f → f = .absentMemory ∨ (f = .addressErrorInSequence ∧
      (i.wellFormed = false ∨ i = .rte ∨ i = .trapVs ∨ (∃ v, i = .trapa v) ∨ ∃ sz ea d, i = divxuRow sz ea d)))

/-! ### Accesses -/

/-- R46: a word read is the byte at its address followed by the byte after it, and a stored word has its upper
byte at the lower address; a byte access to either half sees that byte, a word load joins them, and
every other address reads as before. -/
def Obligations.WordsAreStoredUpperByteFirst : Prop :=
  (∀ (s : State) (p : Byte) (o : Word), s.readableFor .word p o = true →
    loadWord p o s = .next ⟨some (s.byteAt p o ++ s.byteAt p (o + 1)), s⟩) ∧
  (∀ (s : State) (p : Byte) (o v : Word), Memory.wf s.mem = true → s.writableFor .word p o = true →
    ∃ t, storeWord p o v s = .next ⟨true, t⟩ ∧ t.byteAt p o = upperByte v ∧ t.byteAt p (o + 1) = lowerByte v ∧
      loadWord p o t = .next ⟨some v, t⟩ ∧
      loadByte p o t = .next ⟨some ((upperByte v).setWidth 16), t⟩ ∧
      loadByte p (o + 1) t = .next ⟨some ((lowerByte v).setWidth 16), t⟩ ∧
      ∀ p' o', s.outside .word p o p' o' → t.byteAt p' o' = s.byteAt p' o')

/-- R48: a word access at an odd address raises an address error, be it a load, a store, a push or a pop (the
last two, of a sequence or RTE, end in the fault of R133); a byte access, load or store, may have any address,
even or odd, and raises none where an access is admitted. That the word access is an address error too at an
odd address with no memory, where R62 would have the access stuck, and in the disabled RAM area outside
single-chip mode, where U14 would refuse it, is the model's choice (log entries 19, 22, 23). -/
def Obligations.OddWordAccessIsAnAddressError : Prop :=
  (∀ (s : State) (p : Byte) (o v : Word), isOdd o = true →
    loadWord p o s = .next ⟨none, s.raiseAddressError⟩ ∧
    ∃ t, storeWord p o v s = .next ⟨false, t⟩ ∧ t.addrErrPending = true) ∧
  (∀ (s : State) (v : Word), isOdd s.sp = true →
    pushWord v s = .fault .addressErrorInSequence ∧ popWord s = .fault .addressErrorInSequence) ∧
  (∀ (s : State) (p : Byte) (o : Word), s.readableAt p o = true →
    loadByte p o s = .next ⟨some ((s.byteAt p o).setWidth 16), s⟩) ∧
  (∀ (s : State) (p : Byte) (o : Word), s.acceptsAt p o = true →
    ∃ v t, loadByte p o s = .next ⟨some v, t⟩ ∧ t.addrErrPending = s.addrErrPending) ∧
  (∀ (s : State) (p : Byte) (o : Word) (v : Byte), s.acceptsAt p o = true →
    ∃ t, storeByte p o v s = .next ⟨true, t⟩ ∧ t.addrErrPending = s.addrErrPending ∧
      (s.writableAt p o = true → Memory.wf s.mem = true → t.byteAt p o = v))

/-- R50: a push moves SP down by 2 and writes the word there, a pop reads the word at SP and moves SP up by 2,
so that a pop gives a pushed word back; neither carries into TP. -/
def Obligations.PushThenPopGivesTheWordBack : Prop :=
  (∀ s : State, s.readableFor .word s.tp s.sp = true →
    ∃ u, popWord s = .next ⟨s.wordAt s.tp s.sp, u⟩ ∧ u.sp = s.sp + 2 ∧ u.tp = s.tp ∧ u.mem = s.mem) ∧
  (∀ (s : State) (v : Word), Memory.wf s.mem = true → s.writableFor .word s.tp (s.sp - 2) = true →
    ∃ t, pushWord v s = .next t ∧ t.sp = s.sp - 2 ∧ t.tp = s.tp ∧ t.wordAt s.tp (s.sp - 2) = v ∧
      (∀ p o, s.outside .word s.tp (s.sp - 2) p o → t.byteAt p o = s.byteAt p o) ∧
      ∃ u, popWord t = .next ⟨v, u⟩ ∧ u.sp = s.sp ∧ u.tp = s.tp ∧ u.mem = t.mem)

/-- R51, R112: through SP the register moves by 2 and the access is a word access, whatever the size; through
R0 to R6 a byte-size form moves the register by 1 and makes a byte access. -/
def Obligations.StackFormsAlwaysMoveByTwo : Prop :=
  (∀ (s : State) (sz : Size), (s.modify sz (.preDec .r7)).sp = s.sp - 2 ∧
    (s.modify sz (.postInc .r7)).sp = s.sp + 2 ∧
    accessSize sz (.preDec .r7) = .word ∧ accessSize sz (.postInc .r7) = .word) ∧
  (∀ (s : State) (r : Reg), r ≠ .r7 → (s.modify .byte (.preDec r)).reg r = s.reg r - 1 ∧
    (s.modify .byte (.postInc r)).reg r = s.reg r + 1 ∧
    (s.modify .word (.preDec r)).reg r = s.reg r - 2 ∧ (s.modify .word (.postInc r)).reg r = s.reg r + 2 ∧
    accessSize .byte (.preDec r) = .byte ∧ accessSize .byte (.postInc r) = .byte)

/-- R144, R145: in single-chip mode an access to H'8000 to H'FB7F, and with RAME = 0 one to the on-chip RAM
area, byte or word, at an even or an odd address, raises an address error; no register changes and no
storage but, at or above H'FB80, the bytes at the failing addresses of a store. -/
def Obligations.OffChipAccessInSingleChipModeIsAnAddressError : Prop :=
  ∀ (s : State) (p : Byte) (o : Word), s.mode.singleChip = true →
    ((0x8000 ≤ s.busAddress p o ∧ s.busAddress p o ≤ 0xFB7F) ∨
      (s.rame = false ∧ 0xFB80 ≤ s.busAddress p o ∧ s.busAddress p o ≤ 0xFF7F)) →
    (∀ sz, load sz p o s = .next ⟨none, s.raiseAddressError⟩) ∧
    (∀ v : Word, ∃ t, storeByte p o (lowerByte v) s = .next ⟨false, t⟩ ∧ t.addrErrPending = true ∧
      t.regs = s.regs ∧ ∀ k, k ≠ s.busAddress p o ∨ k ≤ 0xFB7F → memRead t.mem k = memRead s.mem k) ∧
    (∀ v : Word, ∃ t, storeWord p o v s = .next ⟨false, t⟩ ∧ t.addrErrPending = true ∧ t.regs = s.regs ∧
      ∀ k, (k ≠ s.busAddress p o ∧ k ≠ s.busAddress p (o + 1)) ∨ k ≤ 0xFB7F →
        memRead t.mem k = memRead s.mem k)

/-- A MOV with its operand in the register field completes, of either size (R22 to R25, R53, D4; the places
of the fields are log entry 8). The value loaded shows every named field of its byte or bytes, MDS, RAME,
the levels and the DTE bits, that no other field overlaps; all else in it is open, and no control field
changes. A store sets RAME, the levels and the DTE bits that lie in its byte or bytes, may change MDS only
through MDCR, and changes no storage. (The byte size uses the low byte of the register, log entry 10; the
register is read before the address register moves, log entry 13; the byte of a byte-size push or pop is
log entry 25.) -/
def Obligations.RegisterFieldAccessesReachTheNamedFields : Prop :=
  ∀ (sz : Size) (ea : Ea) (r : Reg) (s : State) (page : Byte) (off : Word), s.place sz ea = .memory page off →
    (accessSize sz ea = .word → isOdd off = false) → 0xFF80 ≤ s.busAddress page off →
    s.busAddress page off ≤ 0xFFFF → s.addrErrDetected = false →
    let o := BitVec.ofNat 7 (s.busAddress page off - 0xFF80)
    let map := s.cfg.registers
    let stored := storedAt (accessSize sz ea) o (s.storedWord sz ea (s.readReg sz r))
    (∃ t w, exec (movLoadRow sz ea r) s = .next t ∧ s.valueShows (accessSize sz ea) o w ∧
      t.reg r = merge sz ((s.modify sz ea).reg r) (operandOf sz ea w) ∧
      (∀ q, q ≠ r → t.reg q = (s.modify sz ea).reg q) ∧
      Advanced (generalLength ea) s t ∧ t.defer = false ∧ t.mem = s.mem ∧ Untouched s t) ∧
    (∀ i, movStoreRow sz ea r = some i → ∃ t, exec i s = .next t ∧
      t.rame = (match stored map.ramcr with
        | some b => b.getLsbD map.rameBit
        | none => s.rame) ∧
      (∀ k, t.level.get k = match stored (map.ipr.get (map.levelAt.get k).1) with
        | some b => b.extractLsb' (map.levelAt.get k).2 3
        | none => s.level.get k) ∧
      (∀ k, t.dte.get k = match stored (map.dte.get (map.dteAt.get k).1) with
        | some b => b.getLsbD (map.dteAt.get k).2
        | none => s.dte.get k) ∧
      (stored map.mdcr = none → t.mds = s.mds) ∧ (∀ q, t.reg q = (s.modify sz ea).reg q) ∧
      Advanced (generalLength ea) s t ∧ t.defer = false ∧ t.mem = s.mem)

/-! ### Exception sequences -/

/-- R125, R129: from a ready stack and a ready vector entry a sequence saves PC, SR and in maximum mode CP
in the frame below SP, clears T, writes the mask level only if told to, and branches to the address
in the entry in page 0; nothing else changes. -/
def Obligations.SequenceSavesAndBranches : Prop :=
  ∀ (index : BitVec 6) (pc : Word) (cp : Byte) (m : Option (BitVec 3)) (s : State),
    Memory.wf s.mem = true → s.stackReady = true → s.vectorReady index = true →
    ∃ t, exceptionSequence index pc cp m s = .next t ∧ Entered index pc cp m s t ∧
      t.defer = s.defer ∧ t.addrErrPending = s.addrErrPending

/-- R133, D13: an exception sequence or RTE with an odd SP is a fault, in both modes. -/
def Obligations.SequenceAndRteWithOddStackFault : Prop :=
  (∀ (index : BitVec 6) (pc : Word) (cp : Byte) (m : Option (BitVec 3)) (s : State), isOdd s.sp = true →
    exceptionSequence index pc cp m s = .fault .addressErrorInSequence) ∧
  (∀ s : State, isOdd s.sp = true → exec .rte s = .fault .addressErrorInSequence)

/-- The frame of a sequence wherever its stack lies (R124, R126): every general register but SP, every page
register but CP, of SR every bit but T and the mask level, and every byte of memory but those of the
frame (addresses compared under the same RAME, which a frame in the register field may change). -/
def Obligations.SequenceFrame : Prop :=
  ∀ (index : BitVec 6) (pc : Word) (cp : Byte) (m : Option (BitVec 3)) (s t : State),
    exceptionSequence index pc cp m s = .next t →
    (∀ r, r ≠ .r7 → t.reg r = s.reg r) ∧ t.sp = s.sp - BitVec.ofNat 16 s.frameBytes ∧ Masked m s.sr t.sr ∧
    t.tp = s.tp ∧ t.dp = s.dp ∧ t.ep = s.ep ∧ t.br = s.br ∧ (s.mode.cpu = .minimum → t.cp = s.cp) ∧
    t.defer = s.defer ∧ t.addrErrPending = s.addrErrPending ∧ t.pending = s.pending ∧
    t.nmiPending = s.nmiPending ∧
    (t.rame = s.rame → ∀ p o,
      (∀ k, k < s.frameBytes → s.busAddress p o ≠ s.busAddress s.tp (s.sp - BitVec.ofNat 16 (k + 1))) →
      t.byteAt p o = s.byteAt p o)

/-- R140: a pending address error, not deferred, takes the sequence with vector index 8 before a trace
exception and before any interrupt; it is no longer pending and the mask level is unchanged. -/
def Obligations.PendingAddressErrorIsTakenFirst : Prop :=
  ∀ s : State, s.running → s.defer = false → s.addrErrPending = true →
    Memory.wf s.mem = true → s.stackReady = true → s.vectorReady 8 = true →
    ∃ t, step s = .next t ∧ Entered 8 s.pc s.cp none s t ∧ t.addrErrPending = false ∧ t.defer = false

/-- R150, R151: with T = 1 at the end of an instruction, no address error pending and nothing deferred, the
trace sequence is taken: vector index 9, T cleared, the saved SR has T = 1, the mask unchanged. -/
def Obligations.TraceIsTakenAfterAnInstruction : Prop :=
  ∀ s : State, s.running → s.defer = false → s.addrErrPending = false → traceOf s.sr = true →
    s.lastWasInstruction = true → Memory.wf s.mem = true → s.stackReady = true → s.vectorReady 9 = true →
    ∃ t, step s = .next t ∧ Entered 9 s.pc s.cp none s t ∧ t.pending = s.pending ∧ t.nmiPending = s.nmiPending ∧
      t.addrErrPending = false

/-- R154, R157: a pending NMI is accepted whatever the mask level: vector index 11, the mask becomes 7, and
acceptance takes the request out of the pending set (R156, the spec's own choice D36; log entry 29). -/
def Obligations.NmiIsAcceptedUnderAnyMask : Prop :=
  ∀ s : State, s.openToInterrupts → s.nmiPending = true →
    Memory.wf s.mem = true → s.stackReady = true → s.vectorReady 11 = true →
    ∃ t, step s = .next t ∧ Entered 11 s.pc s.cp (some 7) s.withoutNmi t ∧ t.nmiPending = false ∧
      t.addrErrPending = false

/-- R157: an accepted maskable request whose DTE bit is 0 takes its vector, sets the mask to its level and is
no longer pending (R156, the spec's own choice D36; log entry 29); IRQ0 has vector index 32, IRQ1 33, an
internal type the one of `IntVector`, and for every choice of `IntVector` that the spec allows the 21 indices are distinct and from 32 to 63 (R153). -/
def Obligations.AcceptedInterruptSetsTheMaskToItsLevel : Prop :=
  (∀ (s : State) (k : Fin 21), s.openToInterrupts → s.chosen = some (.maskable k) → s.dte.get k = false →
    Memory.wf s.mem = true → s.stackReady = true → s.vectorReady (s.vectorOf k) = true →
    ∃ t, step s = .next t ∧
      Entered (s.vectorOf k) s.pc s.cp (some (s.level.get k)) (s.withoutPending k) t ∧
      t.addrErrPending = false ∧ t.pending.get k = false ∧ ∀ j, j ≠ k → t.pending.get j = s.pending.get j) ∧
  (∀ s : State, s.vectorOf 0 = 32 ∧ s.vectorOf 1 = 33 ∧
    ∀ i : Fin 19, s.vectorOf ⟨i.val + 2, by omega⟩ = s.cfg.vectorOfInternal.get i) ∧
  (∀ s : State, s.cfg.legal → (∀ k, 32 ≤ s.vectorOf k) ∧ ∀ j k, s.vectorOf j = s.vectorOf k → j = k)

/-- R154: a pending source is acceptable iff it is NMI or its level is above the mask level, and a request
is chosen iff some source is acceptable. -/
def Obligations.RequestsAreAcceptedIffAboveTheMask : Prop :=
  (∀ (s : State) (k : Fin 21), s.chosen = some (.maskable k) →
    s.pending.get k = true ∧ maskOf s.sr < s.level.get k ∧ s.nmiPending = false) ∧
  (∀ s : State, s.chosen = some .nmi ↔ s.nmiPending = true) ∧
  (∀ s : State, s.chosen = none ↔
    (s.nmiPending = false ∧ ∀ k, s.pending.get k = true → s.level.get k ≤ maskOf s.sr))

/-- R155: of the acceptable requests one of greatest level is chosen, and among equal levels the one first in
`IntOrder`. -/
def Obligations.HighestLevelIsAcceptedFirst : Prop :=
  ∀ (s : State) (k j : Fin 21), s.chosen = some (.maskable k) → s.acceptable j = true →
    s.level.get j ≤ s.level.get k ∧
    (s.level.get j = s.level.get k → s.cfg.rank.get k ≤ s.cfg.rank.get j)

/-- R158: an accepted request whose DTE bit is 1 starts the DTC: nothing is pushed, no register, no SR bit
and no byte of memory changes, and the request is no longer pending (R156, the spec's own choice D36; log
entry 29). -/
def Obligations.DtcStartPushesNothing : Prop :=
  ∀ (s : State) (k : Fin 21), s.openToInterrupts → s.chosen = some (.maskable k) → s.dte.get k = true →
    ∃ t, step s = .next t ∧ t.dtcActive = some k ∧ t.pending.get k = false ∧
      (∀ j, j ≠ k → t.pending.get j = s.pending.get j) ∧
      t.regs = s.regs ∧ t.pc = s.pc ∧ t.cp = s.cp ∧ t.sr = s.sr ∧ t.mem = s.mem ∧
      t.addrErrPending = s.addrErrPending

/-- R158, R163: a data transfer cycle does what the open `DtcCycle` gives, its accesses (`AccessesMade` says
what these leave) and the general and page registers that it leaves, and it ends with `defer` set, so
that an instruction runs before any exception, NMI included. SR and PC do not change. It is made when the
model admits all its accesses, and stops at the first that it does not admit: where there is no memory it
is stuck (R62, D30, U22), and in the disabled RAM area outside single-chip mode it is refused (U14). (The
model's choices, log entry 16: that CP is kept, that the cycle raises no address error and leaves a
pending one, and that it leaves the pending requests.) -/
def Obligations.DtcCycleEndsDeferred : Prop :=
  (∀ (s : State) (k : Fin 21), s.env = [] → s.inReset = false → s.dtcActive = some k →
    let e := Config.dtcCycle k s
    ((∀ a ∈ e.accesses, s.admits a) → ∃ t, step s = .next t) ∧
    (∀ f, busAccesses e.accesses s.tick = .fault f → step s = .fault f) ∧
    (∀ r, busAccesses e.accesses s.tick = .refused r → step s = .refused r) ∧
    (∀ t, step s = .next t → AccessesMade e.accesses s t ∧
      t.dtcActive = none ∧ t.defer = true ∧ t.lastWasInstruction = false ∧
      t.nextAction = .instruction ∧ t.pc = s.pc ∧ t.cp = s.cp ∧ t.sr = s.sr ∧
      t.regs = e.regs ∧ t.tp = e.tp ∧ t.dp = e.dp ∧ t.ep = e.ep ∧ t.br = e.br ∧
      t.pending = s.pending ∧ t.nmiPending = s.nmiPending ∧ t.addrErrPending = s.addrErrPending ∧
      t.mode = s.mode ∧ t.cfg = s.cfg)) ∧
  (∀ (s : State) (before after : List BusAccess) (a : BusAccess), (∀ b ∈ before, s.admits b) →
    (s.accessRegion a = .absent → busAccesses (before ++ a :: after) s = .fault .absentMemory) ∧
    (∀ k, s.accessRegion a = .disabled k → s.lastWrite before (fieldAddress s.cfg.registers.ramcr) = none →
      busAccesses (before ++ a :: after) s = .refused .disabledRam))

/-! ### Reset -/

/-- R201: with RES High again the reset sequence latches the mode pins, which fixes the operating mode, clears
T, sets the mask to 7 and loads PC, in maximum mode also CP, from vector entry 0; it sets `defer`, so
that the instruction there is executed next, pushes nothing and writes no memory. (In the reset state no data
transfer cycle is under way, R200; the invariant says so.) (The model's choices, log
entry 36: that the pending set is as it was, R34 leaving it unspecified; and that what the general
registers and TP held makes no difference, since they are drawn afresh.) -/
def Obligations.ResetSequenceLoadsTheVector : Prop :=
  ∀ s : State, s.env = [] → s.inReset = true → s.dtcActive = none → s.resHigh = true →
    s.latchMode.vectorReady 0 = true →
    (∃ t, step s = .next t ∧ t.mds = s.modePins ∧ t.mode = s.cfg.modeOfPins.get s.modePins.toFin ∧
      traceOf t.sr = false ∧ maskOf t.sr = 7 ∧
      (t.mode.cpu = .minimum → t.pc = t.wordAt 0 0) ∧
      (t.mode.cpu = .maximum → t.cp = t.byteAt 0 1 ∧ t.pc = t.wordAt 0 2) ∧
      t.defer = true ∧ t.lastWasInstruction = true ∧ t.addrErrPending = false ∧ t.dtcActive = none ∧
      t.inReset = false ∧ t.nextAction = .instruction ∧ t.mem = s.mem ∧ t.pending = s.pending ∧
      t.nmiPending = s.nmiPending) ∧
    ∀ (rf : Regs) (tp : Byte), step { s with regs := rf, tp := tp } = step s

/-- R63: going into reset, the reset state and the reset sequence do not initialize the on-chip RAM, whose
bytes are those of H'FB80 to H'FF7F. -/
def Obligations.OnChipRamSurvivesReset : Prop :=
  ∀ (s t : State) (k : Nat), 0xFB80 ≤ k → k ≤ 0xFF7F →
    (s.applyEvent .resLow = t ∨ s.applyEvent .resHigh = t ∨ perform .halted s = .next t ∨ resetSequence s = .next t) →
    memRead t.mem k = memRead s.mem k

/-- Going into reset and the reset sequence leave every byte of storage as it was: the memory row of R34,
which is derived, and R201 (log entry 36). (What a data transfer cycle under way had done before the reset
abandoned it is `TheOutsideWorldChangesRequestsAndPins`.) -/
def Obligations.MemorySurvivesReset : Prop :=
  (∀ s : State, s.enterReset.mem = s.mem) ∧
  (∀ s t : State, perform .halted s = .next t → t.mem = s.mem) ∧
  (∀ s t : State, resetSequence s = .next t → t.mem = s.mem)

/-- What the outside world does before a step (R28, R156, R192, R200). A request or its withdrawal changes
that request and nothing else; the mode pins and RES High change the pins alone; RES Low halts all
processing, saves nothing, and abandons an address error that was pending and a data transfer cycle under
way; while RES is Low no agent steps. An abandoned cycle has the partial effects it had (R200, D27): the
first of its accesses, as many as the open `dtcDone` says; if the model admits these the step answers. (The
model's choice, log entry 36: that going into reset keeps the registers, PC, CP, SR, the pending set and,
with no cycle under way, memory.) -/
def Obligations.TheOutsideWorldChangesRequestsAndPins : Prop :=
  (∀ (s : State) (now : List EnvEvent) (later : List (List EnvEvent)), s.env = now :: later →
    step s = (let u := now.foldl State.applyEvent { s with env := later }; perform u.nextAction u)) ∧
  (∀ s : State, s.applyEvent (.request .nmi) = { s with nmiPending := true } ∧
    s.applyEvent (.withdraw .nmi) = { s with nmiPending := false } ∧
    s.applyEvent .resHigh = { s with resHigh := true } ∧
    ∀ v, s.applyEvent (.modePins v) = { s with modePins := v }) ∧
  (∀ (s : State) (k : Fin 21),
    (∃ v, s.applyEvent (.request (.maskable k)) = { s with pending := v } ∧ v.get k = true ∧
      ∀ j, j ≠ k → v.get j = s.pending.get j) ∧
    (∃ v, s.applyEvent (.withdraw (.maskable k)) = { s with pending := v } ∧ v.get k = false ∧
      ∀ j, j ≠ k → v.get j = s.pending.get j)) ∧
  (∀ (s : State) (before : List EnvEvent) (later : List (List EnvEvent)), s.env = (before ++ [.resLow]) :: later →
    s.dtcActive = none →
    ∃ t, step s = .next t ∧ t.inReset = true ∧ t.resHigh = false ∧ t.addrErrPending = false ∧ t.dtcActive = none ∧
      t.env = later ∧ t.regs = s.regs ∧ t.pc = s.pc ∧ t.cp = s.cp ∧ t.sr = s.sr ∧ t.mem = s.mem ∧
      (before = [] → t.pending = s.pending ∧ t.nmiPending = s.nmiPending) ∧ (later = [] → step t = .next t)) ∧
  (∀ (s : State) (before : List EnvEvent) (later : List (List EnvEvent)) (k : Fin 21),
    s.env = (before ++ [.resLow]) :: later → s.dtcActive = some k →
    let u := s.applyEnvironment
    let done := (Config.dtcCycle k u).accesses.take (Config.dtcDone s.draws)
    ((∀ a ∈ done, s.admits a) → ∃ t, step s = .next t) ∧
    (∀ t, step s = .next t → AccessesMade done s t ∧
      t.inReset = true ∧ t.resHigh = false ∧ t.addrErrPending = false ∧ t.dtcActive = none ∧ t.env = later ∧
      t.regs = s.regs ∧ t.pc = s.pc ∧ t.cp = s.cp ∧ t.sr = s.sr ∧
      (before = [] → t.pending = s.pending ∧ t.nmiPending = s.nmiPending) ∧ (later = [] → step t = .next t))) ∧
  (∀ s : State, s.applyEnvironment.inReset = true → s.applyEnvironment.resHigh = false →
    s.applyEnvironment.dtcActive = none → step s = .next s.applyEnvironment)

/-- What R34 states of the state after reset: PC from the vector, T = 0, the mask 7, MDS the pins, `defer`
and `last_was_instruction` set, no pending address error, no DTC activity, not in reset. That the mode of
`State.reset` is minimum mode is the model's choice, log entry 5 (D1 leaves it open). -/
def Obligations.ResetStateHasTheStatedValues : Prop :=
  State.reset.mode.cpu = .minimum ∧ State.reset.pc = State.reset.wordAt 0 0 ∧ traceOf State.reset.sr = false ∧
  maskOf State.reset.sr = 7 ∧ State.reset.mds = State.reset.modePins ∧
  State.reset.mode = State.reset.cfg.modeOfPins.get State.reset.modePins.toFin ∧
  State.reset.defer = true ∧ State.reset.lastWasInstruction = true ∧ State.reset.addrErrPending = false ∧
  State.reset.dtcActive = none ∧ State.reset.inReset = false

/-! ### Fetch -/

/-- R141 (b), R144, R145: where no instruction may be fetched, nothing is executed and an address error
becomes pending; those places are the register field and, in single-chip mode, H'8000 to H'FB7F and,
with RAME = 0, the on-chip RAM area. -/
def Obligations.NothingIsExecutedWhereNothingMayBeFetched : Prop :=
  (∀ s : State, s.mayFetch = false ↔ s.fetchForbidden) ∧
  (∀ s : State, s.env = [] → s.nextAction = .instruction → s.fetchForbidden →
    step s = .next { s with addrErrPending := true, defer := false, lastWasInstruction := false })

/-- R141 (a), and by analogy R144 (D21): an instruction at H'FF7D to H'FF7F, in single-chip mode also one at
H'7FFD to H'7FFF, is executed with an address error pending, and leaves it pending, whatever the
instruction. -/
def Obligations.CodeJustBelowTheRegisterFieldRaisesAnError : Prop :=
  ∀ s : State, s.env = [] → s.nextAction = .instruction →
    ((0xFF7D ≤ s.busAddress s.cp s.pc ∧ s.busAddress s.cp s.pc ≤ 0xFF7F) ∨
      (s.mode.singleChip = true ∧ 0x7FFD ≤ s.busAddress s.cp s.pc ∧ s.busAddress s.cp s.pc ≤ 0x7FFF)) →
    (∀ t, step s = .next t → t.addrErrPending = true) ∧
    (s.mayFetch = true → ∀ i len, s.decoded = .instr i len → s.staleWithin len = false →
      step s = exec i (s.executing i len) ∧ (s.executing i len).addrErrPending = true ∧
      (s.executing i len).regs = s.regs ∧ (s.executing i len).sr = s.sr ∧ (s.executing i len).mem = s.mem)

/-- R80, R83, R164: an instruction with a control register of the wrong size or an undefined one, and bytes
at CP:PC for which `Decode` gives `Invalid`, take the invalid-instruction sequence: vector index 2, a PC
that the spec leaves open, the mask unchanged, nothing deferred. (That the first is the outcome `Invalid`
too is log entry 2.) -/
def Obligations.InvalidInstructionTakesItsVector : Prop :=
  (∀ (i : Instr) (s : State), i.wellFormed = false → Memory.wf s.mem = true → s.stackReady = true →
    s.vectorReady 2 = true → s.addrErrDetected = false →
    ∃ t pc, exec i s = .next t ∧ Entered 2 pc s.cp none s t ∧ t.defer = false ∧
      t.addrErrPending = s.addrErrPending) ∧
  (∀ (s : State) (len : Nat), s.env = [] → s.nextAction = .instruction → s.mayFetch = true →
    s.decoded = .invalid len → s.staleWithin len = false → Memory.wf s.mem = true → s.stackReady = true →
    s.vectorReady 2 = true →
    ∃ t pc, step s = .next t ∧ Entered 2 pc s.cp none s t ∧ t.lastWasInstruction = true ∧
      (s.prefetchError len = false → t.defer = false ∧ t.addrErrPending = s.addrErrPending))

/-! ### Operand forms -/

/-- Where the operand of every form lies, in both CPU modes (R41, R42, R79): `@aa:16` on page DP (R111, D37),
`@-SP` and `@SP+` on page TP (D37); that `@aa:8` takes BR as its upper byte, that R6 and R7 go with TP, R4
and R5 with EP and the others with DP, and that a displacement of one byte is signed is log entry 9. In
minimum mode the page takes no part. -/
def Obligations.OperandFormsHaveTheirPlaces : Prop :=
  (∀ (s : State) (p : Byte) (o : Word), (s.mode.cpu = .minimum → s.busAddress p o = o.toNat) ∧
    (s.mode.cpu = .maximum → s.busAddress p o = p.toNat * 65536 + o.toNat)) ∧
  (∀ (s : State) (sz : Size), (∀ a : Word, s.place sz (.abs16 a) = .memory s.dp a) ∧
    (∀ a : Byte, s.place sz (.abs8 a) = .memory s.dp (s.br ++ a)) ∧
    s.place sz (.preDec .r7) = .memory s.tp (s.sp - 2) ∧ s.place sz (.postInc .r7) = .memory s.tp s.sp ∧
    (∀ v, s.place sz (.imm8 v) = .immediate (v.setWidth 16)) ∧ (∀ v, s.place sz (.imm16 v) = .immediate v) ∧
    ∀ r, s.place sz (.reg r) = .register r) ∧
  (∀ (s : State) (sz : Size) (r : Reg), ∃ page,
    (r = .r6 ∨ r = .r7 → page = s.tp) ∧ (r = .r4 ∨ r = .r5 → page = s.ep) ∧
    (r = .r0 ∨ r = .r1 ∨ r = .r2 ∨ r = .r3 → page = s.dp) ∧
    s.place sz (.ind r) = .memory page (s.reg r) ∧ s.place sz (.postInc r) = .memory page (s.reg r) ∧
    (∀ d : Byte, s.place sz (.disp8 d r) = .memory page (s.reg r + d.signExtend 16)) ∧
    (∀ d : Word, s.place sz (.disp16 d r) = .memory page (s.reg r + d)) ∧
    (r ≠ .r7 → s.place .byte (.preDec r) = .memory page (s.reg r - 1)) ∧
    s.place .word (.preDec r) = .memory page (s.reg r - 2))

/-! ### MOV -/

/-- MOV to a register from an operand whose access raises no address error (R111; log entries 10 and 11): the
register, N and Z from the value, V cleared, C unchanged, the address register by the form, PC, and
nothing deferred. The value is the operand's where it lies in storage, a register or the instruction; in
the register field it is what `RegisterFieldAccessesReachTheNamedFields` says, in a vacant place it is open
(log entry 42). With the address register as destination the byte size keeps the upper byte of the moved
register (log entry 13); that a byte-size `@SP+` completes is log entry 25. -/
def Obligations.MoveToRegisterWritesTheOperand : Prop :=
  ∀ (sz : Size) (ea : Ea) (d : Reg) (s : State), ea.takesSize sz = true → s.operandAccepted sz ea = true →
    s.addrErrDetected = false →
    ∃ t v, exec (movLoadRow sz ea d) s = .next t ∧ (s.operandReadable sz ea = true → v = s.operandValue sz ea) ∧
      t.reg d = merge sz ((s.modify sz ea).reg d) v ∧
      (∀ r, r ≠ d → t.reg r = (s.modify sz ea).reg r) ∧
      negativeOf t.sr = signOf sz v ∧ zeroOf t.sr = (cut sz v == 0) ∧
      overflowOf t.sr = false ∧ carryOf t.sr = carryOf s.sr ∧ (∀ i, 4 ≤ i → t.sr.getLsbD i = s.sr.getLsbD i) ∧
      Advanced (generalLength ea) s t ∧ t.defer = false ∧ t.mem = s.mem ∧
      t.addrErrPending = s.addrErrPending

/-- MOV from a register to an operand whose access raises no address error (R111, R112, R113; log entries 10
and 11): the operand's bytes or register where it can be written, every other address, the flags, the
address register, PC. It completes as well in on-chip ROM, where the byte it leaves is open (R44, log entry
21), in a vacant place (log entry 42) and in the register field. That `MOV R7,@-R7` stores R7 as it was is
log entry 13; that a byte-size push completes is log entry 25. -/
def Obligations.MoveFromRegisterWritesTheOperand : Prop :=
  ∀ (sz : Size) (ea : Ea) (r : Reg) (i : Instr) (s : State), movStoreRow sz ea r = some i →
    s.operandAccepted sz ea = true → s.addrErrDetected = false →
    ∃ t, exec i s = .next t ∧
      (∀ page off, s.place sz ea = .memory page off →
        (s.operandWritable sz ea = true → Memory.wf s.mem = true →
          operandOf sz ea (t.valueAt (accessSize sz ea) page off) = s.readReg sz r ∧
          (∀ p o, s.outside (accessSize sz ea) page off p o → t.byteAt p o = s.byteAt p o)) ∧
        ∀ q, t.reg q = (s.modify sz ea).reg q) ∧
      (∀ e, s.place sz ea = .register e →
        t.reg e = merge sz (s.reg e) (s.readReg sz r) ∧ (∀ q, q ≠ e → t.reg q = s.reg q) ∧ t.mem = s.mem) ∧
      negativeOf t.sr = signOf sz (s.readReg sz r) ∧ zeroOf t.sr = (s.readReg sz r == 0) ∧
      overflowOf t.sr = false ∧ carryOf t.sr = carryOf s.sr ∧ (∀ i, 4 ≤ i → t.sr.getLsbD i = s.sr.getLsbD i) ∧
      Advanced (generalLength ea) s t ∧ t.defer = false ∧ t.addrErrPending = s.addrErrPending

/-- MOV:I.W (R111): the register, the flags, PC, and nothing else (no address error is raised and a pending
one stays); at its end `defer` is cleared and `last_was_instruction` set (R177). -/
def Obligations.MoveImmediateWritesTheRegister : Prop :=
  ∀ (v : Word) (d : Reg) (s : State), s.addrErrDetected = false →
    ∃ t, exec (.movI v d) s = .next t ∧ t.reg d = v ∧ (∀ r, r ≠ d → t.reg r = s.reg r) ∧
      negativeOf t.sr = v.getLsbD 15 ∧ zeroOf t.sr = (v == 0) ∧ overflowOf t.sr = false ∧
      carryOf t.sr = carryOf s.sr ∧ (∀ i, 4 ≤ i → t.sr.getLsbD i = s.sr.getLsbD i) ∧
      Advanced 3 s t ∧ t.defer = false ∧ t.lastWasInstruction = true ∧ t.addrErrPending = s.addrErrPending ∧
      t.mem = s.mem ∧ Untouched s t

/-- A word-size MOV or ADD from an odd address raises an address error (R142) and completes: PC advances, the
address error is pending, and memory and the other registers are unchanged; the register and the flags
are open. That it completes so is the model's choice (log entry 19): R147 also allows a fault. -/
def Obligations.WordLoadFromOddAddressCompletes : Prop :=
  ∀ (ea : Ea) (d : Reg) (s : State) (page : Byte) (off : Word), s.place .word ea = .memory page off →
    isOdd off = true → ∀ i, (i = movLoadRow .word ea d ∨ i = addRow .word ea d) →
    ∃ t, exec i s = .next t ∧ t.addrErrPending = true ∧ Advanced (generalLength ea) s t ∧ t.mem = s.mem ∧
      (∀ r, r ≠ d → Ea.modified ea ≠ some r → t.reg r = s.reg r)

/-! ### ADD and DIVXU -/

/-- ADD of an operand whose access raises no address error (R110; log entries 10 and 11): the sum modulo the
size, N and Z from it, C when the exact sum does not fit, V when the operands agree in sign and the sum
does not. The addend is the operand's value where it lies in storage, a register or the instruction, and
open elsewhere. With the address register as destination the sum takes the register after the form has
moved it (log entry 13); that a byte-size `@SP+` completes is log entry 25. -/
def Obligations.AddWritesTheSum : Prop :=
  ∀ (sz : Size) (ea : Ea) (d : Reg) (s : State), ea.takesSize sz = true → s.operandAccepted sz ea = true →
    s.addrErrDetected = false →
    ∃ t b, exec (addRow sz ea d) s = .next t ∧ (s.operandReadable sz ea = true → b = s.operandValue sz ea) ∧
      (let a := (s.modify sz ea).reg d
       let r := sum sz a b
       t.reg d = merge sz a r ∧ (cut sz r).toNat = ((cut sz a).toNat + (cut sz b).toNat) % modulus sz ∧
       negativeOf t.sr = signOf sz r ∧ zeroOf t.sr = (r == 0) ∧
       carryOf t.sr = decide (modulus sz ≤ (cut sz a).toNat + (cut sz b).toNat) ∧
       overflowOf t.sr = (signOf sz a == signOf sz b && signOf sz r != signOf sz a)) ∧
      (∀ r, r ≠ d → t.reg r = (s.modify sz ea).reg r) ∧ (∀ i, 4 ≤ i → t.sr.getLsbD i = s.sr.getLsbD i) ∧
      Advanced (generalLength ea) s t ∧ t.defer = false ∧ t.mem = s.mem ∧
      t.addrErrPending = s.addrErrPending

/-- DIVXU by a divisor other than 0 completes with the result and the condition codes of the open parameter
`Divxu` (R92, R93; `Divided`), which depend on the size, dividend and divisor alone; no sequence runs. The
divisor is the operand's value where it can be read, and wherever the operand's access raises no address
error it is the value that reading the operand gives: in the register field or a vacant place an open one.
Which registers hold the dividend and take the results is log entry 14; that the dividend is read after
the form has moved its address register is log entry 13; that `DIVXU.B` of a register divides by the low
byte is log entry 10; that a byte-size `@SP+` completes is log entry 25. -/
def Obligations.DivideByNonzeroCompletes : Prop :=
  (∀ (sz : Size) (ea : Ea) (d : Reg) (s : State), ea.takesSize sz = true → s.operandReadable sz ea = true →
    cut sz (s.operandValue sz ea) ≠ 0 → s.addrErrDetected = false →
    ∃ t, exec (divxuRow sz ea d) s = .next t ∧ Divided sz ea d (s.operandValue sz ea) s t) ∧
  (∀ (sz : Size) (ea : Ea) (d : Reg) (s : State) (v : Word) (g : State), ea.takesSize sz = true →
    readOperand sz ea s = .next ⟨some v, g⟩ → cut sz v ≠ 0 → s.addrErrDetected = false →
    ∃ t, exec (divxuRow sz ea d) s = .next t ∧ Divided sz ea d v s t) ∧
  (∀ (sz : Size) (ea : Ea) (s : State), s.operandAccepted sz ea = true →
    ∃ v g, readOperand sz ea s = .next ⟨some v, g⟩ ∧
      (s.operandReadable sz ea = true → v = s.operandValue sz ea))

/-- DIVXU by 0 takes the zero-divide sequence (R92, R166, R171): vector index 3, the next instruction address
pushed, T cleared, the mask unchanged, no byte of memory changed but those of the frame (R124). Rd, for the
word size its pair, and the condition codes, saved and live, are open. That a byte-size `@SP+` is executed,
where D34 also allows a refusal, is log entry 25. Two cases are left to `DivideFrame`: SP itself as a
destination (R7, or the pair of R6), whose value and with it the frame's place are open, and a zero divisor
from the register field or a vacant place, which is open. -/
def Obligations.DivideByZeroTraps : Prop :=
  ∀ (sz : Size) (ea : Ea) (d : Reg) (s : State), ea.takesSize sz = true → s.operandReadable sz ea = true →
    cut sz (s.operandValue sz ea) = 0 → d ≠ .r7 → (sz = .word → pairOf d ≠ .r7) →
    Memory.wf s.mem = true → (s.modify sz ea).stackReady = true → s.vectorReady 3 = true →
    s.addrErrDetected = false →
    ∃ t sr, exec (divxuRow sz ea d) s = .next t ∧
      Framed (s.pc + BitVec.ofNat 16 (generalLength ea)) (s.codeAddress (generalLength ea)).1 sr
        (s.modify sz ea) t ∧
      (∀ i, 4 ≤ i → sr.getLsbD i = s.sr.getLsbD i) ∧ Vectored 3 s t ∧
      traceOf t.sr = false ∧ maskOf t.sr = maskOf s.sr ∧
      (∀ r, r ≠ d → (sz = .word → r ≠ pairOf d) → r ≠ .r7 → t.reg r = (s.modify sz ea).reg r) ∧
      (∀ p o, (∀ k, k < s.frameBytes →
          s.busAddress p o ≠ s.busAddress s.tp ((s.modify sz ea).sp - BitVec.ofNat 16 (k + 1))) →
        t.byteAt p o = s.byteAt p o) ∧
      t.defer = false ∧ t.addrErrPending = s.addrErrPending ∧ Untouched s t

/-- The frame of DIVXU, for every form and whatever becomes of it (R92): every register but the
destination, for the word size its pair, the form's address register and SP; every bit of SR but the
condition codes and T, which is cleared if anything; the page registers but CP; and every byte of memory
but those of a stack frame that it may have pushed (R124; addresses compared under the same RAME). -/
def Obligations.DivideFrame : Prop :=
  ∀ (sz : Size) (ea : Ea) (d : Reg) (s t : State), exec (divxuRow sz ea d) s = .next t → ea.takesSize sz = true →
    (∀ r, r ≠ d → (sz = .word → r ≠ pairOf d) → r ≠ .r7 → Ea.modified ea ≠ some r → t.reg r = s.reg r) ∧
    (∀ i, 4 ≤ i → i ≠ 15 → t.sr.getLsbD i = s.sr.getLsbD i) ∧
    (traceOf t.sr = true → traceOf s.sr = true) ∧
    t.tp = s.tp ∧ t.dp = s.dp ∧ t.ep = s.ep ∧ t.br = s.br ∧ t.mode = s.mode ∧ t.cfg = s.cfg ∧
    t.pending = s.pending ∧ t.nmiPending = s.nmiPending ∧
    (t.rame = s.rame → ∀ p o,
      (∀ k, k < s.frameBytes → s.busAddress p o ≠ s.busAddress s.tp (t.sp + BitVec.ofNat 16 k)) →
      t.byteAt p o = s.byteAt p o)

/-- The frame of MOV to a register and of ADD, also after a failed access (R110, R111, R147): every register
but the destination and the form's address register, every bit of SR but the condition codes (MOV keeps
C unless the access failed), every other register, and every byte of memory. -/
def Obligations.RegisterDestinationFrame : Prop :=
  ∀ (sz : Size) (ea : Ea) (d : Reg) (i : Instr) (s t : State),
    (i = movLoadRow sz ea d ∨ i = addRow sz ea d) → exec i s = .next t → ea.takesSize sz = true →
    (∀ r, r ≠ d → Ea.modified ea ≠ some r → t.reg r = s.reg r) ∧
    (∀ i, 4 ≤ i → t.sr.getLsbD i = s.sr.getLsbD i) ∧
    (i = movLoadRow sz ea d → t.addrErrPending = false → carryOf t.sr = carryOf s.sr) ∧
    t.mem = s.mem ∧ (∀ p o, t.byteAt p o = s.byteAt p o) ∧ Untouched s t

/-- The frame of MOV to an operand, also after a failed access (R111, R147): every register but the
destination and the form's address register, every bit of SR but the condition codes, the page
registers, and every byte of memory but the operand's. A store none of whose bytes lies in the register
field leaves RAME, MDS, the levels and the DTE bits; one to the register field changes no storage byte, and
may change only these control fields (R53). Addresses are compared under the same RAME. (The model's
choices: that a store to the register field leaves the pending set, which R53 lets it change, log entry 8;
that a failing odd store at an address with no memory or in the disabled RAM area outside single-chip mode
completes, log entry 19; that a store to a vacant place changes no storage, log entry 42.) -/
def Obligations.StoreFrame : Prop :=
  ∀ (sz : Size) (ea : Ea) (r : Reg) (i : Instr) (s t : State), movStoreRow sz ea r = some i →
    exec i s = .next t →
    (∀ q, s.place sz ea ≠ .register q → Ea.modified ea ≠ some q → t.reg q = s.reg q) ∧
    (∀ i, 4 ≤ i → t.sr.getLsbD i = s.sr.getLsbD i) ∧
    (t.addrErrPending = false → carryOf t.sr = carryOf s.sr) ∧
    t.tp = s.tp ∧ t.dp = s.dp ∧ t.ep = s.ep ∧ t.br = s.br ∧ t.mode = s.mode ∧ t.cfg = s.cfg ∧
    t.pending = s.pending ∧ t.nmiPending = s.nmiPending ∧
    (∀ e, s.place sz ea = .register e → t.mem = s.mem ∧ Untouched s t) ∧
    (∀ page off, s.place sz ea = .memory page off →
      (¬(0xFF80 ≤ s.busAddress page off ∧ s.busAddress page off ≤ 0xFFFF) →
        (accessSize sz ea = .word →
          ¬(0xFF80 ≤ s.busAddress page (off + 1) ∧ s.busAddress page (off + 1) ≤ 0xFFFF)) →
        t.rame = s.rame ∧ t.mds = s.mds ∧ t.level = s.level ∧ t.dte = s.dte) ∧
      (t.rame = s.rame → ∀ p o, s.outside (accessSize sz ea) page off p o → t.byteAt p o = s.byteAt p o) ∧
      (∀ k, (∀ p o, (s.busAddress p o = s.busAddress page off ∨
          (accessSize sz ea = .word ∧ s.busAddress p o = s.busAddress page (off + 1))) →
          s.region p o ≠ .cell k ∧ s.region p o ≠ .rom k ∧ s.region p o ≠ .error (some k) ∧
          s.region p o ≠ .disabled k) →
        memRead t.mem k = memRead s.mem k))

/-! ### Control registers -/

/-- LDC of an operand whose access raises no address error into a control register of its size (R100; log
entry 12): the control register, the deferral, the address register, PC; every other control register and
memory unchanged. The value is the operand's where it lies in storage, a register or the instruction, and
open elsewhere. That `LDC.B` of a register reads its low byte is log entry 10; that a byte-size `@SP+` is
executed, where D34 also allows a refusal, is log entry 25. -/
def Obligations.LoadControlWritesTheControlRegister : Prop :=
  ∀ (sz : Size) (ea : Ea) (c : ControlReg) (s : State), c.fits sz = true → ea.takesSize sz = true →
    s.operandAccepted sz ea = true →
    ∃ t v, exec (ldcRow sz ea c) s = .next t ∧ (s.operandReadable sz ea = true → v = s.operandValue sz ea) ∧
      t.controlReg c = controlValue c v ∧ OtherControlKept c s t ∧ (∀ r, t.reg r = (s.modify sz ea).reg r) ∧
      t.defer = true ∧ Advanced (generalLength ea) s t ∧ t.mem = s.mem ∧
      t.addrErrPending = s.addrErrPending

/-- ANDC, ORC and XORC with a control register of their size (R101 to R103; log entry 12): the control
register combined with the immediate, the deferral, PC; everything else unchanged (`ControlCombined`). -/
def Obligations.ControlLogicCombinesWithTheImmediate : Prop :=
  ∀ (c : ControlReg) (s : State),
    (c.fits .byte = true → ∀ v : Byte,
      (∃ t, exec (.andcB v c) s = .next t ∧ ControlCombined c (s.controlReg c &&& v.setWidth 16) 3 s t) ∧
      (∃ t, exec (.orcB v c) s = .next t ∧ ControlCombined c (s.controlReg c ||| v.setWidth 16) 3 s t) ∧
      (∃ t, exec (.xorcB v c) s = .next t ∧ ControlCombined c (s.controlReg c ^^^ v.setWidth 16) 3 s t)) ∧
    (c.fits .word = true → ∀ v : Word,
      (∃ t, exec (.andcW v c) s = .next t ∧ ControlCombined c (s.controlReg c &&& v) 4 s t) ∧
      (∃ t, exec (.orcW v c) s = .next t ∧ ControlCombined c (s.controlReg c ||| v) 4 s t) ∧
      (∃ t, exec (.xorcW v c) s = .next t ∧ ControlCombined c (s.controlReg c ^^^ v) 4 s t))

/-- The frame of a legal LDC, ANDC, ORC or XORC, also after a failed access (R100 to R103, R147): every
register but the form's address register, every control register but the one named, and every byte of
memory. -/
def Obligations.ControlInstructionFrame : Prop :=
  ∀ (i : Instr) (c : ControlReg) (sz : Size) (s t : State), i.control = some (c, sz) → i.wellFormed = true →
    exec i s = .next t →
    (∀ r, (∀ ea, i = ldcRow sz ea c → Ea.modified ea ≠ some r) → t.reg r = s.reg r) ∧ OtherControlKept c s t ∧
    t.mem = s.mem ∧ (∀ p o, t.byteAt p o = s.byteAt p o) ∧ t.mode = s.mode ∧ t.cfg = s.cfg ∧
    t.rame = s.rame ∧ t.level = s.level ∧ t.dte = s.dte ∧ t.mds = s.mds ∧ t.pending = s.pending ∧
    t.nmiPending = s.nmiPending

/-! ### Traps, RTE, NOP -/

/-- TRAPA #v always takes the sequence with vector index 16 + v, pushing the address after it, with SR as it
was; T is cleared, the mask unchanged (R90, R128, R171). -/
def Obligations.TrapaTakesItsVector : Prop :=
  ∀ (v : BitVec 4) (s : State), Memory.wf s.mem = true → s.stackReady = true →
    s.vectorReady (16 + v.setWidth 6) = true → s.addrErrDetected = false →
    ∃ t, exec (.trapa v) s = .next t ∧
      Entered (16 + v.setWidth 6) (s.pc + 2) (s.codeAddress 2).1 none s t ∧ t.defer = false ∧
      t.addrErrPending = s.addrErrPending

/-- TRAP/VS with V = 1 takes the sequence with vector index 4, pushing the address after it; with V = 0 it
changes nothing but PC (R91; no address error is raised and a pending one stays); at its end `defer` is
cleared and `last_was_instruction` set (R177). -/
def Obligations.TrapVsTrapsOnOverflowAlone : Prop :=
  (∀ s : State, overflowOf s.sr = true → Memory.wf s.mem = true → s.stackReady = true →
    s.vectorReady 4 = true → s.addrErrDetected = false →
    ∃ t, exec .trapVs s = .next t ∧ Entered 4 (s.pc + 1) (s.codeAddress 1).1 none s t ∧
      overflowOf t.sr = true ∧ t.defer = false ∧ t.addrErrPending = s.addrErrPending) ∧
  (∀ s : State, overflowOf s.sr = false → s.addrErrDetected = false →
    ∃ t, exec .trapVs s = .next t ∧ Advanced 1 s t ∧ t.regs = s.regs ∧ t.sr = s.sr ∧ t.mem = s.mem ∧
      t.defer = false ∧ t.lastWasInstruction = true ∧ t.addrErrPending = s.addrErrPending ∧ Untouched s t)

/-- RTE from a frame that can be read (R104): SR (but its reserved bits, R17), in maximum mode CP, and PC from
the frame, SP above it, and the deferral; the don't-care byte has no effect. -/
def Obligations.RteRestoresFromTheFrame : Prop :=
  ∀ s : State, s.frameReady = true →
    ∃ t, exec .rte s = .next t ∧ t.sr = asSr (s.wordAt s.tp s.sp) ∧ t.defer = true ∧
      t.addrErrPending = s.addrErrPending ∧
      (s.mode.cpu = .minimum → t.pc = s.wordAt s.tp (s.sp + 2) ∧ t.cp = s.cp ∧ t.sp = s.sp + 4) ∧
      (s.mode.cpu = .maximum →
        t.cp = s.byteAt s.tp (s.sp + 3) ∧ t.pc = s.wordAt s.tp (s.sp + 4) ∧ t.sp = s.sp + 6)

/-- RTE undoes a sequence (R104, R125, R175): from the state a sequence leaves, with the frame untouched, it
gives back SR, SP, and in PC and CP what was pushed. -/
def Obligations.RteUndoesASequence : Prop :=
  ∀ (index : BitVec 6) (pc : Word) (cp : Byte) (m : Option (BitVec 3)) (s t : State),
    Memory.wf s.mem = true → asSr s.sr = s.sr → s.stackReady = true → s.vectorReady index = true →
    exceptionSequence index pc cp m s = .next t →
    ∃ u, exec .rte t = .next u ∧ u.sr = s.sr ∧ u.sp = s.sp ∧ u.pc = pc ∧
      (s.mode.cpu = .maximum → u.cp = cp) ∧ (s.mode.cpu = .minimum → u.cp = s.cp) ∧ ∀ r, u.reg r = s.reg r

/-- The frame of RTE (R104): every general register but SP, the page registers but CP, memory, and a pending
address error. -/
def Obligations.RteFrame : Prop :=
  ∀ s t : State, exec .rte s = .next t →
    (∀ r, r ≠ .r7 → t.reg r = s.reg r) ∧ t.mem = s.mem ∧ (∀ p o, t.byteAt p o = s.byteAt p o) ∧
    (s.mode.cpu = .minimum → t.cp = s.cp) ∧ t.addrErrPending = s.addrErrPending ∧ Untouched s t

/-- NOP changes nothing but PC (R116; no address error is raised and a pending one stays); at its end `defer` is
cleared and `last_was_instruction` set (R177). -/
def Obligations.NopOnlyAdvances : Prop :=
  ∀ s : State, s.addrErrDetected = false →
    ∃ t, exec .nop s = .next t ∧ Advanced 1 s t ∧ t.regs = s.regs ∧ t.sr = s.sr ∧ t.mem = s.mem ∧
      t.defer = false ∧ t.lastWasInstruction = true ∧ t.addrErrPending = s.addrErrPending ∧ Untouched s t
end

