-- ==== Sys2Proof/Laws/State.lean ====
section
/-! SUPPORT. For each update of the state, what it does to each field, by `rfl`. -/

namespace Sys2Proof.Machine

variable (s : State)

/-! ### setReg -/

@[simp] theorem State.setReg_pc (r : Reg) (v : Word) : (s.setReg r v).pc = s.pc := rfl
@[simp] theorem State.setReg_cp (r : Reg) (v : Word) : (s.setReg r v).cp = s.cp := rfl
@[simp] theorem State.setReg_tp (r : Reg) (v : Word) : (s.setReg r v).tp = s.tp := rfl
@[simp] theorem State.setReg_dp (r : Reg) (v : Word) : (s.setReg r v).dp = s.dp := rfl
@[simp] theorem State.setReg_ep (r : Reg) (v : Word) : (s.setReg r v).ep = s.ep := rfl
@[simp] theorem State.setReg_br (r : Reg) (v : Word) : (s.setReg r v).br = s.br := rfl
@[simp] theorem State.setReg_sr (r : Reg) (v : Word) : (s.setReg r v).sr = s.sr := rfl
@[simp] theorem State.setReg_mds (r : Reg) (v : Word) : (s.setReg r v).mds = s.mds := rfl
@[simp] theorem State.setReg_rame (r : Reg) (v : Word) : (s.setReg r v).rame = s.rame := rfl
@[simp] theorem State.setReg_level (r : Reg) (v : Word) : (s.setReg r v).level = s.level := rfl
@[simp] theorem State.setReg_dte (r : Reg) (v : Word) : (s.setReg r v).dte = s.dte := rfl
@[simp] theorem State.setReg_mode (r : Reg) (v : Word) : (s.setReg r v).mode = s.mode := rfl
@[simp] theorem State.setReg_nmiPending (r : Reg) (v : Word) : (s.setReg r v).nmiPending = s.nmiPending := rfl
@[simp] theorem State.setReg_pending (r : Reg) (v : Word) : (s.setReg r v).pending = s.pending := rfl
@[simp] theorem State.setReg_addrErrPending (r : Reg) (v : Word) : (s.setReg r v).addrErrPending = s.addrErrPending := rfl
@[simp] theorem State.setReg_addrErrDetected (r : Reg) (v : Word) : (s.setReg r v).addrErrDetected = s.addrErrDetected := rfl
@[simp] theorem State.setReg_defer (r : Reg) (v : Word) : (s.setReg r v).defer = s.defer := rfl
@[simp] theorem State.setReg_lastWasInstruction (r : Reg) (v : Word) : (s.setReg r v).lastWasInstruction = s.lastWasInstruction := rfl
@[simp] theorem State.setReg_dtcActive (r : Reg) (v : Word) : (s.setReg r v).dtcActive = s.dtcActive := rfl
@[simp] theorem State.setReg_inReset (r : Reg) (v : Word) : (s.setReg r v).inReset = s.inReset := rfl
@[simp] theorem State.setReg_resHigh (r : Reg) (v : Word) : (s.setReg r v).resHigh = s.resHigh := rfl
@[simp] theorem State.setReg_modePins (r : Reg) (v : Word) : (s.setReg r v).modePins = s.modePins := rfl
@[simp] theorem State.setReg_mem (r : Reg) (v : Word) : (s.setReg r v).mem = s.mem := rfl
@[simp] theorem State.setReg_stale (r : Reg) (v : Word) : (s.setReg r v).stale = s.stale := rfl
@[simp] theorem State.setReg_draws (r : Reg) (v : Word) : (s.setReg r v).draws = s.draws := rfl
@[simp] theorem State.setReg_env (r : Reg) (v : Word) : (s.setReg r v).env = s.env := rfl
@[simp] theorem State.setReg_cfg (r : Reg) (v : Word) : (s.setReg r v).cfg = s.cfg := rfl

/-! ### writeReg -/

@[simp] theorem State.writeReg_pc (sz : Size) (r : Reg) (v : Word) : (s.writeReg sz r v).pc = s.pc := rfl
@[simp] theorem State.writeReg_cp (sz : Size) (r : Reg) (v : Word) : (s.writeReg sz r v).cp = s.cp := rfl
@[simp] theorem State.writeReg_tp (sz : Size) (r : Reg) (v : Word) : (s.writeReg sz r v).tp = s.tp := rfl
@[simp] theorem State.writeReg_dp (sz : Size) (r : Reg) (v : Word) : (s.writeReg sz r v).dp = s.dp := rfl
@[simp] theorem State.writeReg_ep (sz : Size) (r : Reg) (v : Word) : (s.writeReg sz r v).ep = s.ep := rfl
@[simp] theorem State.writeReg_br (sz : Size) (r : Reg) (v : Word) : (s.writeReg sz r v).br = s.br := rfl
@[simp] theorem State.writeReg_sr (sz : Size) (r : Reg) (v : Word) : (s.writeReg sz r v).sr = s.sr := rfl
@[simp] theorem State.writeReg_mds (sz : Size) (r : Reg) (v : Word) : (s.writeReg sz r v).mds = s.mds := rfl
@[simp] theorem State.writeReg_rame (sz : Size) (r : Reg) (v : Word) : (s.writeReg sz r v).rame = s.rame := rfl
@[simp] theorem State.writeReg_level (sz : Size) (r : Reg) (v : Word) : (s.writeReg sz r v).level = s.level := rfl
@[simp] theorem State.writeReg_dte (sz : Size) (r : Reg) (v : Word) : (s.writeReg sz r v).dte = s.dte := rfl
@[simp] theorem State.writeReg_mode (sz : Size) (r : Reg) (v : Word) : (s.writeReg sz r v).mode = s.mode := rfl
@[simp] theorem State.writeReg_nmiPending (sz : Size) (r : Reg) (v : Word) : (s.writeReg sz r v).nmiPending = s.nmiPending := rfl
@[simp] theorem State.writeReg_pending (sz : Size) (r : Reg) (v : Word) : (s.writeReg sz r v).pending = s.pending := rfl
@[simp] theorem State.writeReg_addrErrPending (sz : Size) (r : Reg) (v : Word) : (s.writeReg sz r v).addrErrPending = s.addrErrPending := rfl
@[simp] theorem State.writeReg_addrErrDetected (sz : Size) (r : Reg) (v : Word) : (s.writeReg sz r v).addrErrDetected = s.addrErrDetected := rfl
@[simp] theorem State.writeReg_defer (sz : Size) (r : Reg) (v : Word) : (s.writeReg sz r v).defer = s.defer := rfl
@[simp] theorem State.writeReg_lastWasInstruction (sz : Size) (r : Reg) (v : Word) : (s.writeReg sz r v).lastWasInstruction = s.lastWasInstruction := rfl
@[simp] theorem State.writeReg_dtcActive (sz : Size) (r : Reg) (v : Word) : (s.writeReg sz r v).dtcActive = s.dtcActive := rfl
@[simp] theorem State.writeReg_inReset (sz : Size) (r : Reg) (v : Word) : (s.writeReg sz r v).inReset = s.inReset := rfl
@[simp] theorem State.writeReg_resHigh (sz : Size) (r : Reg) (v : Word) : (s.writeReg sz r v).resHigh = s.resHigh := rfl
@[simp] theorem State.writeReg_modePins (sz : Size) (r : Reg) (v : Word) : (s.writeReg sz r v).modePins = s.modePins := rfl
@[simp] theorem State.writeReg_mem (sz : Size) (r : Reg) (v : Word) : (s.writeReg sz r v).mem = s.mem := rfl
@[simp] theorem State.writeReg_stale (sz : Size) (r : Reg) (v : Word) : (s.writeReg sz r v).stale = s.stale := rfl
@[simp] theorem State.writeReg_draws (sz : Size) (r : Reg) (v : Word) : (s.writeReg sz r v).draws = s.draws := rfl
@[simp] theorem State.writeReg_env (sz : Size) (r : Reg) (v : Word) : (s.writeReg sz r v).env = s.env := rfl
@[simp] theorem State.writeReg_cfg (sz : Size) (r : Reg) (v : Word) : (s.writeReg sz r v).cfg = s.cfg := rfl

/-! ### setSr -/

@[simp] theorem State.setSr_regs (v : Word) : (s.setSr v).regs = s.regs := rfl
@[simp] theorem State.setSr_pc (v : Word) : (s.setSr v).pc = s.pc := rfl
@[simp] theorem State.setSr_cp (v : Word) : (s.setSr v).cp = s.cp := rfl
@[simp] theorem State.setSr_tp (v : Word) : (s.setSr v).tp = s.tp := rfl
@[simp] theorem State.setSr_dp (v : Word) : (s.setSr v).dp = s.dp := rfl
@[simp] theorem State.setSr_ep (v : Word) : (s.setSr v).ep = s.ep := rfl
@[simp] theorem State.setSr_br (v : Word) : (s.setSr v).br = s.br := rfl
@[simp] theorem State.setSr_mds (v : Word) : (s.setSr v).mds = s.mds := rfl
@[simp] theorem State.setSr_rame (v : Word) : (s.setSr v).rame = s.rame := rfl
@[simp] theorem State.setSr_level (v : Word) : (s.setSr v).level = s.level := rfl
@[simp] theorem State.setSr_dte (v : Word) : (s.setSr v).dte = s.dte := rfl
@[simp] theorem State.setSr_mode (v : Word) : (s.setSr v).mode = s.mode := rfl
@[simp] theorem State.setSr_nmiPending (v : Word) : (s.setSr v).nmiPending = s.nmiPending := rfl
@[simp] theorem State.setSr_pending (v : Word) : (s.setSr v).pending = s.pending := rfl
@[simp] theorem State.setSr_addrErrPending (v : Word) : (s.setSr v).addrErrPending = s.addrErrPending := rfl
@[simp] theorem State.setSr_addrErrDetected (v : Word) : (s.setSr v).addrErrDetected = s.addrErrDetected := rfl
@[simp] theorem State.setSr_defer (v : Word) : (s.setSr v).defer = s.defer := rfl
@[simp] theorem State.setSr_lastWasInstruction (v : Word) : (s.setSr v).lastWasInstruction = s.lastWasInstruction := rfl
@[simp] theorem State.setSr_dtcActive (v : Word) : (s.setSr v).dtcActive = s.dtcActive := rfl
@[simp] theorem State.setSr_inReset (v : Word) : (s.setSr v).inReset = s.inReset := rfl
@[simp] theorem State.setSr_resHigh (v : Word) : (s.setSr v).resHigh = s.resHigh := rfl
@[simp] theorem State.setSr_modePins (v : Word) : (s.setSr v).modePins = s.modePins := rfl
@[simp] theorem State.setSr_mem (v : Word) : (s.setSr v).mem = s.mem := rfl
@[simp] theorem State.setSr_stale (v : Word) : (s.setSr v).stale = s.stale := rfl
@[simp] theorem State.setSr_draws (v : Word) : (s.setSr v).draws = s.draws := rfl
@[simp] theorem State.setSr_env (v : Word) : (s.setSr v).env = s.env := rfl
@[simp] theorem State.setSr_cfg (v : Word) : (s.setSr v).cfg = s.cfg := rfl

/-! ### tick -/

@[simp] theorem State.tick_regs : (s.tick).regs = s.regs := rfl
@[simp] theorem State.tick_pc : (s.tick).pc = s.pc := rfl
@[simp] theorem State.tick_cp : (s.tick).cp = s.cp := rfl
@[simp] theorem State.tick_tp : (s.tick).tp = s.tp := rfl
@[simp] theorem State.tick_dp : (s.tick).dp = s.dp := rfl
@[simp] theorem State.tick_ep : (s.tick).ep = s.ep := rfl
@[simp] theorem State.tick_br : (s.tick).br = s.br := rfl
@[simp] theorem State.tick_sr : (s.tick).sr = s.sr := rfl
@[simp] theorem State.tick_mds : (s.tick).mds = s.mds := rfl
@[simp] theorem State.tick_rame : (s.tick).rame = s.rame := rfl
@[simp] theorem State.tick_level : (s.tick).level = s.level := rfl
@[simp] theorem State.tick_dte : (s.tick).dte = s.dte := rfl
@[simp] theorem State.tick_mode : (s.tick).mode = s.mode := rfl
@[simp] theorem State.tick_nmiPending : (s.tick).nmiPending = s.nmiPending := rfl
@[simp] theorem State.tick_pending : (s.tick).pending = s.pending := rfl
@[simp] theorem State.tick_addrErrPending : (s.tick).addrErrPending = s.addrErrPending := rfl
@[simp] theorem State.tick_addrErrDetected : (s.tick).addrErrDetected = s.addrErrDetected := rfl
@[simp] theorem State.tick_defer : (s.tick).defer = s.defer := rfl
@[simp] theorem State.tick_lastWasInstruction : (s.tick).lastWasInstruction = s.lastWasInstruction := rfl
@[simp] theorem State.tick_dtcActive : (s.tick).dtcActive = s.dtcActive := rfl
@[simp] theorem State.tick_inReset : (s.tick).inReset = s.inReset := rfl
@[simp] theorem State.tick_resHigh : (s.tick).resHigh = s.resHigh := rfl
@[simp] theorem State.tick_modePins : (s.tick).modePins = s.modePins := rfl
@[simp] theorem State.tick_mem : (s.tick).mem = s.mem := rfl
@[simp] theorem State.tick_stale : (s.tick).stale = s.stale := rfl
@[simp] theorem State.tick_env : (s.tick).env = s.env := rfl
@[simp] theorem State.tick_cfg : (s.tick).cfg = s.cfg := rfl

/-! ### drawReg -/

@[simp] theorem State.drawReg_pc (k : Config.Draw) (sz : Size) (r : Reg) : (s.drawReg k sz r).pc = s.pc := rfl
@[simp] theorem State.drawReg_cp (k : Config.Draw) (sz : Size) (r : Reg) : (s.drawReg k sz r).cp = s.cp := rfl
@[simp] theorem State.drawReg_tp (k : Config.Draw) (sz : Size) (r : Reg) : (s.drawReg k sz r).tp = s.tp := rfl
@[simp] theorem State.drawReg_dp (k : Config.Draw) (sz : Size) (r : Reg) : (s.drawReg k sz r).dp = s.dp := rfl
@[simp] theorem State.drawReg_ep (k : Config.Draw) (sz : Size) (r : Reg) : (s.drawReg k sz r).ep = s.ep := rfl
@[simp] theorem State.drawReg_br (k : Config.Draw) (sz : Size) (r : Reg) : (s.drawReg k sz r).br = s.br := rfl
@[simp] theorem State.drawReg_sr (k : Config.Draw) (sz : Size) (r : Reg) : (s.drawReg k sz r).sr = s.sr := rfl
@[simp] theorem State.drawReg_mds (k : Config.Draw) (sz : Size) (r : Reg) : (s.drawReg k sz r).mds = s.mds := rfl
@[simp] theorem State.drawReg_rame (k : Config.Draw) (sz : Size) (r : Reg) : (s.drawReg k sz r).rame = s.rame := rfl
@[simp] theorem State.drawReg_level (k : Config.Draw) (sz : Size) (r : Reg) : (s.drawReg k sz r).level = s.level := rfl
@[simp] theorem State.drawReg_dte (k : Config.Draw) (sz : Size) (r : Reg) : (s.drawReg k sz r).dte = s.dte := rfl
@[simp] theorem State.drawReg_mode (k : Config.Draw) (sz : Size) (r : Reg) : (s.drawReg k sz r).mode = s.mode := rfl
@[simp] theorem State.drawReg_nmiPending (k : Config.Draw) (sz : Size) (r : Reg) : (s.drawReg k sz r).nmiPending = s.nmiPending := rfl
@[simp] theorem State.drawReg_pending (k : Config.Draw) (sz : Size) (r : Reg) : (s.drawReg k sz r).pending = s.pending := rfl
@[simp] theorem State.drawReg_addrErrPending (k : Config.Draw) (sz : Size) (r : Reg) : (s.drawReg k sz r).addrErrPending = s.addrErrPending := rfl
@[simp] theorem State.drawReg_addrErrDetected (k : Config.Draw) (sz : Size) (r : Reg) : (s.drawReg k sz r).addrErrDetected = s.addrErrDetected := rfl
@[simp] theorem State.drawReg_defer (k : Config.Draw) (sz : Size) (r : Reg) : (s.drawReg k sz r).defer = s.defer := rfl
@[simp] theorem State.drawReg_lastWasInstruction (k : Config.Draw) (sz : Size) (r : Reg) : (s.drawReg k sz r).lastWasInstruction = s.lastWasInstruction := rfl
@[simp] theorem State.drawReg_dtcActive (k : Config.Draw) (sz : Size) (r : Reg) : (s.drawReg k sz r).dtcActive = s.dtcActive := rfl
@[simp] theorem State.drawReg_inReset (k : Config.Draw) (sz : Size) (r : Reg) : (s.drawReg k sz r).inReset = s.inReset := rfl
@[simp] theorem State.drawReg_resHigh (k : Config.Draw) (sz : Size) (r : Reg) : (s.drawReg k sz r).resHigh = s.resHigh := rfl
@[simp] theorem State.drawReg_modePins (k : Config.Draw) (sz : Size) (r : Reg) : (s.drawReg k sz r).modePins = s.modePins := rfl
@[simp] theorem State.drawReg_mem (k : Config.Draw) (sz : Size) (r : Reg) : (s.drawReg k sz r).mem = s.mem := rfl
@[simp] theorem State.drawReg_stale (k : Config.Draw) (sz : Size) (r : Reg) : (s.drawReg k sz r).stale = s.stale := rfl
@[simp] theorem State.drawReg_env (k : Config.Draw) (sz : Size) (r : Reg) : (s.drawReg k sz r).env = s.env := rfl
@[simp] theorem State.drawReg_cfg (k : Config.Draw) (sz : Size) (r : Reg) : (s.drawReg k sz r).cfg = s.cfg := rfl

/-! ### drawFlags -/

@[simp] theorem State.drawFlags_regs (k : Config.Draw) : (s.drawFlags k).regs = s.regs := rfl
@[simp] theorem State.drawFlags_pc (k : Config.Draw) : (s.drawFlags k).pc = s.pc := rfl
@[simp] theorem State.drawFlags_cp (k : Config.Draw) : (s.drawFlags k).cp = s.cp := rfl
@[simp] theorem State.drawFlags_tp (k : Config.Draw) : (s.drawFlags k).tp = s.tp := rfl
@[simp] theorem State.drawFlags_dp (k : Config.Draw) : (s.drawFlags k).dp = s.dp := rfl
@[simp] theorem State.drawFlags_ep (k : Config.Draw) : (s.drawFlags k).ep = s.ep := rfl
@[simp] theorem State.drawFlags_br (k : Config.Draw) : (s.drawFlags k).br = s.br := rfl
@[simp] theorem State.drawFlags_mds (k : Config.Draw) : (s.drawFlags k).mds = s.mds := rfl
@[simp] theorem State.drawFlags_rame (k : Config.Draw) : (s.drawFlags k).rame = s.rame := rfl
@[simp] theorem State.drawFlags_level (k : Config.Draw) : (s.drawFlags k).level = s.level := rfl
@[simp] theorem State.drawFlags_dte (k : Config.Draw) : (s.drawFlags k).dte = s.dte := rfl
@[simp] theorem State.drawFlags_mode (k : Config.Draw) : (s.drawFlags k).mode = s.mode := rfl
@[simp] theorem State.drawFlags_nmiPending (k : Config.Draw) : (s.drawFlags k).nmiPending = s.nmiPending := rfl
@[simp] theorem State.drawFlags_pending (k : Config.Draw) : (s.drawFlags k).pending = s.pending := rfl
@[simp] theorem State.drawFlags_addrErrPending (k : Config.Draw) : (s.drawFlags k).addrErrPending = s.addrErrPending := rfl
@[simp] theorem State.drawFlags_addrErrDetected (k : Config.Draw) : (s.drawFlags k).addrErrDetected = s.addrErrDetected := rfl
@[simp] theorem State.drawFlags_defer (k : Config.Draw) : (s.drawFlags k).defer = s.defer := rfl
@[simp] theorem State.drawFlags_lastWasInstruction (k : Config.Draw) : (s.drawFlags k).lastWasInstruction = s.lastWasInstruction := rfl
@[simp] theorem State.drawFlags_dtcActive (k : Config.Draw) : (s.drawFlags k).dtcActive = s.dtcActive := rfl
@[simp] theorem State.drawFlags_inReset (k : Config.Draw) : (s.drawFlags k).inReset = s.inReset := rfl
@[simp] theorem State.drawFlags_resHigh (k : Config.Draw) : (s.drawFlags k).resHigh = s.resHigh := rfl
@[simp] theorem State.drawFlags_modePins (k : Config.Draw) : (s.drawFlags k).modePins = s.modePins := rfl
@[simp] theorem State.drawFlags_mem (k : Config.Draw) : (s.drawFlags k).mem = s.mem := rfl
@[simp] theorem State.drawFlags_stale (k : Config.Draw) : (s.drawFlags k).stale = s.stale := rfl
@[simp] theorem State.drawFlags_env (k : Config.Draw) : (s.drawFlags k).env = s.env := rfl
@[simp] theorem State.drawFlags_cfg (k : Config.Draw) : (s.drawFlags k).cfg = s.cfg := rfl

/-! ### markStored -/

@[simp] theorem State.markStored_regs (k : Nat) : (s.markStored k).regs = s.regs := rfl
@[simp] theorem State.markStored_pc (k : Nat) : (s.markStored k).pc = s.pc := rfl
@[simp] theorem State.markStored_cp (k : Nat) : (s.markStored k).cp = s.cp := rfl
@[simp] theorem State.markStored_tp (k : Nat) : (s.markStored k).tp = s.tp := rfl
@[simp] theorem State.markStored_dp (k : Nat) : (s.markStored k).dp = s.dp := rfl
@[simp] theorem State.markStored_ep (k : Nat) : (s.markStored k).ep = s.ep := rfl
@[simp] theorem State.markStored_br (k : Nat) : (s.markStored k).br = s.br := rfl
@[simp] theorem State.markStored_sr (k : Nat) : (s.markStored k).sr = s.sr := rfl
@[simp] theorem State.markStored_mds (k : Nat) : (s.markStored k).mds = s.mds := rfl
@[simp] theorem State.markStored_rame (k : Nat) : (s.markStored k).rame = s.rame := rfl
@[simp] theorem State.markStored_level (k : Nat) : (s.markStored k).level = s.level := rfl
@[simp] theorem State.markStored_dte (k : Nat) : (s.markStored k).dte = s.dte := rfl
@[simp] theorem State.markStored_mode (k : Nat) : (s.markStored k).mode = s.mode := rfl
@[simp] theorem State.markStored_nmiPending (k : Nat) : (s.markStored k).nmiPending = s.nmiPending := rfl
@[simp] theorem State.markStored_pending (k : Nat) : (s.markStored k).pending = s.pending := rfl
@[simp] theorem State.markStored_addrErrPending (k : Nat) : (s.markStored k).addrErrPending = s.addrErrPending := rfl
@[simp] theorem State.markStored_addrErrDetected (k : Nat) : (s.markStored k).addrErrDetected = s.addrErrDetected := rfl
@[simp] theorem State.markStored_defer (k : Nat) : (s.markStored k).defer = s.defer := rfl
@[simp] theorem State.markStored_lastWasInstruction (k : Nat) : (s.markStored k).lastWasInstruction = s.lastWasInstruction := rfl
@[simp] theorem State.markStored_dtcActive (k : Nat) : (s.markStored k).dtcActive = s.dtcActive := rfl
@[simp] theorem State.markStored_inReset (k : Nat) : (s.markStored k).inReset = s.inReset := rfl
@[simp] theorem State.markStored_resHigh (k : Nat) : (s.markStored k).resHigh = s.resHigh := rfl
@[simp] theorem State.markStored_modePins (k : Nat) : (s.markStored k).modePins = s.modePins := rfl
@[simp] theorem State.markStored_draws (k : Nat) : (s.markStored k).draws = s.draws := rfl
@[simp] theorem State.markStored_env (k : Nat) : (s.markStored k).env = s.env := rfl
@[simp] theorem State.markStored_cfg (k : Nat) : (s.markStored k).cfg = s.cfg := rfl
@[simp] theorem State.markStored_mem (k : Nat) : (s.markStored k).mem = s.mem := rfl

/-- Marking a byte changes `stale` alone. -/
theorem State.markStored_change (k : Nat) : ∃ l, s.markStored k = { s with stale := l } := ⟨_, rfl⟩

/-! ### writeCell -/

@[simp] theorem State.writeCell_regs (k : Nat) (v : Byte) : (s.writeCell k v).regs = s.regs := rfl
@[simp] theorem State.writeCell_pc (k : Nat) (v : Byte) : (s.writeCell k v).pc = s.pc := rfl
@[simp] theorem State.writeCell_cp (k : Nat) (v : Byte) : (s.writeCell k v).cp = s.cp := rfl
@[simp] theorem State.writeCell_tp (k : Nat) (v : Byte) : (s.writeCell k v).tp = s.tp := rfl
@[simp] theorem State.writeCell_dp (k : Nat) (v : Byte) : (s.writeCell k v).dp = s.dp := rfl
@[simp] theorem State.writeCell_ep (k : Nat) (v : Byte) : (s.writeCell k v).ep = s.ep := rfl
@[simp] theorem State.writeCell_br (k : Nat) (v : Byte) : (s.writeCell k v).br = s.br := rfl
@[simp] theorem State.writeCell_sr (k : Nat) (v : Byte) : (s.writeCell k v).sr = s.sr := rfl
@[simp] theorem State.writeCell_mds (k : Nat) (v : Byte) : (s.writeCell k v).mds = s.mds := rfl
@[simp] theorem State.writeCell_rame (k : Nat) (v : Byte) : (s.writeCell k v).rame = s.rame := rfl
@[simp] theorem State.writeCell_level (k : Nat) (v : Byte) : (s.writeCell k v).level = s.level := rfl
@[simp] theorem State.writeCell_dte (k : Nat) (v : Byte) : (s.writeCell k v).dte = s.dte := rfl
@[simp] theorem State.writeCell_mode (k : Nat) (v : Byte) : (s.writeCell k v).mode = s.mode := rfl
@[simp] theorem State.writeCell_nmiPending (k : Nat) (v : Byte) : (s.writeCell k v).nmiPending = s.nmiPending := rfl
@[simp] theorem State.writeCell_pending (k : Nat) (v : Byte) : (s.writeCell k v).pending = s.pending := rfl
@[simp] theorem State.writeCell_addrErrPending (k : Nat) (v : Byte) : (s.writeCell k v).addrErrPending = s.addrErrPending := rfl
@[simp] theorem State.writeCell_addrErrDetected (k : Nat) (v : Byte) : (s.writeCell k v).addrErrDetected = s.addrErrDetected := rfl
@[simp] theorem State.writeCell_defer (k : Nat) (v : Byte) : (s.writeCell k v).defer = s.defer := rfl
@[simp] theorem State.writeCell_lastWasInstruction (k : Nat) (v : Byte) : (s.writeCell k v).lastWasInstruction = s.lastWasInstruction := rfl
@[simp] theorem State.writeCell_dtcActive (k : Nat) (v : Byte) : (s.writeCell k v).dtcActive = s.dtcActive := rfl
@[simp] theorem State.writeCell_inReset (k : Nat) (v : Byte) : (s.writeCell k v).inReset = s.inReset := rfl
@[simp] theorem State.writeCell_resHigh (k : Nat) (v : Byte) : (s.writeCell k v).resHigh = s.resHigh := rfl
@[simp] theorem State.writeCell_modePins (k : Nat) (v : Byte) : (s.writeCell k v).modePins = s.modePins := rfl
@[simp] theorem State.writeCell_draws (k : Nat) (v : Byte) : (s.writeCell k v).draws = s.draws := rfl
@[simp] theorem State.writeCell_env (k : Nat) (v : Byte) : (s.writeCell k v).env = s.env := rfl
@[simp] theorem State.writeCell_cfg (k : Nat) (v : Byte) : (s.writeCell k v).cfg = s.cfg := rfl

/-! ### raiseAddressError -/

@[simp] theorem State.raiseAddressError_regs : (s.raiseAddressError).regs = s.regs := rfl
@[simp] theorem State.raiseAddressError_pc : (s.raiseAddressError).pc = s.pc := rfl
@[simp] theorem State.raiseAddressError_cp : (s.raiseAddressError).cp = s.cp := rfl
@[simp] theorem State.raiseAddressError_tp : (s.raiseAddressError).tp = s.tp := rfl
@[simp] theorem State.raiseAddressError_dp : (s.raiseAddressError).dp = s.dp := rfl
@[simp] theorem State.raiseAddressError_ep : (s.raiseAddressError).ep = s.ep := rfl
@[simp] theorem State.raiseAddressError_br : (s.raiseAddressError).br = s.br := rfl
@[simp] theorem State.raiseAddressError_sr : (s.raiseAddressError).sr = s.sr := rfl
@[simp] theorem State.raiseAddressError_mds : (s.raiseAddressError).mds = s.mds := rfl
@[simp] theorem State.raiseAddressError_rame : (s.raiseAddressError).rame = s.rame := rfl
@[simp] theorem State.raiseAddressError_level : (s.raiseAddressError).level = s.level := rfl
@[simp] theorem State.raiseAddressError_dte : (s.raiseAddressError).dte = s.dte := rfl
@[simp] theorem State.raiseAddressError_mode : (s.raiseAddressError).mode = s.mode := rfl
@[simp] theorem State.raiseAddressError_nmiPending : (s.raiseAddressError).nmiPending = s.nmiPending := rfl
@[simp] theorem State.raiseAddressError_pending : (s.raiseAddressError).pending = s.pending := rfl
@[simp] theorem State.raiseAddressError_defer : (s.raiseAddressError).defer = s.defer := rfl
@[simp] theorem State.raiseAddressError_lastWasInstruction : (s.raiseAddressError).lastWasInstruction = s.lastWasInstruction := rfl
@[simp] theorem State.raiseAddressError_dtcActive : (s.raiseAddressError).dtcActive = s.dtcActive := rfl
@[simp] theorem State.raiseAddressError_inReset : (s.raiseAddressError).inReset = s.inReset := rfl
@[simp] theorem State.raiseAddressError_resHigh : (s.raiseAddressError).resHigh = s.resHigh := rfl
@[simp] theorem State.raiseAddressError_modePins : (s.raiseAddressError).modePins = s.modePins := rfl
@[simp] theorem State.raiseAddressError_mem : (s.raiseAddressError).mem = s.mem := rfl
@[simp] theorem State.raiseAddressError_stale : (s.raiseAddressError).stale = s.stale := rfl
@[simp] theorem State.raiseAddressError_draws : (s.raiseAddressError).draws = s.draws := rfl
@[simp] theorem State.raiseAddressError_env : (s.raiseAddressError).env = s.env := rfl
@[simp] theorem State.raiseAddressError_cfg : (s.raiseAddressError).cfg = s.cfg := rfl

/-! ### registerStore -/

@[simp] theorem State.registerStore_regs (o : BitVec 7) (v : Byte) : (s.registerStore o v).regs = s.regs := rfl
@[simp] theorem State.registerStore_pc (o : BitVec 7) (v : Byte) : (s.registerStore o v).pc = s.pc := rfl
@[simp] theorem State.registerStore_cp (o : BitVec 7) (v : Byte) : (s.registerStore o v).cp = s.cp := rfl
@[simp] theorem State.registerStore_tp (o : BitVec 7) (v : Byte) : (s.registerStore o v).tp = s.tp := rfl
@[simp] theorem State.registerStore_dp (o : BitVec 7) (v : Byte) : (s.registerStore o v).dp = s.dp := rfl
@[simp] theorem State.registerStore_ep (o : BitVec 7) (v : Byte) : (s.registerStore o v).ep = s.ep := rfl
@[simp] theorem State.registerStore_br (o : BitVec 7) (v : Byte) : (s.registerStore o v).br = s.br := rfl
@[simp] theorem State.registerStore_sr (o : BitVec 7) (v : Byte) : (s.registerStore o v).sr = s.sr := rfl
@[simp] theorem State.registerStore_mode (o : BitVec 7) (v : Byte) : (s.registerStore o v).mode = s.mode := rfl
@[simp] theorem State.registerStore_nmiPending (o : BitVec 7) (v : Byte) : (s.registerStore o v).nmiPending = s.nmiPending := rfl
@[simp] theorem State.registerStore_pending (o : BitVec 7) (v : Byte) : (s.registerStore o v).pending = s.pending := rfl
@[simp] theorem State.registerStore_addrErrPending (o : BitVec 7) (v : Byte) : (s.registerStore o v).addrErrPending = s.addrErrPending := rfl
@[simp] theorem State.registerStore_addrErrDetected (o : BitVec 7) (v : Byte) : (s.registerStore o v).addrErrDetected = s.addrErrDetected := rfl
@[simp] theorem State.registerStore_defer (o : BitVec 7) (v : Byte) : (s.registerStore o v).defer = s.defer := rfl
@[simp] theorem State.registerStore_lastWasInstruction (o : BitVec 7) (v : Byte) : (s.registerStore o v).lastWasInstruction = s.lastWasInstruction := rfl
@[simp] theorem State.registerStore_dtcActive (o : BitVec 7) (v : Byte) : (s.registerStore o v).dtcActive = s.dtcActive := rfl
@[simp] theorem State.registerStore_inReset (o : BitVec 7) (v : Byte) : (s.registerStore o v).inReset = s.inReset := rfl
@[simp] theorem State.registerStore_resHigh (o : BitVec 7) (v : Byte) : (s.registerStore o v).resHigh = s.resHigh := rfl
@[simp] theorem State.registerStore_modePins (o : BitVec 7) (v : Byte) : (s.registerStore o v).modePins = s.modePins := rfl
@[simp] theorem State.registerStore_mem (o : BitVec 7) (v : Byte) : (s.registerStore o v).mem = s.mem := rfl
@[simp] theorem State.registerStore_stale (o : BitVec 7) (v : Byte) : (s.registerStore o v).stale = s.stale := rfl
@[simp] theorem State.registerStore_env (o : BitVec 7) (v : Byte) : (s.registerStore o v).env = s.env := rfl
@[simp] theorem State.registerStore_cfg (o : BitVec 7) (v : Byte) : (s.registerStore o v).cfg = s.cfg := rfl

/-! ### advance -/

@[simp] theorem State.advance_regs (n : Nat) : (s.advance n).regs = s.regs := rfl
@[simp] theorem State.advance_tp (n : Nat) : (s.advance n).tp = s.tp := rfl
@[simp] theorem State.advance_dp (n : Nat) : (s.advance n).dp = s.dp := rfl
@[simp] theorem State.advance_ep (n : Nat) : (s.advance n).ep = s.ep := rfl
@[simp] theorem State.advance_br (n : Nat) : (s.advance n).br = s.br := rfl
@[simp] theorem State.advance_sr (n : Nat) : (s.advance n).sr = s.sr := rfl
@[simp] theorem State.advance_mds (n : Nat) : (s.advance n).mds = s.mds := rfl
@[simp] theorem State.advance_rame (n : Nat) : (s.advance n).rame = s.rame := rfl
@[simp] theorem State.advance_level (n : Nat) : (s.advance n).level = s.level := rfl
@[simp] theorem State.advance_dte (n : Nat) : (s.advance n).dte = s.dte := rfl
@[simp] theorem State.advance_mode (n : Nat) : (s.advance n).mode = s.mode := rfl
@[simp] theorem State.advance_nmiPending (n : Nat) : (s.advance n).nmiPending = s.nmiPending := rfl
@[simp] theorem State.advance_pending (n : Nat) : (s.advance n).pending = s.pending := rfl
@[simp] theorem State.advance_addrErrPending (n : Nat) : (s.advance n).addrErrPending = s.addrErrPending := rfl
@[simp] theorem State.advance_addrErrDetected (n : Nat) : (s.advance n).addrErrDetected = s.addrErrDetected := rfl
@[simp] theorem State.advance_defer (n : Nat) : (s.advance n).defer = s.defer := rfl
@[simp] theorem State.advance_lastWasInstruction (n : Nat) : (s.advance n).lastWasInstruction = s.lastWasInstruction := rfl
@[simp] theorem State.advance_dtcActive (n : Nat) : (s.advance n).dtcActive = s.dtcActive := rfl
@[simp] theorem State.advance_inReset (n : Nat) : (s.advance n).inReset = s.inReset := rfl
@[simp] theorem State.advance_resHigh (n : Nat) : (s.advance n).resHigh = s.resHigh := rfl
@[simp] theorem State.advance_modePins (n : Nat) : (s.advance n).modePins = s.modePins := rfl
@[simp] theorem State.advance_mem (n : Nat) : (s.advance n).mem = s.mem := rfl
@[simp] theorem State.advance_stale (n : Nat) : (s.advance n).stale = s.stale := rfl
@[simp] theorem State.advance_draws (n : Nat) : (s.advance n).draws = s.draws := rfl
@[simp] theorem State.advance_env (n : Nat) : (s.advance n).env = s.env := rfl
@[simp] theorem State.advance_cfg (n : Nat) : (s.advance n).cfg = s.cfg := rfl

/-! ### finish -/

@[simp] theorem State.finish_regs (five : Bool) : (s.finish five).regs = s.regs := rfl
@[simp] theorem State.finish_pc (five : Bool) : (s.finish five).pc = s.pc := rfl
@[simp] theorem State.finish_cp (five : Bool) : (s.finish five).cp = s.cp := rfl
@[simp] theorem State.finish_tp (five : Bool) : (s.finish five).tp = s.tp := rfl
@[simp] theorem State.finish_dp (five : Bool) : (s.finish five).dp = s.dp := rfl
@[simp] theorem State.finish_ep (five : Bool) : (s.finish five).ep = s.ep := rfl
@[simp] theorem State.finish_br (five : Bool) : (s.finish five).br = s.br := rfl
@[simp] theorem State.finish_sr (five : Bool) : (s.finish five).sr = s.sr := rfl
@[simp] theorem State.finish_mds (five : Bool) : (s.finish five).mds = s.mds := rfl
@[simp] theorem State.finish_rame (five : Bool) : (s.finish five).rame = s.rame := rfl
@[simp] theorem State.finish_level (five : Bool) : (s.finish five).level = s.level := rfl
@[simp] theorem State.finish_dte (five : Bool) : (s.finish five).dte = s.dte := rfl
@[simp] theorem State.finish_mode (five : Bool) : (s.finish five).mode = s.mode := rfl
@[simp] theorem State.finish_nmiPending (five : Bool) : (s.finish five).nmiPending = s.nmiPending := rfl
@[simp] theorem State.finish_pending (five : Bool) : (s.finish five).pending = s.pending := rfl
@[simp] theorem State.finish_addrErrPending (five : Bool) : (s.finish five).addrErrPending = s.addrErrPending := rfl
@[simp] theorem State.finish_dtcActive (five : Bool) : (s.finish five).dtcActive = s.dtcActive := rfl
@[simp] theorem State.finish_inReset (five : Bool) : (s.finish five).inReset = s.inReset := rfl
@[simp] theorem State.finish_resHigh (five : Bool) : (s.finish five).resHigh = s.resHigh := rfl
@[simp] theorem State.finish_modePins (five : Bool) : (s.finish five).modePins = s.modePins := rfl
@[simp] theorem State.finish_mem (five : Bool) : (s.finish five).mem = s.mem := rfl
@[simp] theorem State.finish_stale (five : Bool) : (s.finish five).stale = s.stale := rfl
@[simp] theorem State.finish_env (five : Bool) : (s.finish five).env = s.env := rfl
@[simp] theorem State.finish_cfg (five : Bool) : (s.finish five).cfg = s.cfg := rfl

/-! ### complete -/

@[simp] theorem State.complete_regs (five : Bool) (n : Nat) : (s.complete five n).regs = s.regs := rfl
@[simp] theorem State.complete_tp (five : Bool) (n : Nat) : (s.complete five n).tp = s.tp := rfl
@[simp] theorem State.complete_dp (five : Bool) (n : Nat) : (s.complete five n).dp = s.dp := rfl
@[simp] theorem State.complete_ep (five : Bool) (n : Nat) : (s.complete five n).ep = s.ep := rfl
@[simp] theorem State.complete_br (five : Bool) (n : Nat) : (s.complete five n).br = s.br := rfl
@[simp] theorem State.complete_sr (five : Bool) (n : Nat) : (s.complete five n).sr = s.sr := rfl
@[simp] theorem State.complete_mds (five : Bool) (n : Nat) : (s.complete five n).mds = s.mds := rfl
@[simp] theorem State.complete_rame (five : Bool) (n : Nat) : (s.complete five n).rame = s.rame := rfl
@[simp] theorem State.complete_level (five : Bool) (n : Nat) : (s.complete five n).level = s.level := rfl
@[simp] theorem State.complete_dte (five : Bool) (n : Nat) : (s.complete five n).dte = s.dte := rfl
@[simp] theorem State.complete_mode (five : Bool) (n : Nat) : (s.complete five n).mode = s.mode := rfl
@[simp] theorem State.complete_nmiPending (five : Bool) (n : Nat) : (s.complete five n).nmiPending = s.nmiPending := rfl
@[simp] theorem State.complete_pending (five : Bool) (n : Nat) : (s.complete five n).pending = s.pending := rfl
@[simp] theorem State.complete_addrErrPending (five : Bool) (n : Nat) : (s.complete five n).addrErrPending = s.addrErrPending := rfl
@[simp] theorem State.complete_dtcActive (five : Bool) (n : Nat) : (s.complete five n).dtcActive = s.dtcActive := rfl
@[simp] theorem State.complete_inReset (five : Bool) (n : Nat) : (s.complete five n).inReset = s.inReset := rfl
@[simp] theorem State.complete_resHigh (five : Bool) (n : Nat) : (s.complete five n).resHigh = s.resHigh := rfl
@[simp] theorem State.complete_modePins (five : Bool) (n : Nat) : (s.complete five n).modePins = s.modePins := rfl
@[simp] theorem State.complete_mem (five : Bool) (n : Nat) : (s.complete five n).mem = s.mem := rfl
@[simp] theorem State.complete_stale (five : Bool) (n : Nat) : (s.complete five n).stale = s.stale := rfl
@[simp] theorem State.complete_env (five : Bool) (n : Nat) : (s.complete five n).env = s.env := rfl
@[simp] theorem State.complete_cfg (five : Bool) (n : Nat) : (s.complete five n).cfg = s.cfg := rfl

/-! ### What the updates write -/

@[simp] theorem State.setReg_regs (r : Reg) (v : Word) : (s.setReg r v).regs = s.regs.set r v := rfl
@[simp] theorem State.setSr_sr (v : Word) : (s.setSr v).sr = v := rfl
@[simp] theorem State.tick_draws : s.tick.draws = s.draws + 1 := rfl
@[simp] theorem State.drawReg_draws (k : Config.Draw) (sz : Size) (r : Reg) :
    (s.drawReg k sz r).draws = s.draws + 1 := rfl
@[simp] theorem State.drawFlags_draws (k : Config.Draw) : (s.drawFlags k).draws = s.draws + 1 := rfl
@[simp] theorem State.drawFlags_sr (k : Config.Draw) :
    (s.drawFlags k).sr = withFlagBits s.sr ((s.drawn k).setWidth 4) := rfl
@[simp] theorem State.writeCell_mem (k : Nat) (v : Byte) : (s.writeCell k v).mem = memWrite s.mem k v := rfl
@[simp] theorem State.raiseAddressError_addrErrPending : s.raiseAddressError.addrErrPending = true := rfl
@[simp] theorem State.raiseAddressError_addrErrDetected : s.raiseAddressError.addrErrDetected = true := rfl
@[simp] theorem State.advance_cp (n : Nat) : (s.advance n).cp = (s.codeAddress n).1 := rfl
@[simp] theorem State.advance_pc (n : Nat) : (s.advance n).pc = (s.codeAddress n).2 := rfl
@[simp] theorem State.complete_cp (five : Bool) (n : Nat) : (s.complete five n).cp = (s.codeAddress n).1 := rfl
@[simp] theorem State.complete_pc (five : Bool) (n : Nat) : (s.complete five n).pc = (s.codeAddress n).2 := rfl
@[simp] theorem State.finish_lastWasInstruction (five : Bool) : (s.finish five).lastWasInstruction = true := rfl
@[simp] theorem State.finish_addrErrDetected (five : Bool) : (s.finish five).addrErrDetected = false := rfl
@[simp] theorem State.complete_lastWasInstruction (five : Bool) (n : Nat) :
    (s.complete five n).lastWasInstruction = true := rfl
@[simp] theorem State.complete_addrErrDetected (five : Bool) (n : Nat) :
    (s.complete five n).addrErrDetected = false := rfl
theorem State.finish_defer (five : Bool) :
    (s.finish five).defer = (five || (s.addrErrDetected && (s.drawn .addrErrExtra).getLsbD 0)) := rfl
theorem State.complete_defer (five : Bool) (n : Nat) :
    (s.complete five n).defer = (five || (s.addrErrDetected && (s.drawn .addrErrExtra).getLsbD 0)) := rfl

/-! ### Registers -/

@[simp] theorem Regs.get_set_same (rf : Regs) (r : Reg) (v : Word) : (rf.set r v).get r = v := by
  cases r <;> rfl

theorem Regs.get_set_other (rf : Regs) {r d : Reg} (v : Word) (h : r ≠ d) : (rf.set d v).get r = rf.get r := by
  cases r <;> cases d <;> first | rfl | exact absurd rfl h

theorem Regs.get_set (rf : Regs) (r d : Reg) (v : Word) :
    (rf.set d v).get r = if r = d then v else rf.get r := by
  by_cases h : r = d
  · subst h; simp
  · simp [h, Regs.get_set_other]

@[simp] theorem State.reg_setReg (r d : Reg) (v : Word) :
    (s.setReg d v).reg r = if r = d then v else s.reg r := Regs.get_set s.regs r d v

@[simp] theorem State.reg_writeReg (sz : Size) (r d : Reg) (v : Word) :
    (s.writeReg sz d v).reg r = if r = d then merge sz (s.reg d) v else s.reg r := State.reg_setReg s r d _

@[simp] theorem State.reg_drawReg (k : Config.Draw) (sz : Size) (r d : Reg) :
    (s.drawReg k sz d).reg r = if r = d then merge sz (s.reg d) (s.drawn k) else s.reg r :=
  State.reg_writeReg s.tick sz r d _

@[simp] theorem State.reg_setSr (v : Word) (r : Reg) : (s.setSr v).reg r = s.reg r := rfl
@[simp] theorem State.reg_tick (r : Reg) : s.tick.reg r = s.reg r := rfl
@[simp] theorem State.reg_drawFlags (k : Config.Draw) (r : Reg) : (s.drawFlags k).reg r = s.reg r := rfl
@[simp] theorem State.reg_markStored (k : Nat) (r : Reg) : (s.markStored k).reg r = s.reg r := rfl
@[simp] theorem State.reg_writeCell (k : Nat) (v : Byte) (r : Reg) : (s.writeCell k v).reg r = s.reg r := rfl
@[simp] theorem State.reg_raiseAddressError (r : Reg) : s.raiseAddressError.reg r = s.reg r := rfl
@[simp] theorem State.reg_registerStore (o : BitVec 7) (v : Byte) (r : Reg) :
    (s.registerStore o v).reg r = s.reg r := rfl
@[simp] theorem State.reg_finish (five : Bool) (r : Reg) : (s.finish five).reg r = s.reg r := rfl
@[simp] theorem State.reg_complete (five : Bool) (n : Nat) (r : Reg) : (s.complete five n).reg r = s.reg r := rfl

theorem State.sp_def : s.sp = s.reg .r7 := rfl

/-! ### Outcomes -/

@[simp] theorem andThen_next {α β : Type} (a : α) (f : α → Host.Outcome β Fault Refusal) :
    andThen (.next a) f = f a := rfl

@[simp] theorem andThen_fault {α β : Type} (r : Fault) (f : α → Host.Outcome β Fault Refusal) :
    andThen (.fault r) f = .fault r := rfl

@[simp] theorem andThen_refused {α β : Type} (r : Refusal) (f : α → Host.Outcome β Fault Refusal) :
    andThen (.refused r) f = .refused r := rfl

/-- A chain answers next only through a next of its first part. -/
theorem andThen_eq_next {α β : Type} {o : Host.Outcome α Fault Refusal}
    {f : α → Host.Outcome β Fault Refusal} {b : β} :
    andThen o f = .next b ↔ ∃ a, o = .next a ∧ f a = .next b := by
  cases o <;> simp

end Sys2Proof.Machine
end

