-- ==== Sys2Proof/Laws/Memory.lean ====
section
/-! SUPPORT. The laws of storage: the canonical form is kept, and a read after a write. -/

namespace Sys2Proof.Machine

theorem Memory.wfAbove_mono {m : List Host.Cell} {a b : Nat} (hab : a ≤ b) (h : Memory.wfAbove b m = true) :
    Memory.wfAbove a m = true := by
  cases m with
  | nil => rfl
  | cons c m =>
    simp only [Memory.wfAbove, Bool.and_eq_true, decide_eq_true_eq] at h ⊢
    exact ⟨⟨by omega, h.1.2⟩, h.2⟩

/-- Below the keys of a canonical list nothing is listed. -/
theorem memRead_below {m : List Host.Cell} {lo a : Nat} (h : Memory.wfAbove lo m = true) (ha : a < lo) :
    memRead m a = unlisted := by
  induction m generalizing lo with
  | nil => rfl
  | cons c m ih =>
    simp only [Memory.wfAbove, Bool.and_eq_true, decide_eq_true_eq] at h
    rw [memRead, if_neg (by omega)]
    exact ih h.2 (by omega)

theorem memWrite_wfAbove {m : List Host.Cell} {lo a : Nat} {v : Byte} (h : Memory.wfAbove lo m = true)
    (ha : lo ≤ a) : Memory.wfAbove lo (memWrite m a v) = true := by
  induction m generalizing lo with
  | nil =>
    rw [memWrite]
    split
    · rfl
    · simp [Memory.wfAbove, *]
  | cons c m ih =>
    obtain ⟨k, w⟩ := c
    have h' := h
    simp only [Memory.wfAbove, Bool.and_eq_true, decide_eq_true_eq] at h
    rw [memWrite]
    split
    · split
      · exact h'
      · simp only [Memory.wfAbove, Bool.and_eq_true, decide_eq_true_eq]
        exact ⟨⟨ha, by assumption⟩, ⟨by omega, h.1.2⟩, h.2⟩
    · split
      · split
        · exact Memory.wfAbove_mono (by omega) h.2
        · simp only [Memory.wfAbove, Bool.and_eq_true, decide_eq_true_eq]
          exact ⟨⟨ha, by assumption⟩, by subst_vars; exact h.2⟩
      · simp only [Memory.wfAbove, Bool.and_eq_true, decide_eq_true_eq]
        exact ⟨⟨h.1.1, h.1.2⟩, ih h.2 (by omega)⟩

/-- Every write keeps the canonical form. -/
theorem memWrite_wf {m : List Host.Cell} (a : Nat) (v : Byte) (h : Memory.wf m = true) :
    Memory.wf (memWrite m a v) = true := memWrite_wfAbove h (Nat.zero_le a)

/-- A write leaves every other byte alone. -/
theorem memRead_memWrite_other (m : List Host.Cell) {a b : Nat} (v : Byte) (h : b ≠ a) :
    memRead (memWrite m a v) b = memRead m b := by
  induction m with
  | nil => simp only [memWrite]; split <;> simp [memRead, h]
  | cons c m ih =>
    obtain ⟨k, w⟩ := c
    rw [memWrite]
    split
    · split
      · rfl
      · simp [memRead, h]
    · split
      · subst_vars
        split <;> simp [memRead, h]
      · simp [memRead, ih]

theorem memRead_memWrite_same {m : List Host.Cell} (a : Nat) (v : Byte) (h : Memory.wf m = true) :
    memRead (memWrite m a v) a = v := by
  suffices H : ∀ lo, Memory.wfAbove lo m = true → memRead (memWrite m a v) a = v from H 0 h
  clear h
  induction m with
  | nil => intro _ _; simp only [memWrite]; split <;> simp [memRead, *]
  | cons c m ih =>
    obtain ⟨k, w⟩ := c
    intro lo h
    have h' := h
    simp only [Memory.wfAbove, Bool.and_eq_true, decide_eq_true_eq] at h
    rw [memWrite]
    split
    · split
      · next hk hv =>
        subst hv
        rw [memRead, if_neg (by omega)]
        exact memRead_below h.2 (by omega)
      · simp [memRead]
    · split
      · split
        · next hk hv =>
          subst hv
          subst_vars
          exact memRead_below h.2 (by omega)
        · simp [memRead]
      · next h1 h2 =>
        rw [memRead, if_neg h2]
        exact ih (k + 1) h.2

/-- A read after a write, in canonical storage. -/
theorem memRead_memWrite {m : List Host.Cell} (a b : Nat) (v : Byte) (h : Memory.wf m = true) :
    memRead (memWrite m a v) b = if b = a then v else memRead m b := by
  split
  · subst_vars; exact memRead_memWrite_same _ v h
  · next hb => exact memRead_memWrite_other m v hb

end Sys2Proof.Machine
end

