-- ==== Sys2Proof/Laws/Access.lean ====
section
/-! SUPPORT. Regions, loads, stores and operands: what each access can do, said once. -/

namespace Sys2Proof.Machine

/-! ### Regions depend on the mode, RAME and the parameters alone -/

theorem State.busAddress_congr {s t : State} (h : t.mode = s.mode) (p : Byte) (o : Word) :
    t.busAddress p o = s.busAddress p o := by simp only [State.busAddress, h]

theorem State.region_congr {s t : State} (hm : t.mode = s.mode) (hr : t.rame = s.rame) (hc : t.cfg = s.cfg)
    (p : Byte) (o : Word) : t.region p o = s.region p o := by
  simp only [State.region, State.busAddress, hm, hr, hc]

variable (s : State)

@[simp] theorem State.region_setReg (r : Reg) (v : Word) (p : Byte) (o : Word) :
    (s.setReg r v).region p o = s.region p o := rfl
@[simp] theorem State.busAddress_setReg (r : Reg) (v : Word) (p : Byte) (o : Word) :
    (s.setReg r v).busAddress p o = s.busAddress p o := rfl
@[simp] theorem State.region_writeReg (sz : Size) (r : Reg) (v : Word) (p : Byte) (o : Word) :
    (s.writeReg sz r v).region p o = s.region p o := rfl
@[simp] theorem State.busAddress_writeReg (sz : Size) (r : Reg) (v : Word) (p : Byte) (o : Word) :
    (s.writeReg sz r v).busAddress p o = s.busAddress p o := rfl
@[simp] theorem State.region_setSr (v : Word) (p : Byte) (o : Word) :
    (s.setSr v).region p o = s.region p o := rfl
@[simp] theorem State.busAddress_setSr (v : Word) (p : Byte) (o : Word) :
    (s.setSr v).busAddress p o = s.busAddress p o := rfl
@[simp] theorem State.region_tick (p : Byte) (o : Word) :
    (s.tick).region p o = s.region p o := rfl
@[simp] theorem State.busAddress_tick (p : Byte) (o : Word) :
    (s.tick).busAddress p o = s.busAddress p o := rfl
@[simp] theorem State.region_markStored (k : Nat) (p : Byte) (o : Word) :
    (s.markStored k).region p o = s.region p o := rfl
@[simp] theorem State.busAddress_markStored (k : Nat) (p : Byte) (o : Word) :
    (s.markStored k).busAddress p o = s.busAddress p o := rfl
@[simp] theorem State.region_writeCell (k : Nat) (v : Byte) (p : Byte) (o : Word) :
    (s.writeCell k v).region p o = s.region p o := rfl
@[simp] theorem State.busAddress_writeCell (k : Nat) (v : Byte) (p : Byte) (o : Word) :
    (s.writeCell k v).busAddress p o = s.busAddress p o := rfl
@[simp] theorem State.region_raiseAddressError (p : Byte) (o : Word) :
    (s.raiseAddressError).region p o = s.region p o := rfl
@[simp] theorem State.busAddress_raiseAddressError (p : Byte) (o : Word) :
    (s.raiseAddressError).busAddress p o = s.busAddress p o := rfl
@[simp] theorem State.region_complete (five : Bool) (n : Nat) (p : Byte) (o : Word) :
    (s.complete five n).region p o = s.region p o := rfl
@[simp] theorem State.busAddress_complete (five : Bool) (n : Nat) (p : Byte) (o : Word) :
    (s.complete five n).busAddress p o = s.busAddress p o := rfl
@[simp] theorem State.region_finish (five : Bool) (p : Byte) (o : Word) :
    (s.finish five).region p o = s.region p o := rfl
@[simp] theorem State.busAddress_finish (five : Bool) (p : Byte) (o : Word) :
    (s.finish five).busAddress p o = s.busAddress p o := rfl

theorem State.busAddress_lt (p : Byte) (o : Word) : s.busAddress p o < 0x1000000 := by
  have hp := p.isLt
  have ho := o.isLt
  simp only [State.busAddress, busAddressIn]
  split
  · omega
  · omega

/-- The storage byte a region leads to, if any. -/
def Region.key : Region → Option Nat
  | .cell k | .rom k | .disabled k => some k
  | .error k => k
  | .register _ | .vacant | .absent => none

/-- A storage key is the address, or the address behind the on-chip RAM area. -/
theorem State.region_key {s : State} {p : Byte} {o : Word} {k : Nat} (h : (s.region p o).key = some k) :
    k = s.busAddress p o ∨ (k = s.busAddress p o + 0x1000000 ∧ s.busAddress p o ≤ 0xFFFF) := by
  revert h
  simp only [State.region, regionIn, externalRegion, behindRam]
  intro h
  split_ifs at h <;> simp only [Region.key, Option.some.injEq, reduceCtorEq] at h <;>
    first | exact .inl h.symm | exact .inr ⟨h.symm, by omega⟩

/-- Different addresses lead to different storage bytes. -/
theorem State.region_key_injective {s : State} {p p' : Byte} {o o' : Word} {k : Nat}
    (h : (s.region p o).key = some k) (h' : (s.region p' o').key = some k) :
    s.busAddress p o = s.busAddress p' o' := by
  have h1 := s.busAddress_lt p o
  have h2 := s.busAddress_lt p' o'
  rcases State.region_key h with h | ⟨h, -⟩ <;> rcases State.region_key h' with h' | ⟨h', -⟩ <;> omega

/-- No storage key lies in the register field. -/
theorem State.region_key_register {s : State} {p : Byte} {o : Word} {k : Nat}
    (h : (s.region p o).key = some k) : ¬(0xFF80 ≤ k ∧ k ≤ 0xFFFF) := by
  revert h
  simp only [State.region, regionIn, externalRegion, behindRam]
  intro h
  split_ifs at h <;> simp only [Region.key, Option.some.injEq, reduceCtorEq] at h <;> omega

theorem Memory.noRegisterField_memWrite {m : List Host.Cell} {k : Nat} (v : Byte)
    (hk : ¬(0xFF80 ≤ k ∧ k ≤ 0xFFFF)) (h : Memory.noRegisterField m) :
    Memory.noRegisterField (memWrite m k v) := by
  intro a h1 h2
  rw [memRead_memWrite_other m v (by rintro rfl; exact hk ⟨h1, h2⟩)]
  exact h a h1 h2

/-! ### The register field -/

/-- What replacing a field does to each bit. -/
theorem getLsbD_placeBits (b : Byte) (lo n : Nat) (v : Byte) {j : Nat} (hj : j < 8) :
    (placeBits b lo n v).getLsbD j = if lo ≤ j ∧ j < lo + n then v.getLsbD (j - lo) else b.getLsbD j := by
  simp only [placeBits, BitVec.getLsbD_or, BitVec.getLsbD_and, BitVec.getLsbD_not, BitVec.getLsbD_shiftLeft,
    BitVec.getLsbD_ofNat, Nat.testBit_two_pow_sub_one, hj]
  by_cases h1 : j < lo
  · rw [if_neg (by omega)]
    simp [h1]
  · have h8 : j - lo < 8 := by omega
    by_cases h2 : j - lo < n
    · rw [if_pos (by omega)]
      simp [h1, h2, h8]
    · rw [if_neg (by omega)]
      simp [h1, h2]

/-- A field put in place among others that it does not overlap is there in the end. -/
theorem getLsbD_foldl_placeBits (l : List Field) (b : Byte) (f : Field) (hf : f.lo + f.width ≤ 8)
    (hd : ∀ g ∈ l, g = f ∨ g.lo + g.width ≤ f.lo ∨ f.lo + f.width ≤ g.lo) {i : Nat} (hi : i < f.width) :
    (l.foldl (fun b f => placeBits b f.lo f.width f.value) b).getLsbD (f.lo + i) =
      if f ∈ l then f.value.getLsbD i else b.getLsbD (f.lo + i) := by
  induction l generalizing b with
  | nil => simp
  | cons g l ih =>
    rw [List.foldl_cons, ih _ fun g hg => hd g (List.mem_cons_of_mem _ hg), getLsbD_placeBits _ _ _ _ (by omega)]
    by_cases hm : f ∈ l
    · simp [hm]
    · rcases hd g List.mem_cons_self with rfl | h
      · simp [hm]; omega
      · have : f ≠ g := by rintro rfl; omega
        rw [if_neg hm, if_neg (by omega), if_neg (by simp [this, hm])]

/-- A loaded byte of the register field shows its fields. -/
theorem State.byteShows_registerLoad (s : State) (o : BitVec 7) : s.byteShows o (s.registerLoad o) := by
  intro f hf h8 hd i hi
  rw [State.registerLoad, getLsbD_foldl_placeBits _ _ f h8 hd hi, if_pos hf]

/-! ### What an access can change -/

/-- A byte that is marked is stale from then on, and no other becomes so. -/
theorem State.mem_stale_markStored {s : State} {k j : Nat} : j ∈ (s.markStored k).stale ↔ j = k ∨ j ∈ s.stale := by
  show j ∈ (if k ∈ s.stale then s.stale else k :: s.stale) ↔ _
  split
  · next h => exact ⟨.inr, by rintro (rfl | h'); exacts [h, h']⟩
  · exact List.mem_cons

theorem State.mem_stale_writeCell {s : State} {k j : Nat} {v : Byte} :
    j ∈ (s.writeCell k v).stale ↔ j = k ∨ j ∈ s.stale := State.mem_stale_markStored

/-- A store, made or not, makes the byte at its address stale and no other. -/
theorem drawByteAt_stale {p : Byte} {o : Word} {s : State} {j : Nat} :
    j ∈ (drawByteAt p o s).stale ↔ j = s.byteKey p o ∨ j ∈ s.stale := by
  unfold drawByteAt State.byteKey
  split <;> exact State.mem_stale_markStored

theorem storeByte_stale {p : Byte} {o : Word} {v : Byte} {s : State} {w : Stored} {j : Nat}
    (h : storeByte p o v s = .next w) : j ∈ w.state.stale ↔ j = s.byteKey p o ∨ j ∈ s.stale := by
  unfold storeByte at h
  split at h <;> cases h
  case h_5 k hr => exact drawByteAt_stale
  all_goals next hr => simp only [State.byteKey, hr]; exact State.mem_stale_markStored

/-- The fields that an access can change beside the two address-error flags. -/
structure Changes where
  mem : List Host.Cell
  stale : List Nat
  draws : Nat
  mds : BitVec 3
  rame : Bool
  level : Vector (BitVec 3) 21
  dte : Vector Bool 21

def State.changed (s : State) (c : Changes) : State :=
  { s with
    mem := c.mem, stale := c.stale, draws := c.draws, mds := c.mds, rame := c.rame, level := c.level, dte := c.dte }

/-- The fields of a state that an access can change, as they stand. -/
def State.changes (t : State) : Changes := ⟨t.mem, t.stale, t.draws, t.mds, t.rame, t.level, t.dte⟩

def State.withErrors (s : State) (pending detected : Bool) : State :=
  { s with addrErrPending := pending, addrErrDetected := detected }

/-- Storage stays canonical, with nothing in the register field. -/
structure StorageKept (m m' : List Host.Cell) : Prop where
  wf : Memory.wf m = true → Memory.wf m' = true
  registerField : Memory.noRegisterField m → Memory.noRegisterField m'

theorem StorageKept.refl (m : List Host.Cell) : StorageKept m m := ⟨id, id⟩

theorem StorageKept.trans {a b c : List Host.Cell} (h : StorageKept a b) (h' : StorageKept b c) :
    StorageKept a c := ⟨h'.wf ∘ h.wf, h'.registerField ∘ h.registerField⟩

theorem StorageKept.write {m : List Host.Cell} {k : Nat} (v : Byte) (hk : ¬(0xFF80 ≤ k ∧ k ≤ 0xFFFF)) :
    StorageKept m (memWrite m k v) := ⟨memWrite_wf k v, Memory.noRegisterField_memWrite v hk⟩

/-- How a load leaves the state: the count of draws, and the address-error flags iff it failed. -/
structure LoadKept (s : State) (g : Loaded) : Prop where
  change : ∃ n a d, g.state = ({ s with draws := n } : State).withErrors a d ∧
    (g.value.isSome = true → a = s.addrErrPending ∧ d = s.addrErrDetected) ∧
    (g.value = none → a = true ∧ d = true)

/-- How a store leaves the state. -/
structure StoreKept (s : State) (w : Stored) : Prop where
  change : ∃ c a d, w.state = (s.changed c).withErrors a d ∧ StorageKept s.mem c.mem ∧
    (w.made = true → a = s.addrErrPending ∧ d = s.addrErrDetected) ∧
    (w.made = false → a = true ∧ d = true)

theorem loadByte_kept {p : Byte} {o : Word} {s : State} {g : Loaded} (h : loadByte p o s = .next g) :
    LoadKept s g := by
  unfold loadByte at h
  split at h <;> cases h
  · exact ⟨s.draws, s.addrErrPending, s.addrErrDetected, rfl, by simp, by simp⟩
  · exact ⟨s.draws, s.addrErrPending, s.addrErrDetected, rfl, by simp, by simp⟩
  · exact ⟨s.draws + 1, s.addrErrPending, s.addrErrDetected, rfl, by simp, by simp⟩
  · exact ⟨s.draws + 1, s.addrErrPending, s.addrErrDetected, rfl, by simp, by simp⟩
  · exact ⟨s.draws, true, true, rfl, by simp, by simp⟩

theorem joinLoaded_isSome {a b : Option Word} :
    (joinLoaded a b).isSome = true ↔ a.isSome = true ∧ b.isSome = true := by
  cases a <;> cases b <;> simp [joinLoaded]

theorem loadWord_kept {p : Byte} {o : Word} {s : State} {g : Loaded} (h : loadWord p o s = .next g) :
    LoadKept s g := by
  unfold loadWord at h
  split at h
  · cases h; exact ⟨s.draws, true, true, rfl, by simp, by simp⟩
  · obtain ⟨hi, h1, h⟩ := andThen_eq_next.mp h
    obtain ⟨lo, h2, h⟩ := andThen_eq_next.mp h
    cases h
    obtain ⟨n1, a1, d1, e1, s1, f1⟩ := (loadByte_kept h1).change
    obtain ⟨n2, a2, d2, e2, s2, f2⟩ := (loadByte_kept h2).change
    refine ⟨n2, a2, d2, by rw [e2, e1]; rfl, ?_, ?_⟩
    · intro h
      obtain ⟨hh, hl⟩ := joinLoaded_isSome.mp h
      obtain ⟨rfl, rfl⟩ := s1 hh
      have := s2 hl
      rw [e1] at this
      exact this
    · intro h
      cases hv : lo.value with
      | none => exact f2 hv
      | some w =>
        have hh : hi.value = none := by
          cases hi' : hi.value with
          | none => rfl
          | some _ => simp [joinLoaded, hi', hv] at h
        obtain ⟨rfl, rfl⟩ := f1 hh
        have := s2 (by simp [hv])
        rw [e1] at this
        exact this

theorem load_kept {sz : Size} {p : Byte} {o : Word} {s : State} {g : Loaded} (h : load sz p o s = .next g) :
    LoadKept s g := by
  cases sz
  · exact loadByte_kept h
  · exact loadWord_kept h

/-- Drawing a byte at a failing address is a change of the kind a store makes. -/
theorem drawByteAt_kept (p : Byte) (o : Word) (s : State) :
    ∃ c, drawByteAt p o s = s.changed c ∧ StorageKept s.mem c.mem := by
  have stored : ∀ {k v}, (s.region p o).key = some k →
      ∃ c, s.tick.writeCell k v = s.changed c ∧ StorageKept s.mem c.mem := fun h =>
    ⟨(s.tick.writeCell _ _).changes, rfl, StorageKept.write _ (State.region_key_register h)⟩
  unfold drawByteAt
  split
  case h_1 k h => exact stored (by rw [h]; rfl)
  case h_2 k h => exact stored (by rw [h]; rfl)
  case h_3 k h => exact stored (by rw [h]; rfl)
  case h_4 k h => exact stored (by rw [h]; rfl)
  case h_5 k h => exact ⟨(s.tick.registerStore k _).markStored (s.busAddress p o) |>.changes, rfl, StorageKept.refl _⟩
  all_goals exact ⟨(s.tick.markStored (s.busAddress p o)).changes, rfl, StorageKept.refl _⟩

theorem storeByte_kept {p : Byte} {o : Word} {v : Byte} {s : State} {w : Stored}
    (h : storeByte p o v s = .next w) : StoreKept s w := by
  unfold storeByte at h
  split at h
  case h_1 k hr =>
    cases h
    exact ⟨(s.writeCell k v).changes, s.addrErrPending, s.addrErrDetected, rfl,
      StorageKept.write _ (State.region_key_register (s := s) (p := p) (o := o) (by rw [hr]; rfl)), by simp, by simp⟩
  case h_2 k hr =>
    cases h
    exact ⟨(s.tick.writeCell k _).changes, s.addrErrPending, s.addrErrDetected, rfl,
      StorageKept.write _ (State.region_key_register (s := s) (p := p) (o := o) (by rw [hr]; rfl)), by simp, by simp⟩
  case h_3 k hr =>
    cases h
    exact ⟨((s.registerStore k v).markStored (s.busAddress p o)).changes, s.addrErrPending, s.addrErrDetected, rfl,
      StorageKept.refl _, by simp, by simp⟩
  case h_4 hr =>
    cases h
    exact ⟨(s.markStored (s.busAddress p o)).changes, s.addrErrPending, s.addrErrDetected, rfl,
      StorageKept.refl _, by simp, by simp⟩
  case h_5 k hr =>
    cases h
    obtain ⟨c, hc, hk⟩ := drawByteAt_kept p o s
    exact ⟨c, true, true, by rw [hc]; rfl, hk, by simp, by simp⟩
  case h_6 => cases h
  case h_7 => cases h

theorem storeWord_kept {p : Byte} {o v : Word} {s : State} {w : Stored}
    (h : storeWord p o v s = .next w) : StoreKept s w := by
  unfold storeWord at h
  split at h
  · cases h
    obtain ⟨c1, h1, k1⟩ := drawByteAt_kept p o s
    obtain ⟨c2, h2, k2⟩ := drawByteAt_kept p (o + 1) (drawByteAt p o s)
    rw [h1] at k2
    exact ⟨c2, true, true, by rw [h2, h1]; rfl, k1.trans k2, by simp, by simp⟩
  · obtain ⟨hi, h1, h⟩ := andThen_eq_next.mp h
    obtain ⟨lo, h2, h⟩ := andThen_eq_next.mp h
    cases h
    obtain ⟨c1, a1, d1, e1, k1, s1, f1⟩ := (storeByte_kept h1).change
    obtain ⟨c2, a2, d2, e2, k2, s2, f2⟩ := (storeByte_kept h2).change
    rw [e1] at k2
    refine ⟨c2, a2, d2, by rw [e2, e1]; rfl, k1.trans k2, ?_, ?_⟩
    · intro h
      obtain ⟨hh, hl⟩ := (Bool.and_eq_true _ _).mp h
      obtain ⟨rfl, rfl⟩ := s1 hh
      have := s2 hl
      rw [e1] at this
      exact this
    · intro h
      cases hm : lo.made with
      | false => exact f2 hm
      | true =>
        have hh : hi.made = false := by simpa [hm] using h
        obtain ⟨rfl, rfl⟩ := f1 hh
        have := s2 hm
        rw [e1] at this
        exact this

theorem store_kept {sz : Size} {p : Byte} {o v : Word} {s : State} {w : Stored}
    (h : store sz p o v s = .next w) : StoreKept s w := by
  cases sz
  · exact storeByte_kept h
  · exact storeWord_kept h

/-! ### Accesses to storage -/

theorem State.readableAt_iff {s : State} {p : Byte} {o : Word} :
    s.readableAt p o = true ↔ ∃ k, s.region p o = .cell k ∨ s.region p o = .rom k := by
  unfold State.readableAt
  cases s.region p o <;> simp

theorem State.writableAt_iff {s : State} {p : Byte} {o : Word} :
    s.writableAt p o = true ↔ ∃ k, s.region p o = .cell k := by
  unfold State.writableAt
  cases s.region p o <;> simp

theorem loadByte_storage {p : Byte} {o : Word} {s : State} (h : s.readableAt p o = true) :
    loadByte p o s = .next ⟨some ((s.byteAt p o).setWidth 16), s⟩ := by
  obtain ⟨k, h | h⟩ := State.readableAt_iff.mp h <;> simp [loadByte, State.byteAt, h]

theorem lowerByte_setWidth (b : Byte) : lowerByte (b.setWidth 16) = b := by
  apply BitVec.eq_of_toNat_eq
  simp only [lowerByte, BitVec.extractLsb'_toNat, BitVec.toNat_setWidth, Nat.shiftRight_zero]
  have := b.isLt
  omega

theorem loadWord_storage {p : Byte} {o : Word} {s : State} (h : s.readableFor .word p o = true) :
    loadWord p o s = .next ⟨some (s.wordAt p o), s⟩ := by
  simp only [State.readableFor, Bool.and_eq_true, Bool.not_eq_true'] at h
  simp only [loadWord, h.1.1, Bool.false_eq_true, if_false, loadByte_storage h.1.2, andThen_next,
    loadByte_storage h.2, joinLoaded, State.wordAt, lowerByte_setWidth]

theorem load_storage {sz : Size} {p : Byte} {o : Word} {s : State} (h : s.readableFor sz p o = true) :
    load sz p o s = .next ⟨some (s.valueAt sz p o), s⟩ := by
  cases sz
  · exact loadByte_storage h
  · exact loadWord_storage h

theorem storeByte_storage {p : Byte} {o : Word} {v : Byte} {s : State} {k : Nat} (h : s.region p o = .cell k) :
    storeByte p o v s = .next ⟨true, s.writeCell k v⟩ := by
  simp [storeByte, h]

theorem storeWord_storage {p : Byte} {o v : Word} {s : State} {k k' : Nat} (he : isOdd o = false)
    (h : s.region p o = .cell k) (h' : s.region p (o + 1) = .cell k') :
    storeWord p o v s = .next ⟨true, (s.writeCell k (upperByte v)).writeCell k' (lowerByte v)⟩ := by
  have h'' : (s.writeCell k (upperByte v)).region p (o + 1) = .cell k' := h'
  simp only [storeWord, he, Bool.false_eq_true, if_false, storeByte_storage h, andThen_next,
    storeByte_storage h'', Bool.and_self]

/-- Reading a byte after a storage byte was written. -/
theorem State.byteAt_writeCell {s : State} {p p' : Byte} {o o' : Word} {k : Nat} {v : Byte}
    (hwf : Memory.wf s.mem = true) (h : s.region p o = .cell k) :
    (s.writeCell k v).byteAt p' o' =
      if s.busAddress p' o' = s.busAddress p o then v else s.byteAt p' o' := by
  have hreg : (s.writeCell k v).region p' o' = s.region p' o' := rfl
  have key : (s.region p o).key = some k := by rw [h]; rfl
  split
  · next heq =>
    have hr : s.region p' o' = s.region p o := by simp only [State.region, heq]
    simp only [State.byteAt, hreg, hr, h, State.writeCell_mem, memRead_memWrite_same k v hwf]
  · next hne =>
    simp only [State.byteAt, hreg, State.writeCell_mem]
    split
    all_goals first
      | rfl
      | (next k' hk' =>
          exact memRead_memWrite_other _ _ (by
            rintro rfl
            exact hne (State.region_key_injective (by rw [hk']; rfl) key)))

/-! ### What a stored byte reaches -/

/-- The register field is where its addresses are, in every mode. -/
theorem State.region_register {s : State} {p : Byte} {o : Word} {q : BitVec 7} :
    s.region p o = .register q ↔ s.busAddress p o = fieldAddress q := by
  have hq := q.isLt
  simp only [State.region, regionIn, externalRegion, fieldAddress]
  generalize s.busAddress p o = a
  constructor
  · intro h
    split_ifs at h
    rw [← Region.register.inj h, BitVec.toNat_ofNat]
    omega
  · intro h
    rw [if_neg (by omega), if_pos (by omega), h, Nat.add_sub_cancel_left, BitVec.ofNat_toNat, BitVec.setWidth_eq]

/-- What lies at an address outside the on-chip RAM area does not depend on RAME. -/
theorem State.region_outsideRam {s t : State} {p : Byte} {o : Word} (hm : t.mode = s.mode) (hc : t.cfg = s.cfg)
    (h : t.rame = s.rame ∨ ¬(0xFB80 ≤ s.busAddress p o ∧ s.busAddress p o ≤ 0xFF7F)) :
    t.region p o = s.region p o := by
  rcases h with h | h
  · exact State.region_congr hm h hc p o
  · simp only [State.region, State.busAddress_congr hm, hm, hc]
    unfold regionIn
    split_ifs <;> first | rfl | omega

/-- The control fields are as they were. -/
structure ControlsKept (s t : State) : Prop where
  rame : t.rame = s.rame
  mds : t.mds = s.mds
  level : t.level = s.level
  dte : t.dte = s.dte

theorem drawByteAt_controls {p : Byte} {o : Word} {s : State} (hn : ∀ q, s.region p o ≠ .register q) :
    ControlsKept s (drawByteAt p o s) := by
  unfold drawByteAt
  cases hr : s.region p o with
  | register q => exact absurd hr (hn q)
  | error k => cases k <;> exact ⟨rfl, rfl, rfl, rfl⟩
  | _ => exact ⟨rfl, rfl, rfl, rfl⟩

/-- A store outside the register field leaves the control fields. -/
theorem storeByte_controls_kept {p : Byte} {o : Word} {v : Byte} {s : State} {w : Stored}
    (h : storeByte p o v s = .next w) (hn : ∀ q, s.region p o ≠ .register q) : ControlsKept s w.state := by
  unfold storeByte at h
  split at h
  case h_3 q hq => exact absurd hq (hn q)
  case h_5 => cases h; exact ⟨(drawByteAt_controls hn).1, (drawByteAt_controls hn).2, (drawByteAt_controls hn).3, (drawByteAt_controls hn).4⟩
  all_goals cases h
  all_goals exact ⟨rfl, rfl, rfl, rfl⟩

theorem fieldAddress_inj {q q' : BitVec 7} : fieldAddress q = fieldAddress q' ↔ q' = q :=
  ⟨fun e => BitVec.eq_of_toNat_eq (by unfold fieldAddress at e; omega), fun e => by rw [e]⟩

theorem getVector_ofFn {α : Type} {n : Nat} (f : Fin n → α) (j : Fin n) : (Vector.ofFn f).get j = f j := by
  simp [Vector.get]
  rfl

/-- A stored byte reaches the control fields that lie at its address, and no other. -/
theorem storeByte_controls {p : Byte} {o : Word} {v : Byte} {s : State} {w : Stored}
    (h : storeByte p o v s = .next w) :
    w.state.rame = (if s.busAddress p o = fieldAddress s.cfg.registers.ramcr then v.getLsbD s.cfg.registers.rameBit
      else s.rame) ∧
    (∀ j, w.state.level.get j =
      if s.busAddress p o = fieldAddress (s.cfg.registers.ipr.get (s.cfg.registers.levelAt.get j).1)
      then v.extractLsb' (s.cfg.registers.levelAt.get j).2 3 else s.level.get j) ∧
    (∀ j, w.state.dte.get j =
      if s.busAddress p o = fieldAddress (s.cfg.registers.dte.get (s.cfg.registers.dteAt.get j).1)
      then v.getLsbD (s.cfg.registers.dteAt.get j).2 else s.dte.get j) ∧
    (s.busAddress p o ≠ fieldAddress s.cfg.registers.mdcr → w.state.mds = s.mds) := by
  by_cases hq : ∃ q, s.region p o = .register q
  · obtain ⟨q, hq⟩ := hq
    simp only [storeByte, hq, Host.Outcome.next.injEq] at h
    subst h
    simp only [State.region_register.mp hq, fieldAddress_inj, ne_eq]
    exact ⟨rfl, fun j => getVector_ofFn _ j, fun j => getVector_ofFn _ j, fun hn => if_neg hn⟩
  · have hn : ∀ q, s.region p o ≠ .register q := fun q e => hq ⟨q, e⟩
    have ha : ∀ q, s.busAddress p o ≠ fieldAddress q := fun q e => hn q (State.region_register.mpr e)
    obtain ⟨h1, h2, h3, h4⟩ := storeByte_controls_kept h hn
    simp only [ha, if_false, h1, h2, h3, h4, implies_true, and_self]

/-- A stored byte reaches no storage byte but the one at its address, and is there if that can be written. -/
theorem storeByte_memory {p : Byte} {o : Word} {v : Byte} {s : State} {w : Stored}
    (h : storeByte p o v s = .next w) :
    (∀ k, (s.region p o).key ≠ some k → memRead w.state.mem k = memRead s.mem k) ∧
    (∀ k, s.region p o = .cell k → Memory.wf s.mem = true → memRead w.state.mem k = v) := by
  unfold storeByte at h
  split at h
  case h_1 k hr =>
    cases h
    rw [hr]
    exact ⟨fun j hj => memRead_memWrite_other _ _ fun e => hj (by rw [e]; rfl),
      fun j hj hw => by cases hj; exact memRead_memWrite_same _ _ hw⟩
  case h_2 k hr =>
    cases h
    rw [hr]
    exact ⟨fun j hj => memRead_memWrite_other _ _ fun e => hj (by rw [e]; rfl), by simp⟩
  case h_5 k hr =>
    cases h
    cases k with
    | none => simp only [drawByteAt, hr]; exact ⟨fun _ _ => rfl, by simp⟩
    | some k =>
      simp only [drawByteAt, hr]
      exact ⟨fun j hj => memRead_memWrite_other _ _ fun e => hj (by rw [e]; rfl), by simp⟩
  all_goals cases h
  all_goals next hr => rw [hr]; exact ⟨fun _ _ => rfl, by simp⟩

/-- A store changes RAME only through the register field. -/
theorem storeByte_rame {p : Byte} {o : Word} {v : Byte} {s : State} {w : Stored} (h : storeByte p o v s = .next w) :
    (∃ q, s.region p o = .register q) ∨ w.state.rame = s.rame := by
  unfold storeByte at h
  split at h <;> cases h
  · exact .inr rfl
  · exact .inr rfl
  · next q hq => exact .inl ⟨q, hq⟩
  · exact .inr rfl
  · next q hq =>
    refine .inr ?_
    cases q with
    | none => simp only [drawByteAt, hq]; rfl
    | some k => simp only [drawByteAt, hq]; rfl

/-- What lies at the byte after an address of the register field does not depend on RAME. -/
theorem State.region_next {s t : State} {p : Byte} {o : Word} (hm : t.mode = s.mode) (hc : t.cfg = s.cfg)
    (h : (∃ q, s.region p o = .register q) ∨ t.rame = s.rame) : t.region p (o + 1) = s.region p (o + 1) := by
  rcases h with ⟨q, h⟩ | h
  · have h1 : 0xFF80 ≤ s.busAddress p o ∧ s.busAddress p o ≤ 0xFFFF := by
      revert h
      simp only [State.region, regionIn, externalRegion]
      intro h
      split_ifs at h
      omega
    have h2 : 0xFF80 ≤ s.busAddress p (o + 1) ∨ s.busAddress p (o + 1) < 0x8000 := by
      have e : (o + 1).toNat = (o.toNat + 1) % 65536 := by simp [BitVec.toNat_add]
      have := o.isLt
      simp only [State.busAddress, busAddressIn] at h1 ⊢
      cases hcpu : s.mode.cpu <;> simp only [hcpu] at h1 ⊢ <;> omega
    simp only [State.region, State.busAddress_congr hm, hm, hc]
    unfold regionIn
    split_ifs <;> first | rfl | omega
  · exact State.region_congr hm h hc _ _

theorem ControlsKept.trans {s t u : State} (h : ControlsKept s t) (h' : ControlsKept t u) : ControlsKept s u :=
  ⟨h'.rame.trans h.rame, h'.mds.trans h.mds, h'.level.trans h.level, h'.dte.trans h.dte⟩

theorem drawByteAt_memory {p : Byte} {o : Word} {s : State} {k : Nat} (hk : (s.region p o).key ≠ some k) :
    memRead (drawByteAt p o s).mem k = memRead s.mem k := by
  unfold drawByteAt
  cases hr : s.region p o with
  | cell j => exact memRead_memWrite_other _ _ fun e => hk (by rw [hr, e]; rfl)
  | rom j => exact memRead_memWrite_other _ _ fun e => hk (by rw [hr, e]; rfl)
  | error j =>
    cases j with
    | none => rfl
    | some j => exact memRead_memWrite_other _ _ fun e => hk (by rw [hr, e]; rfl)
  | register q => rfl
  | vacant => rfl
  | absent => rfl
  | disabled j => exact memRead_memWrite_other _ _ fun e => hk (by rw [hr, e]; rfl)

theorem drawByteAt_rame {p : Byte} {o : Word} {s : State} :
    (∃ q, s.region p o = .register q) ∨ (drawByteAt p o s).rame = s.rame := by
  by_cases h : ∃ q, s.region p o = .register q
  · exact .inl h
  · exact .inr (drawByteAt_controls fun q e => h ⟨q, e⟩).rame

/-- A store of either size, made or not, changes no storage byte but those at the addresses of its bytes, and
where none of these is in the register field no control field. -/
theorem store_reach {sz : Size} {p : Byte} {o v : Word} {s : State} {w : Stored} (h : store sz p o v s = .next w) :
    (∀ k, (s.region p o).key ≠ some k → (sz = .word → (s.region p (o + 1)).key ≠ some k) →
      memRead w.state.mem k = memRead s.mem k) ∧
    ((∀ q, s.region p o ≠ .register q) → (sz = .word → ∀ q, s.region p (o + 1) ≠ .register q) →
      ControlsKept s w.state) := by
  cases sz with
  | byte => exact ⟨fun k h1 _ => (storeByte_memory h).1 k h1, fun h1 _ => storeByte_controls_kept h h1⟩
  | word =>
    simp only [store, storeWord] at h
    split at h
    · cases h
      have hr : (drawByteAt p o s).region p (o + 1) = s.region p (o + 1) := by
        obtain ⟨c, e, -⟩ := drawByteAt_kept p o s
        exact State.region_next (by rw [e]; rfl) (by rw [e]; rfl) drawByteAt_rame
      refine ⟨fun k h1 h2 => ?_, fun h1 h2 => ?_⟩
      · exact (drawByteAt_memory (by rw [hr]; exact h2 rfl)).trans (drawByteAt_memory h1)
      · obtain ⟨c1, c2, c3, c4⟩ := (drawByteAt_controls h1).trans (drawByteAt_controls (by rw [hr]; exact h2 rfl))
        exact ⟨c1, c2, c3, c4⟩
    · obtain ⟨hi, e1, h⟩ := andThen_eq_next.mp h
      obtain ⟨lo, e2, h⟩ := andThen_eq_next.mp h
      cases h
      have hr : hi.state.region p (o + 1) = s.region p (o + 1) := by
        obtain ⟨c, a, d, e, -⟩ := (storeByte_kept e1).change
        exact State.region_next (by rw [e]; rfl) (by rw [e]; rfl) (storeByte_rame e1)
      refine ⟨fun k h1 h2 => ?_, fun h1 h2 => ?_⟩
      · exact ((storeByte_memory e2).1 k (by rw [hr]; exact h2 rfl)).trans ((storeByte_memory e1).1 k h1)
      · show ControlsKept s lo.state
        exact (storeByte_controls_kept e1 h1).trans (storeByte_controls_kept e2 (by rw [hr]; exact h2 rfl))

/-! ### Accesses that raise no address error -/

theorem loadByte_accepted {p : Byte} {o : Word} {s : State} (h : s.acceptsAt p o = true) :
    ∃ v n, loadByte p o s = .next ⟨some v, { s with draws := n }⟩ := by
  unfold State.acceptsAt at h
  unfold loadByte
  cases hr : s.region p o <;> simp only [hr, Bool.false_eq_true] at h ⊢
  · exact ⟨_, s.draws, rfl⟩
  · exact ⟨_, s.draws, rfl⟩
  · exact ⟨_, s.draws + 1, rfl⟩
  · exact ⟨_, s.draws + 1, rfl⟩

theorem load_accepted {sz : Size} {p : Byte} {o : Word} {s : State} (h : s.acceptsFor sz p o = true) :
    ∃ v n, load sz p o s = .next ⟨some v, { s with draws := n }⟩ := by
  cases sz
  · exact loadByte_accepted h
  · simp only [State.acceptsFor, Bool.and_eq_true, Bool.not_eq_true'] at h
    obtain ⟨v, n, e⟩ := loadByte_accepted h.1.2
    obtain ⟨v', n', e'⟩ := loadByte_accepted (s := { s with draws := n }) (p := p) (o := o + 1) h.2
    exact ⟨_, n', by
      simp only [load, loadWord, h.1.1, Bool.false_eq_true, if_false, e, andThen_next, e', joinLoaded]; rfl⟩

theorem storeByte_accepted {p : Byte} {o : Word} (v : Byte) {s : State} (h : s.acceptsAt p o = true) :
    ∃ t, storeByte p o v s = .next ⟨true, t⟩ := by
  unfold State.acceptsAt at h
  unfold storeByte
  cases hr : s.region p o <;> simp only [hr, Bool.false_eq_true] at h ⊢
  all_goals exact ⟨_, rfl⟩

theorem store_accepted {sz : Size} {p : Byte} {o : Word} (v : Word) {s : State} (h : s.acceptsFor sz p o = true) :
    ∃ t, store sz p o v s = .next ⟨true, t⟩ := by
  cases sz
  · exact storeByte_accepted _ h
  · simp only [State.acceptsFor, Bool.and_eq_true, Bool.not_eq_true'] at h
    obtain ⟨t, e⟩ := storeByte_accepted (upperByte v) h.1.2
    obtain ⟨c, a, d, et, -⟩ := (storeByte_kept e).change
    have hr : t.region p (o + 1) = s.region p (o + 1) := by
      refine State.region_next ?_ ?_ (storeByte_rame e) <;> rw [show t = _ from et] <;> rfl
    have h2 : t.acceptsAt p (o + 1) = true := by simpa only [State.acceptsAt, hr] using h.2
    obtain ⟨u, e'⟩ := storeByte_accepted (lowerByte v) h2
    exact ⟨u, by simp only [store, storeWord, h.1.1, Bool.false_eq_true, if_false, e, andThen_next, e', Bool.and_self]⟩

/-! ### Operands -/

theorem State.tickForStore_change (s : State) (sz : Size) (ea : Ea) :
    ∃ n, s.tickForStore sz ea = { s with draws := n } := by
  unfold State.tickForStore
  split
  · exact ⟨_, rfl⟩
  · exact ⟨s.draws, rfl⟩

/-- Reading an operand whose access raises no address error: a value, which is the operand's where it can be
read, and the form's change of its address register. -/
theorem readOperand_accepted {sz : Size} {ea : Ea} {s : State} (h : s.operandAccepted sz ea = true) :
    ∃ v n, readOperand sz ea s = .next ⟨some v, ({ s with draws := n } : State).modify sz ea⟩ ∧
      (s.operandReadable sz ea = true → v = s.operandValue sz ea) := by
  unfold State.operandAccepted at h
  unfold readOperand State.operandReadable State.operandValue
  cases hp : s.place sz ea with
  | register r =>
    cases ea <;> simp [State.place] at hp
    exact ⟨_, s.draws, rfl, fun _ => rfl⟩
  | immediate v => cases ea <;> simp [State.place] at hp <;> exact ⟨_, s.draws, rfl, fun _ => rfl⟩
  | memory p o =>
    rw [hp] at h
    obtain ⟨v, n, e⟩ := load_accepted h
    refine ⟨operandOf sz ea v, n, by simp only [e, andThen_next], fun hr => ?_⟩
    have := load_storage hr
    rw [e] at this
    simp only [Host.Outcome.next.injEq, Loaded.mk.injEq, Option.some.injEq] at this
    rw [this.1]

/-- Writing an operand whose access raises no address error. -/
theorem writeOperand_accepted {sz : Size} {ea : Ea} (v : Word) {s : State} {p : Byte} {o : Word}
    (hp : s.place sz ea = .memory p o) (h : s.operandAccepted sz ea = true) :
    ∃ c, writeOperand sz ea v s = .next ⟨true, (s.changed c).modify sz ea⟩ := by
  rw [State.operandAccepted, hp] at h
  obtain ⟨n, e0⟩ := s.tickForStore_change sz ea
  have h' : (s.tickForStore sz ea).acceptsFor (accessSize sz ea) p o = true := by rw [e0]; exact h
  obtain ⟨t, e⟩ := store_accepted (s.storedWord sz ea v) h'
  obtain ⟨c, a, d, et, -, hs, -⟩ := (store_kept e).change
  obtain ⟨rfl, rfl⟩ := hs rfl
  simp only at et
  rw [e0] at et
  exact ⟨c, by rw [writeOperand, hp]; simp only [e, andThen_next, if_true]; rw [et]; rfl⟩

theorem readOperand_ready {sz : Size} {ea : Ea} {s : State} (h : s.operandReadable sz ea = true) :
    readOperand sz ea s = .next ⟨some (s.operandValue sz ea), s.modify sz ea⟩ := by
  unfold State.operandReadable at h
  unfold readOperand State.operandValue
  cases hp : s.place sz ea with
  | register r =>
    cases ea <;> simp [State.place] at hp
    rfl
  | immediate v => cases ea <;> simp [State.place] at hp <;> rfl
  | memory p o =>
    rw [hp] at h
    simp only [load_storage h, andThen_next]

/-- How reading an operand leaves the state: a load, and a change of the address register. -/
structure ReadKept (s : State) (ea : Ea) (g : Loaded) : Prop where
  change : ∃ n a d rf, g.state = ({ s with draws := n, regs := rf } : State).withErrors a d ∧
    (∀ r, Ea.modified ea ≠ some r → rf.get r = s.regs.get r) ∧
    (g.value.isSome = true → a = s.addrErrPending ∧ d = s.addrErrDetected) ∧
    (g.value = none → a = true ∧ d = true)

theorem State.modify_change (s : State) (sz : Size) (ea : Ea) :
    ∃ rf, s.modify sz ea = { s with regs := rf } ∧ ∀ r, Ea.modified ea ≠ some r → rf.get r = s.regs.get r := by
  cases ea
  case preDec d =>
    exact ⟨_, rfl, fun r h => Regs.get_set_other _ _ (by rintro rfl; exact h rfl)⟩
  case postInc d =>
    exact ⟨_, rfl, fun r h => Regs.get_set_other _ _ (by rintro rfl; exact h rfl)⟩
  all_goals exact ⟨s.regs, rfl, fun _ _ => rfl⟩

theorem State.modifyFailed_change (s : State) (ea : Ea) :
    ∃ n rf, s.modifyFailed ea = { s with draws := n, regs := rf } ∧
      ∀ r, Ea.modified ea ≠ some r → rf.get r = s.regs.get r := by
  cases ea
  case preDec d =>
    exact ⟨_, _, rfl, fun r h => Regs.get_set_other _ _ (by rintro rfl; exact h rfl)⟩
  case postInc d =>
    exact ⟨_, _, rfl, fun r h => Regs.get_set_other _ _ (by rintro rfl; exact h rfl)⟩
  all_goals exact ⟨s.draws, s.regs, rfl, fun _ _ => rfl⟩

theorem readOperand_kept {sz : Size} {ea : Ea} {s : State} {g : Loaded} (h : readOperand sz ea s = .next g) :
    ReadKept s ea g := by
  unfold readOperand at h
  split at h
  · cases h
    exact ⟨s.draws, s.addrErrPending, s.addrErrDetected, s.regs, rfl, fun _ _ => rfl, by simp, by simp⟩
  · cases h
    exact ⟨s.draws, s.addrErrPending, s.addrErrDetected, s.regs, rfl, fun _ _ => rfl, by simp, by simp⟩
  · obtain ⟨l, hl, h⟩ := andThen_eq_next.mp h
    obtain ⟨n, a, d, e, hs, hf⟩ := (load_kept hl).change
    split at h <;> cases h
    · next w hw =>
      obtain ⟨rf, hm, hr⟩ := l.state.modify_change sz ea
      refine ⟨n, a, d, rf, by simp only; rw [hm, e]; rfl, by rw [e] at hr; exact hr, ?_, by simp⟩
      intro _; exact hs (by simp [hw])
    · next hw =>
      obtain ⟨n', rf, hm, hr⟩ := l.state.modifyFailed_change ea
      refine ⟨n', a, d, rf, by simp only; rw [hm, e]; rfl, by rw [e] at hr; exact hr, by simp, ?_⟩
      intro _; exact hf hw

/-- How writing an operand leaves the state. -/
structure WriteKept (s : State) (sz : Size) (ea : Ea) (w : Stored) : Prop where
  change : ∃ c a d rf, w.state = (({ s with regs := rf } : State).changed c).withErrors a d ∧
    StorageKept s.mem c.mem ∧
    (∀ r, Ea.modified ea ≠ some r → s.place sz ea ≠ .register r → rf.get r = s.regs.get r) ∧
    (w.made = true → a = s.addrErrPending ∧ d = s.addrErrDetected) ∧
    (w.made = false → a = true ∧ d = true)

theorem writeOperand_kept {sz : Size} {ea : Ea} {v : Word} {s : State} {w : Stored}
    (h : writeOperand sz ea v s = .next w) : WriteKept s sz ea w := by
  unfold writeOperand at h
  split at h
  · next r hp =>
    cases h
    refine ⟨s.changes, s.addrErrPending, s.addrErrDetected,
      s.regs.set r (merge sz (s.reg r) v), rfl, StorageKept.refl _, ?_, by simp, by simp⟩
    intro r' _ h'
    exact Regs.get_set_other _ _ (by rintro rfl; exact h' hp)
  · cases h
    exact ⟨s.changes, s.addrErrPending, s.addrErrDetected,
      s.regs, rfl, StorageKept.refl _, fun _ _ _ => rfl, by simp, by simp⟩
  · obtain ⟨u, hu, h⟩ := andThen_eq_next.mp h
    obtain ⟨n0, e0⟩ := s.tickForStore_change sz ea
    obtain ⟨c, a, d, e, hk, hs, hf⟩ := (store_kept hu).change
    rw [e0] at e hk hs
    split at h <;> cases h
    · next hm =>
      obtain ⟨rf, he, hr⟩ := u.state.modify_change sz ea
      refine ⟨c, a, d, rf, by simp only; rw [he, e]; rfl, hk, ?_, fun _ => hs hm, by simp⟩
      intro r h _; rw [e] at hr; exact hr r h
    · next hm =>
      obtain ⟨n, rf, he, hr⟩ := u.state.modifyFailed_change ea
      refine ⟨{ c with draws := n }, a, d, rf, by simp only; rw [he, e]; rfl, hk, ?_, by simp, ?_⟩
      · intro r h _; rw [e] at hr; exact hr r h
      · intro _; exact hf (by simpa using hm)

end Sys2Proof.Machine
end

