-- ==== Sys2Proof/Laws/Flags.lean ====
section
/-! SUPPORT. The fields of SR: each accessor after each update, bit by bit. -/

namespace Sys2Proof.Machine

/-- A field replaced, bit by bit. -/
theorem getLsbD_replaceBits (w v : Word) (lo n i : Nat) :
    (replaceBits w lo n v).getLsbD i =
      if i < 16 ∧ lo ≤ i ∧ i < lo + n then v.getLsbD (i - lo) else w.getLsbD i := by
  unfold replaceBits
  simp only [BitVec.getLsbD_or, BitVec.getLsbD_and, BitVec.getLsbD_not, BitVec.getLsbD_shiftLeft,
    BitVec.getLsbD_ofNat, Nat.testBit_two_pow_sub_one]
  by_cases h16 : i < 16
  · by_cases hlo : lo ≤ i
    · by_cases hn : i < lo + n
      · have h1 : i - lo < 16 := by omega
        have h2 : i - lo < n := by omega
        simp [h16, hlo, hn, h1, h2, Nat.not_lt.mpr hlo]
      · have h2 : ¬ i - lo < n := by omega
        simp [h16, hlo, hn, h2]
    · have h3 : i < lo := by omega
      simp [h16, hlo, h3]
  · have : w.getLsbD i = false := BitVec.getLsbD_of_ge w i (by omega)
    simp [h16, this]

theorem getLsbD_bit (b : Bool) (i : Nat) : (bit b).getLsbD i = (b && decide (i = 0)) := by
  cases b
  · simp [bit]
  · simp only [bit, if_true, Bool.true_and]
    rcases i with _ | i
    · rfl
    · simp [BitVec.getLsbD_one]

theorem getLsbD_withTrace (sr : Word) (t : Bool) (i : Nat) :
    (withTrace sr t).getLsbD i = if i = 15 then t else sr.getLsbD i := by
  simp only [withTrace, getLsbD_replaceBits, getLsbD_bit, Config.traceBit]
  by_cases h : i = 15
  · subst h; simp
  · rw [if_neg (by omega), if_neg h]

theorem getLsbD_withMask (sr : Word) (l : BitVec 3) (i : Nat) :
    (withMask sr l).getLsbD i = if 8 ≤ i ∧ i < 11 then l.getLsbD (i - 8) else sr.getLsbD i := by
  simp only [withMask, getLsbD_replaceBits, Config.maskBit, BitVec.getLsbD_setWidth]
  by_cases h : 8 ≤ i ∧ i < 11
  · rw [if_pos (by omega), if_pos h]
    simp only [Bool.and_eq_right_iff_imp, decide_eq_true_eq]
    omega
  · rw [if_neg (by omega), if_neg h]

theorem getLsbD_withFlags (sr : Word) (n z v c : Bool) (i : Nat) :
    (withFlags sr n z v c).getLsbD i =
      if i = 0 then c else if i = 1 then v else if i = 2 then z else if i = 3 then n else sr.getLsbD i := by
  simp only [withFlags, getLsbD_replaceBits, getLsbD_bit, Config.carryBit, Config.overflowBit, Config.zeroBit,
    Config.negativeBit]
  by_cases h0 : i = 0
  · subst h0; simp
  · by_cases h1 : i = 1
    · subst h1; simp
    · by_cases h2 : i = 2
      · subst h2; simp
      · by_cases h3 : i = 3
        · subst h3; simp
        · rw [if_neg (by omega), if_neg (by omega), if_neg (by omega), if_neg (by omega)]
          simp [h0, h1, h2, h3]

@[simp] theorem traceOf_withTrace (sr : Word) (t : Bool) : traceOf (withTrace sr t) = t := by
  rw [traceOf, Config.traceBit, getLsbD_withTrace, if_pos rfl]

@[simp] theorem traceOf_withMask (sr : Word) (l : BitVec 3) : traceOf (withMask sr l) = traceOf sr := by
  rw [traceOf, Config.traceBit, getLsbD_withMask, if_neg (by omega)]
  rfl

@[simp] theorem maskOf_withTrace (sr : Word) (t : Bool) : maskOf (withTrace sr t) = maskOf sr := by
  ext i hi
  simp only [maskOf, Config.maskBit, BitVec.getElem_extractLsb', getLsbD_withTrace]
  rw [if_neg (by omega)]

@[simp] theorem maskOf_withMask (sr : Word) (l : BitVec 3) : maskOf (withMask sr l) = l := by
  ext i hi
  simp only [maskOf, Config.maskBit, BitVec.getElem_extractLsb', getLsbD_withMask]
  rw [if_pos (by omega), Nat.add_sub_cancel_left, BitVec.getLsbD_eq_getElem]

/-- The named bits of SR are the condition codes, I2 to I0 and T. -/
theorem getLsbD_asSr (v : Word) (i : Nat) :
    (asSr v).getLsbD i = (v.getLsbD i && decide (i ≤ 3 ∨ (8 ≤ i ∧ i ≤ 10) ∨ i = 15)) := by
  rw [asSr, BitVec.getLsbD_and]
  congr 1
  by_cases h : i < 16
  · interval_cases i <;> rfl
  · rw [BitVec.getLsbD_of_ge _ i (by omega)]
    simp only [Bool.false_eq, decide_eq_false_iff_not]
    omega

/-- A word keeps the reserved bits at 0 iff every other bit than the named ones is 0. -/
theorem asSr_eq_iff {v : Word} :
    asSr v = v ↔ ∀ i, ¬(i ≤ 3 ∨ (8 ≤ i ∧ i ≤ 10) ∨ i = 15) → v.getLsbD i = false := by
  constructor
  · intro h i hi
    rw [← h, getLsbD_asSr]
    simp [hi]
  · intro h
    apply BitVec.eq_of_getLsbD_eq
    intro i _
    rw [getLsbD_asSr]
    by_cases hi : i ≤ 3 ∨ (8 ≤ i ∧ i ≤ 10) ∨ i = 15
    · simp [hi]
    · simp [hi, h i hi]

theorem asSr_withTrace {sr : Word} (t : Bool) (h : asSr sr = sr) : asSr (withTrace sr t) = withTrace sr t := by
  rw [asSr_eq_iff] at h ⊢
  intro i hi
  rw [getLsbD_withTrace, if_neg (by omega)]
  exact h i hi

theorem asSr_withMask {sr : Word} (l : BitVec 3) (h : asSr sr = sr) : asSr (withMask sr l) = withMask sr l := by
  rw [asSr_eq_iff] at h ⊢
  intro i hi
  rw [getLsbD_withMask, if_neg (by omega)]
  exact h i hi

theorem asSr_withFlags {sr : Word} (n z v c : Bool) (h : asSr sr = sr) :
    asSr (withFlags sr n z v c) = withFlags sr n z v c := by
  rw [asSr_eq_iff] at h ⊢
  intro i hi
  rw [getLsbD_withFlags, if_neg (by omega), if_neg (by omega), if_neg (by omega), if_neg (by omega)]
  exact h i hi

theorem asSr_enterSr {sr : Word} (m : Option (BitVec 3)) (h : asSr sr = sr) :
    asSr (enterSr m sr) = enterSr m sr := by
  cases m
  · exact asSr_withTrace false h
  · exact asSr_withMask _ (asSr_withTrace false h)

/-- A bit of a word put together from two bytes. -/
theorem getLsbD_upper_lower (a b : Word) (i : Nat) :
    (upperByte a ++ lowerByte b : Word).getLsbD i = if i < 8 then b.getLsbD i else a.getLsbD i := by
  rw [BitVec.getLsbD_append]
  split
  · simp [lowerByte, *]
  · simp only [upperByte, BitVec.getLsbD_extractLsb', show 8 + (i - 8) = i by omega]
    by_cases h : i < 16
    · simp [show i - 8 < 8 by omega]
    · rw [BitVec.getLsbD_of_ge a i (by omega), Bool.and_false]

theorem asSr_upper_lower {sr : Word} (v : Word) (h : asSr sr = sr) :
    asSr (upperByte sr ++ lowerByte (asSr v)) = upperByte sr ++ lowerByte (asSr v) := by
  rw [asSr_eq_iff] at h ⊢
  intro i hi
  rw [getLsbD_upper_lower]
  split
  · simp [getLsbD_asSr, hi]
  · exact h i hi

theorem asSr_asSr (v : Word) : asSr (asSr v) = asSr v := by
  simp only [asSr, BitVec.and_assoc, BitVec.and_self]

end Sys2Proof.Machine
end

