-- ==== Sys2Proof/Laws/Sequence.lean ====
section
/-! SUPPORT. Pushes, pops, exception sequences and RTE: if one answers a next state, what it is. -/

namespace Sys2Proof.Machine

/-- How a push leaves the state: SP two lower, storage or the register field written, no address error. -/
theorem pushWord_kept {v : Word} {s t : State} (h : pushWord v s = .next t) :
    ∃ c, t = (s.setReg .r7 (s.sp - 2)).changed c ∧ StorageKept s.mem c.mem := by
  obtain ⟨w, hw, h⟩ := andThen_eq_next.mp h
  obtain ⟨c, a, d, e, hk, hs, -⟩ := (storeWord_kept hw).change
  split at h
  · next hm =>
    obtain ⟨rfl, rfl⟩ := hs hm
    cases h
    exact ⟨c, by rw [e]; rfl, hk⟩
  · cases h

/-- How a pop leaves the state: SP two higher, values drawn. -/
theorem popWord_kept {s : State} {g : Popped} (h : popWord s = .next g) :
    ∃ n, g.state = ({ s with draws := n } : State).setReg .r7 (s.sp + 2) := by
  obtain ⟨l, hl, h⟩ := andThen_eq_next.mp h
  obtain ⟨n, a, d, e, hs, -⟩ := (loadWord_kept hl).change
  split at h
  · next v hv =>
    obtain ⟨rfl, rfl⟩ := hs (by simp [hv])
    cases h
    exact ⟨n, by simp only; rw [e]; rfl⟩
  · cases h

/-- How saving the context leaves the state: only SP among the registers, and what stores change. -/
theorem saveContext_kept {pc : Word} {cp : Byte} {s t : State} (h : saveContext pc cp s = .next t) :
    ∃ c sp, t = (s.setReg .r7 sp).changed c ∧ StorageKept s.mem c.mem ∧
      sp = s.sp - BitVec.ofNat 16 s.frameBytes := by
  unfold saveContext at h
  split at h
  · next hcpu =>
    obtain ⟨t1, h1, h⟩ := andThen_eq_next.mp h
    obtain ⟨c1, rfl, k1⟩ := pushWord_kept h1
    obtain ⟨c2, rfl, k2⟩ := pushWord_kept h
    refine ⟨c2, _, rfl, k1.trans k2, ?_⟩
    simp only [State.frameBytes, hcpu]
    show s.sp - 2 - 2 = _
    bv_omega
  · next hcpu =>
    obtain ⟨t1, h1, h⟩ := andThen_eq_next.mp h
    obtain ⟨t2, h2, h⟩ := andThen_eq_next.mp h
    obtain ⟨c1, rfl, k1⟩ := pushWord_kept h1
    obtain ⟨c2, rfl, k2⟩ := pushWord_kept h2
    obtain ⟨c3, rfl, k3⟩ := pushWord_kept h
    refine ⟨c3, _, rfl, (k1.trans k2).trans k3, ?_⟩
    simp only [State.frameBytes, hcpu]
    show s.sp - 2 - 2 - 2 = _
    bv_omega

/-- How a vector fetch leaves the state: PC and in maximum mode CP loaded, values drawn, the code fetched
afresh. -/
theorem loadVector_kept {index : BitVec 6} {s t : State} (h : loadVector index s = .next t) :
    ∃ n pc cp, t = { s with draws := n, pc := pc, cp := cp, stale := [] } ∧
      (s.mode.cpu = .minimum → cp = s.cp) := by
  unfold loadVector at h
  split at h
  · obtain ⟨g, hg, h⟩ := andThen_eq_next.mp h
    obtain ⟨n, a, d, e, hs, -⟩ := (loadWord_kept hg).change
    split at h
    · next v hv =>
      obtain ⟨rfl, rfl⟩ := hs (by simp [hv])
      cases h
      exact ⟨n, v, s.cp, by rw [e]; rfl, fun _ => rfl⟩
    · cases h
  · next hcpu =>
    obtain ⟨p, hp, h⟩ := andThen_eq_next.mp h
    obtain ⟨g, hg, h⟩ := andThen_eq_next.mp h
    obtain ⟨n1, a1, d1, e1, hs1, -⟩ := (loadByte_kept hp).change
    obtain ⟨n2, a2, d2, e2, hs2, -⟩ := (loadWord_kept hg).change
    split at h
    · next page v hpv hgv =>
      obtain ⟨rfl, rfl⟩ := hs1 (by simp [hpv])
      rw [e1] at hs2
      obtain ⟨rfl, rfl⟩ := hs2 (by simp [hgv])
      cases h
      exact ⟨n2, v, lowerByte page, by rw [e2, e1]; rfl, fun h' => by simp [hcpu] at h'⟩
    · cases h

/-- How a sequence leaves the state: SP, SR, PC and CP, what stores change, and nothing else. -/
theorem exceptionSequence_kept {index : BitVec 6} {pc : Word} {cp : Byte} {m : Option (BitVec 3)}
    {s t : State} (h : exceptionSequence index pc cp m s = .next t) :
    ∃ c sp pc' cp', t = { ((s.setReg .r7 sp).changed c).setSr (enterSr m s.sr) with pc := pc', cp := cp' } ∧
      StorageKept s.mem c.mem ∧ c.stale = [] ∧ sp = s.sp - BitVec.ofNat 16 s.frameBytes ∧
      (s.mode.cpu = .minimum → cp' = s.cp) := by
  obtain ⟨u, hu, h⟩ := andThen_eq_next.mp h
  obtain ⟨c, sp, rfl, hk, hsp⟩ := saveContext_kept hu
  obtain ⟨n, pc', cp', rfl, hcp⟩ := loadVector_kept h
  exact ⟨{ c with draws := n, stale := [] }, sp, pc', cp', rfl, hk, rfl, hsp, hcp⟩

/-- How RTE's pops leave the state (R104): SP, SR, PC and in maximum mode CP. -/
theorem returnFromException_kept {s t : State} (h : returnFromException s = .next t) :
    ∃ n sp sr pc cp, t = { s.setReg .r7 sp with
        draws := n, sr := asSr sr, pc := pc, cp := cp, stale := [] } ∧
      sp = s.sp + BitVec.ofNat 16 s.frameBytes ∧ (s.mode.cpu = .minimum → cp = s.cp) := by
  unfold returnFromException at h
  split at h
  · next hcpu =>
    obtain ⟨a, ha, h⟩ := andThen_eq_next.mp h
    obtain ⟨b, hb, h⟩ := andThen_eq_next.mp h
    obtain ⟨n1, e1⟩ := popWord_kept ha
    obtain ⟨n2, e2⟩ := popWord_kept hb
    cases h
    rw [e1] at e2
    refine ⟨n2, s.sp + 2 + 2, a.value, b.value, s.cp, by rw [e2]; rfl, ?_, fun _ => rfl⟩
    simp only [State.frameBytes, hcpu]
    bv_omega
  · next hcpu =>
    obtain ⟨a, ha, h⟩ := andThen_eq_next.mp h
    obtain ⟨b, hb, h⟩ := andThen_eq_next.mp h
    obtain ⟨c, hc, h⟩ := andThen_eq_next.mp h
    obtain ⟨n1, e1⟩ := popWord_kept ha
    obtain ⟨n2, e2⟩ := popWord_kept hb
    obtain ⟨n3, e3⟩ := popWord_kept hc
    cases h
    rw [e1] at e2
    rw [e2] at e3
    refine ⟨n3, s.sp + 2 + 2 + 2, a.value, c.value, lowerByte b.value, by rw [e3]; rfl, ?_, fun h' => by simp [hcpu] at h'⟩
    simp only [State.frameBytes, hcpu]
    bv_omega

end Sys2Proof.Machine
end

