-- ==== Sys2Proof/Laws/Exec.lean ====
section
/-! SUPPORT. What no instruction touches: if `exec` answers a next state, what it shares with the state
before, whatever the instruction. -/

namespace Sys2Proof.Machine

/-- What is the same, or kept, after every instruction. -/
structure ExecKept (s t : State) : Prop where
  cfg : t.cfg = s.cfg
  mode : t.mode = s.mode
  nmiPending : t.nmiPending = s.nmiPending
  pending : t.pending = s.pending
  dtcActive : t.dtcActive = s.dtcActive
  inReset : t.inReset = s.inReset
  resHigh : t.resHigh = s.resHigh
  modePins : t.modePins = s.modePins
  env : t.env = s.env
  detected : t.addrErrDetected = false
  lastWasInstruction : t.lastWasInstruction = true
  errorPending : s.addrErrPending = true → t.addrErrPending = true
  storage : StorageKept s.mem t.mem
  status : asSr s.sr = s.sr → asSr t.sr = t.sr

theorem ReadKept.pending {s : State} {ea : Ea} {g : Loaded} (h : ReadKept s ea g)
    (hp : s.addrErrPending = true) : g.state.addrErrPending = true := by
  obtain ⟨n, a, d, rf, e, -, hs, hf⟩ := h.change
  rw [e]
  cases hv : g.value with
  | none => exact (hf hv).1
  | some v => exact (hs (by simp [hv])).1.trans hp

theorem WriteKept.pending {s : State} {sz : Size} {ea : Ea} {w : Stored} (h : WriteKept s sz ea w)
    (hp : s.addrErrPending = true) : w.state.addrErrPending = true := by
  obtain ⟨c, a, d, rf, e, -, -, hs, hf⟩ := h.change
  rw [e]
  cases hm : w.made with
  | false => exact (hf hm).1
  | true => exact (hs hm).1.trans hp

/-- What an operand read shares with the state before. -/
structure Between (s t : State) : Prop where
  cfg : t.cfg = s.cfg
  mode : t.mode = s.mode
  nmiPending : t.nmiPending = s.nmiPending
  pending : t.pending = s.pending
  dtcActive : t.dtcActive = s.dtcActive
  inReset : t.inReset = s.inReset
  resHigh : t.resHigh = s.resHigh
  modePins : t.modePins = s.modePins
  env : t.env = s.env
  errorPending : s.addrErrPending = true → t.addrErrPending = true
  storage : StorageKept s.mem t.mem
  status : asSr s.sr = s.sr → asSr t.sr = t.sr

theorem Between.refl (s : State) : Between s s :=
  ⟨rfl, rfl, rfl, rfl, rfl, rfl, rfl, rfl, rfl, id, StorageKept.refl _, id⟩

theorem ReadKept.between {s : State} {ea : Ea} {g : Loaded} (h : ReadKept s ea g) : Between s g.state := by
  have hp := h.pending
  obtain ⟨n, a, d, rf, e, -⟩ := h.change
  rw [e] at hp ⊢
  exact ⟨rfl, rfl, rfl, rfl, rfl, rfl, rfl, rfl, rfl, hp, StorageKept.refl _, id⟩

theorem WriteKept.between {s : State} {sz : Size} {ea : Ea} {w : Stored} (h : WriteKept s sz ea w) :
    Between s w.state := by
  have hp := h.pending
  obtain ⟨c, a, d, rf, e, hk, -⟩ := h.change
  rw [e] at hp ⊢
  exact ⟨rfl, rfl, rfl, rfl, rfl, rfl, rfl, rfl, rfl, hp, hk, id⟩

theorem exceptionSequence_between {index : BitVec 6} {pc : Word} {cp : Byte} {m : Option (BitVec 3)}
    {s t : State} (h : exceptionSequence index pc cp m s = .next t) : Between s t := by
  obtain ⟨c, sp, pc', cp', rfl, hk, -⟩ := exceptionSequence_kept h
  exact ⟨rfl, rfl, rfl, rfl, rfl, rfl, rfl, rfl, rfl, id, hk, asSr_enterSr m⟩

/-- The end of an instruction after a change of registers, page registers, SR and the count of draws. -/
theorem Between.finish {s u : State} (h : Between s u) (five : Bool) : ExecKept s (u.finish five) :=
  ⟨h.cfg, h.mode, h.nmiPending, h.pending, h.dtcActive, h.inReset, h.resHigh, h.modePins, h.env, rfl, rfl,
    h.errorPending, h.storage, h.status⟩

/-- A change of SR, of registers, of the page registers, of PC and of the count of draws. -/
theorem Between.then {s u : State} (h : Between s u) {rf : Regs} {pc sr : Word} {cp tp dp ep br : Byte}
    {n : Nat} {st : List Nat} (hsr : asSr u.sr = u.sr → asSr sr = sr) :
    Between s { u with
      regs := rf, pc := pc, cp := cp, sr := sr, tp := tp, dp := dp, ep := ep, br := br, draws := n,
      stale := st } :=
  ⟨h.cfg, h.mode, h.nmiPending, h.pending, h.dtcActive, h.inReset, h.resHigh, h.modePins, h.env,
    h.errorPending, h.storage, fun e => hsr (h.status e)⟩

theorem asSr_withFlagBits {sr : Word} (b : BitVec 4) (h : asSr sr = sr) :
    asSr (withFlagBits sr b) = withFlagBits sr b := asSr_withFlags _ _ _ _ h

theorem moveToRegister_kept {sz : Size} {ea : Ea} {d : Reg} {s t : State}
    (h : moveToRegister sz ea d s = .next t) : ExecKept s t := by
  obtain ⟨g, hg, h⟩ := andThen_eq_next.mp h
  have hb := (readOperand_kept hg).between
  split at h <;> cases h
  · exact (hb.then (asSr_withFlags _ _ _ _)).finish false
  · exact (hb.then (asSr_withFlagBits _)).finish false

theorem moveFromRegister_kept {sz : Size} {ea : Ea} {r : Reg} {s t : State}
    (h : moveFromRegister sz ea r s = .next t) : ExecKept s t := by
  obtain ⟨w, hw, h⟩ := andThen_eq_next.mp h
  have hb := (writeOperand_kept hw).between
  split at h <;> cases h
  · exact (hb.then (asSr_withFlags _ _ _ _)).finish false
  · exact (hb.then (asSr_withFlagBits _)).finish false

theorem addToRegister_kept {sz : Size} {ea : Ea} {d : Reg} {s t : State}
    (h : addToRegister sz ea d s = .next t) : ExecKept s t := by
  obtain ⟨g, hg, h⟩ := andThen_eq_next.mp h
  have hb := (readOperand_kept hg).between
  split at h <;> cases h
  · exact (hb.then (asSr_withFlags _ _ _ _)).finish false
  · exact (hb.then (asSr_withFlagBits _)).finish false

theorem State.setDivResult_change (s : State) (sz : Size) (d : Reg) (r : Config.DivResult) :
    ∃ rf, s.setDivResult sz d r = { s with regs := rf } ∧
      ∀ q, q ≠ d → (sz = .word → q ≠ pairOf d) → rf.get q = s.regs.get q := by
  cases sz
  · exact ⟨_, rfl, fun q h _ => Regs.get_set_other _ _ h⟩
  · exact ⟨_, rfl, fun q h h' => (Regs.get_set_other _ _ h).trans (Regs.get_set_other _ _ (h' rfl))⟩

theorem Between.trans {s t u : State} (h : Between s t) (h' : Between t u) : Between s u :=
  ⟨h'.cfg.trans h.cfg, h'.mode.trans h.mode, h'.nmiPending.trans h.nmiPending, h'.pending.trans h.pending,
    h'.dtcActive.trans h.dtcActive, h'.inReset.trans h.inReset, h'.resHigh.trans h.resHigh,
    h'.modePins.trans h.modePins, h'.env.trans h.env, h'.errorPending ∘ h.errorPending,
    h.storage.trans h'.storage, h'.status ∘ h.status⟩

theorem State.drawDivResult_change (s : State) (sz : Size) (d : Reg) :
    ∃ n rf, s.drawDivResult sz d = { s with draws := n, regs := rf } ∧
      ∀ q, q ≠ d → (sz = .word → q ≠ pairOf d) → rf.get q = s.regs.get q := by
  obtain ⟨rf, e, hr⟩ := s.tick.setDivResult_change sz d ⟨s.drawn .destination, s.drawn .destinationNext, 0⟩
  exact ⟨_, rf, e, hr⟩

theorem zeroDivide_kept {sz : Size} {d : Reg} {n : Nat} {s t : State} (h : zeroDivide sz d n s = .next t) :
    ExecKept s t := by
  obtain ⟨u, hu, h⟩ := andThen_eq_next.mp h
  cases h
  obtain ⟨m, rf, e, -⟩ := s.drawDivResult_change sz d
  have h1 := (Between.refl s).then (rf := rf) (pc := s.pc) (cp := s.cp) (tp := s.tp) (dp := s.dp) (ep := s.ep)
    (br := s.br) (n := m + 1) (st := s.stale)
    (asSr_withFlagBits ((Config.draw .flags m).setWidth 4))
  have h2 := exceptionSequence_between hu
  rw [e] at h2
  exact ((h1.trans h2).then (asSr_withFlagBits _)).finish false

theorem divideRegister_kept {sz : Size} {ea : Ea} {d : Reg} {s t : State}
    (h : divideRegister sz ea d s = .next t) : ExecKept s t := by
  obtain ⟨g, hg, h⟩ := andThen_eq_next.mp h
  have hb := (readOperand_kept hg).between
  have finish {u t : State} (hu : Between s u) (k : ExecKept u t) : ExecKept s t :=
    ⟨k.cfg.trans hu.cfg, k.mode.trans hu.mode, k.nmiPending.trans hu.nmiPending, k.pending.trans hu.pending,
      k.dtcActive.trans hu.dtcActive, k.inReset.trans hu.inReset, k.resHigh.trans hu.resHigh,
      k.modePins.trans hu.modePins, k.env.trans hu.env, k.detected, k.lastWasInstruction,
      k.errorPending ∘ hu.errorPending, hu.storage.trans k.storage, k.status ∘ hu.status⟩
  split at h
  · unfold divideBy at h
    split at h
    · exact finish hb (zeroDivide_kept h)
    · cases h
      next v hv _ =>
      obtain ⟨rf, e, -⟩ := g.state.setDivResult_change sz d
        (Config.divxu sz (g.state.dividend sz d) (cut sz v))
      simp only [e]
      exact (hb.then (asSr_withFlagBits _)).finish false
  · unfold divideFailed at h
    split at h
    · refine finish ?_ (zeroDivide_kept h)
      exact hb.then id
    · cases h
      obtain ⟨n, rf, e, -⟩ := g.state.tick.drawDivResult_change sz d
      simp only [e]
      exact (hb.then (asSr_withFlagBits _)).finish false

theorem invalidInstruction_kept {s t : State} (h : invalidInstruction s = .next t) : ExecKept s t := by
  obtain ⟨u, hu, h⟩ := andThen_eq_next.mp h
  cases h
  exact (((Between.refl s).then id).trans (exceptionSequence_between hu)).finish false

theorem State.setControlReg_change (s : State) (c : ControlReg) (v : Word) :
    ∃ sr tp dp ep br, s.setControlReg c v = { s with sr := sr, tp := tp, dp := dp, ep := ep, br := br } ∧
      (asSr s.sr = s.sr → asSr sr = sr) := by
  cases c
  case sr => exact ⟨_, _, _, _, _, rfl, fun _ => asSr_asSr _⟩
  case ccr => exact ⟨_, _, _, _, _, rfl, asSr_upper_lower v⟩
  all_goals exact ⟨_, _, _, _, _, rfl, id⟩

theorem loadControl_kept {sz : Size} {ea : Ea} {c : ControlReg} {s t : State}
    (h : loadControl sz ea c s = .next t) : ExecKept s t := by
  unfold loadControl at h
  split at h
  · obtain ⟨g, hg, h⟩ := andThen_eq_next.mp h
    have hb := (readOperand_kept hg).between
    split at h <;> cases h
    · next v _ =>
      obtain ⟨sr, tp, dp, ep, br, e, hsr⟩ := g.state.setControlReg_change c v
      rw [e]
      exact (hb.then hsr).finish true
    · obtain ⟨sr, tp, dp, ep, br, e, hsr⟩ := g.state.tick.setControlReg_change c (g.state.drawn .control)
      rw [e]
      exact (hb.then hsr).finish true
  · exact invalidInstruction_kept h

theorem combineControl_kept {sz : Size} {n : Nat} {c : ControlReg} {f : Word} {s t : State}
    (h : combineControl sz n c f s = .next t) : ExecKept s t := by
  unfold combineControl at h
  split at h
  · cases h
    obtain ⟨sr, tp, dp, ep, br, e, hsr⟩ := s.setControlReg_change c f
    rw [e]
    exact ((Between.refl s).then hsr).finish true
  · exact invalidInstruction_kept h

theorem trap_kept {index : BitVec 6} {n : Nat} {s t : State} (h : trap index n s = .next t) : ExecKept s t := by
  obtain ⟨u, hu, h⟩ := andThen_eq_next.mp h
  cases h
  exact (exceptionSequence_between hu).finish false

theorem execTrapVs_kept {s t : State} (h : execTrapVs s = .next t) : ExecKept s t := by
  unfold execTrapVs at h
  split at h
  · exact trap_kept h
  · cases h
    exact ((Between.refl s).then id).finish false

theorem execRte_kept {s t : State} (h : execRte s = .next t) : ExecKept s t := by
  obtain ⟨u, hu, h⟩ := andThen_eq_next.mp h
  cases h
  obtain ⟨n, sp, sr, pc, cp, rfl, -⟩ := returnFromException_kept hu
  exact ((Between.refl s).then fun _ => asSr_asSr sr).finish true

/-- What every instruction keeps. -/
theorem exec_kept {i : Instr} {s t : State} (h : exec i s = .next t) : ExecKept s t := by
  cases i
  case trapVs => exact execTrapVs_kept h
  case rte => exact execRte_kept h
  case nop => cases h; exact ((Between.refl s).then id).finish false
  case movI => cases h; exact ((Between.refl s).then (asSr_withFlags _ _ _ _)).finish false
  all_goals
    simp only [exec, execMovRnRd, execMovIndRd, execMovDisp8Rd, execMovDisp16Rd, execMovPreDecRd,
    execMovPostIncRd, execMovAbs8Rd, execMovAbs16Rd, execMovImm8Rd, execMovImm16Rd, execMovRsRn,
    execMovRsInd, execMovRsDisp8, execMovRsDisp16, execMovRsPreDec, execMovRsPostInc, execMovRsAbs8,
    execMovRsAbs16, execAddRnRd, execAddIndRd, execAddDisp8Rd, execAddDisp16Rd, execAddPreDecRd,
    execAddPostIncRd, execAddAbs8Rd, execAddAbs16Rd, execAddImm8Rd, execAddImm16Rd, execDivxuRnRd,
    execDivxuIndRd, execDivxuDisp8Rd, execDivxuDisp16Rd, execDivxuPreDecRd, execDivxuPostIncRd,
    execDivxuAbs8Rd, execDivxuAbs16Rd, execDivxuImm8Rd, execDivxuImm16Rd, execLdcRn, execLdcInd,
    execLdcDisp8, execLdcDisp16, execLdcPreDec, execLdcPostInc, execLdcAbs8, execLdcAbs16, execLdcImm8,
    execLdcImm16, execAndcB, execAndcW, execOrcB, execOrcW, execXorcB, execXorcW, execTrapa] at h
    first
      | exact moveToRegister_kept h
      | exact moveFromRegister_kept h
      | exact addToRegister_kept h
      | exact divideRegister_kept h
      | exact loadControl_kept h
      | exact combineControl_kept h
      | exact trap_kept h

end Sys2Proof.Machine
end

