-- ==== Sys2Proof/Laws/Fetch.lean ====
section
/-! SUPPORT. What `Decode` gives, what a fetch can answer, how it leaves the state, and what the DTC's
accesses change: said once. -/

namespace Sys2Proof

/-! ### `Decode` -/

@[simp] theorem lookup_nil (bs : List Byte) : lookup [] bs = (decode bs).result := rfl

theorem lookup_cons (r : Config.CodeRow) (rows : List Config.CodeRow) (bs : List Byte) :
    lookup (r :: rows) bs =
      if r.code = [] then lookup rows bs
      else if r.code.isPrefixOf bs then r.result
      else if bs.isPrefixOf r.code then .short
      else lookup rows bs := rfl

/-- `Invalid` is the result of no row of the spec's own. -/
theorem Decoded.result_ne_invalid (d : Decoded) (len : Nat) : d.result ≠ .invalid len := by
  cases d <;> simp [Decoded.result]

/-- What a given row gives: an instruction only if it is well formed, and its own length. -/
theorem Config.CodeRow.result_cases (r : Config.CodeRow) :
    (∃ i, r.means = some i ∧ i.wellFormed = true ∧ r.result = .instr i r.code.length) ∨
    ((∀ i, r.means = some i → i.wellFormed = false) ∧ r.result = .invalid r.code.length) := by
  unfold Config.CodeRow.result
  cases h : r.means with
  | none => exact .inr ⟨by simp, rfl⟩
  | some i =>
    cases hw : i.wellFormed with
    | true => exact .inl ⟨i, rfl, hw, by simp [hw]⟩
    | false => exact .inr ⟨by simp [hw], by simp [hw]⟩

/-- Every instruction and every `Invalid` code has at least one byte. -/
theorem Instr.length_pos (i : Instr) : 0 < i.length := by
  cases i <;> simp [Instr.length, encode, encodeMovLoad, encodeMovStore, encodeAdd, encodeDivxu, encodeLdc, encodeEa]

theorem Instr.length_le (i : Instr) : i.length ≤ maxLength := by
  cases i <;> simp [Instr.length, encode, encodeMovLoad, encodeMovStore, encodeAdd, encodeDivxu, encodeLdc, encodeEa, maxLength]

theorem lookup_length_pos {rows : List Config.CodeRow} {bs : List Byte} {len : Nat}
    (h : (∃ i, lookup rows bs = .instr i len) ∨ lookup rows bs = .invalid len) : 0 < len := by
  induction rows with
  | nil =>
    rcases h with ⟨i, h⟩ | h
    · cases hd : decode bs <;> simp [hd, Decoded.result] at h
      rw [← h.2]
      exact Instr.length_pos _
    · exact absurd h (Decoded.result_ne_invalid _ _)
  | cons r rows ih =>
    rw [lookup_cons] at h
    split_ifs at h with h1 h2 h3
    · exact ih h
    · have hp : 0 < r.code.length := List.length_pos_iff.mpr h1
      rcases r.result_cases with ⟨j, -, -, hr⟩ | ⟨-, hr⟩ <;> rw [hr] at h
      · simp at h; omega
      · simp at h; omega
    · simp at h
    · exact ih h

/-- Where no given row speaks of some bytes, the spec's own rows decide, whatever follows them. -/
theorem lookup_of_leaves {rows : List Config.CodeRow} {bs : List Byte} (h : Machine.Config.CodeRow.leaves rows bs)
    (rest : List Byte) : lookup rows (bs ++ rest) = (decode (bs ++ rest)).result := by
  induction rows with
  | nil => rfl
  | cons r rows ih =>
    have ih := ih fun r' hr => h r' (List.mem_cons_of_mem _ hr)
    rw [lookup_cons]
    split_ifs with h1 h2 h3
    · exact ih
    · exact absurd (List.isPrefixOf_iff_prefix.mp h2) (h r List.mem_cons_self h1 rest)
    · obtain ⟨q, hq⟩ := List.isPrefixOf_iff_prefix.mp h3
      exact absurd ⟨[], by rw [List.append_nil, ← List.append_assoc, hq]⟩ (h r List.mem_cons_self h1 (rest ++ q))
    · exact ih

/-! ### `Decode` where some bytes are not certain -/

theorem agrees_iff {u : Nat → Bool} {code bs : List Byte} {n : Nat} :
    agrees u code bs n = true ↔
      ∀ k c b, code[k]? = some c → bs[k]? = some b → c = b ∨ u (n + k) = true := by
  induction code generalizing bs n with
  | nil => simp [agrees]
  | cons c code ih =>
    cases bs with
    | nil => simp [agrees]
    | cons b bs =>
      simp only [agrees, Bool.and_eq_true, Bool.or_eq_true, beq_iff_eq, ih]
      constructor
      · rintro ⟨h0, h⟩ k
        cases k with
        | zero => rintro _ _ ⟨⟩ ⟨⟩; exact h0.symm
        | succ k =>
          intro c' b' h1 h2
          rw [show n + (k + 1) = n + 1 + k by omega]
          exact h k c' b' (by simpa using h1) (by simpa using h2)
      · intro h
        refine ⟨(h 0 c b rfl rfl).symm, fun k c' b' h1 h2 => ?_⟩
        have := h (k + 1) c' b' (by simpa using h1) (by simpa using h2)
        rwa [show n + 1 + k = n + (k + 1) by omega]

theorem agrees_isPrefixOf {u : Nat → Bool} {code bs : List Byte} (h : code.isPrefixOf bs = true) :
    agrees u code bs 0 = true := by
  obtain ⟨rest, rfl⟩ := List.isPrefixOf_iff_prefix.mp h
  refine agrees_iff.mpr fun k c b h1 h2 => .inl ?_
  rw [List.getElem?_append_left (List.getElem?_eq_some_iff.mp h1).1, h1] at h2
  exact Option.some.inj h2

/-- Where every byte is certain nothing is contested: a row that agrees is taken, or the bytes end in it. -/
theorem contested_certain (rows : List Config.CodeRow) (bs : List Byte) :
    contested (fun _ => false) rows bs = false := by
  induction rows with
  | nil => rfl
  | cons r rows ih =>
    simp only [contested]
    split_ifs with h1 h2
    · exact ih
    · rfl
    · simp only [ih, Bool.or_false, Bool.eq_false_iff, ne_eq]
      intro ha
      have ha := agrees_iff.mp ha
      simp only [Bool.false_eq_true, or_false] at ha
      refine h2 ?_
      rw [Bool.or_eq_true, List.isPrefixOf_iff_prefix, List.isPrefixOf_iff_prefix]
      rcases Nat.le_total r.code.length bs.length with hl | hl
      · refine .inl (List.prefix_iff_eq_take.mpr (List.ext_getElem (by simp [hl]) fun n h1 h2 => ?_))
        rw [List.getElem_take]
        exact ha n _ _ (List.getElem?_eq_getElem h1) (List.getElem?_eq_getElem (by omega))
      · refine .inr (List.prefix_iff_eq_take.mpr (List.ext_getElem (by simp [hl]) fun n h1 h2 => ?_))
        rw [List.getElem_take]
        exact (ha n _ _ (List.getElem?_eq_getElem (by omega)) (List.getElem?_eq_getElem h1)).symm

/-- Bytes that differ in uncertain bytes alone, of which none is the deciding row's and none keeps an earlier
row from being taken, get their answer from the same given row, or else from the spec's own rows. -/
theorem lookup_certain {u : Nat → Bool} {rows : List Config.CodeRow} {bs bs' : List Byte} {len : Nat}
    (hb : ∀ n, u n = false → bs'[n]? = bs[n]?) (hc : contested u rows bs = false)
    (hd : (∃ i, lookup rows bs = .instr i len) ∨ lookup rows bs = .invalid len) (hs : ∀ n, n < len → u n = false) :
    lookup rows bs' = lookup rows bs ∨
      (lookup rows bs = (decode bs).result ∧ lookup rows bs' = (decode bs').result) := by
  induction rows with
  | nil => exact .inr ⟨rfl, rfl⟩
  | cons r rows ih =>
    rw [lookup_cons] at hd
    simp only [contested] at hc
    rw [lookup_cons, lookup_cons]
    by_cases h1 : r.code = []
    · rw [if_pos h1] at hd hc ⊢
      rw [if_pos h1]
      exact ih hc hd
    rw [if_neg h1] at hd hc
    by_cases h2 : r.code.isPrefixOf bs = true
    · rw [if_pos h2] at hd
      have hlen : r.code.length = len := by
        rcases r.result_cases with ⟨j, -, -, hr⟩ | ⟨-, hr⟩ <;> rw [hr] at hd <;> simpa using hd
      rw [if_neg h1, if_neg h1, if_pos h2, if_pos]
      · exact .inl rfl
      · obtain ⟨rest, hr⟩ := List.isPrefixOf_iff_prefix.mp h2
        have : r.code = bs'.take r.code.length := by
          refine List.ext_getElem? fun n => ?_
          rw [List.getElem?_take]
          split
          · next hn => rw [hb n (hs n (hlen ▸ hn)), ← hr, List.getElem?_append_left hn]
          · next hn => exact List.getElem?_eq_none (by omega)
        exact List.isPrefixOf_iff_prefix.mpr (this ▸ List.take_prefix _ _)
    · rw [if_neg h2] at hd
      by_cases h3 : bs.isPrefixOf r.code = true
      · simp [h3] at hd
      rw [if_neg h3] at hd
      rw [if_neg (by simp [h2, h3])] at hc
      rw [Bool.or_eq_false_iff] at hc
      obtain ⟨k, c, b, e1, e2, e3, e4⟩ : ∃ k c b, r.code[k]? = some c ∧ bs[k]? = some b ∧ c ≠ b ∧ u k = false := by
        by_contra hn
        refine Bool.eq_false_iff.mp hc.1 (agrees_iff.mpr fun k c b e1 e2 => ?_)
        by_contra hcb
        rw [not_or, Nat.zero_add, Bool.not_eq_true] at hcb
        exact hn ⟨k, c, b, e1, e2, hcb.1, hcb.2⟩
      have e2' : bs'[k]? = some b := (hb k e4).trans e2
      have apart : ∀ x y : List Byte, x[k]? = some c → y[k]? = some b → ¬ x.isPrefixOf y = true ∧ ¬ y.isPrefixOf x = true := by
        intro x y hx hy
        constructor <;> intro hp <;> obtain ⟨rest, rfl⟩ := List.isPrefixOf_iff_prefix.mp hp
        · rw [List.getElem?_append_left (List.getElem?_eq_some_iff.mp hx).1, hx] at hy
          exact e3 (Option.some.inj hy)
        · rw [List.getElem?_append_left (List.getElem?_eq_some_iff.mp hy).1, hy] at hx
          exact e3 (Option.some.inj hx).symm
      rw [if_neg h1, if_neg h1, if_neg h2, if_neg h3, if_neg (apart _ _ e1 e2').1, if_neg (apart _ _ e1 e2').2]
      exact ih hc.2 hd

namespace Machine

/-! ### How a fetch leaves the state -/

/-- Fetching `len` bytes changes the count of draws and the address-error flags alone. -/
theorem State.fetched_change (s : State) (len : Nat) :
    ∃ n d, s.fetched len = ({ s with draws := n } : State).withErrors (s.prefetchError len || s.addrErrPending) d := by
  cases hd : s.drawnWithin len <;> cases hp : s.prefetchError len <;>
    simp only [State.fetched, hd, hp, Bool.false_eq_true, if_false, if_true, Bool.true_or, Bool.false_or]
  · exact ⟨s.draws, false, rfl⟩
  · exact ⟨s.draws, true, rfl⟩
  · exact ⟨s.draws + 1, false, rfl⟩
  · exact ⟨s.draws + 1, true, rfl⟩

theorem State.fetched_eq {s : State} {len : Nat} (hd : s.drawnWithin len = false) (hp : s.prefetchError len = false)
    (ha : s.addrErrDetected = false) : s.fetched len = s := by
  simp only [State.fetched, hd, hp, Bool.false_eq_true, if_false]
  rw [← ha]

/-- Executing an instruction begins in a state that differs in CP and PC besides. -/
theorem State.executing_change (s : State) (i : Instr) (len : Nat) :
    ∃ n d pc cp, s.executing i len =
        ({ s with draws := n, pc := pc, cp := cp } : State).withErrors (s.prefetchError len || s.addrErrPending) d ∧
      (len = i.length → pc = s.pc ∧ cp = s.cp) := by
  obtain ⟨n, d, e⟩ := s.fetched_change len
  unfold State.executing
  split
  · exact ⟨n, d, s.pc, s.cp, e, fun _ => ⟨rfl, rfl⟩⟩
  · next h => exact ⟨n, d, _, _, by rw [State.placedBefore, e]; rfl, fun h' => absurd h' h⟩

/-- The next instruction address of an instruction of `n` bytes placed before an address is that address. -/
theorem State.codeAddress_placedBefore (s : State) (next : Byte × Word) {n : Nat} :
    (s.placedBefore next n).codeAddress n = next := by
  cases hc : s.mode.cpu
  · simp [State.codeAddress, State.placedBefore, hc]
  · simp only [State.codeAddress, State.placedBefore, hc]
    split_ifs <;> simp

/-- The next instruction address is CP:PC plus the length that `Decode` gives (R70, R170). -/
theorem State.codeAddress_executing (s : State) (i : Instr) (len : Nat) :
    (s.executing i len).codeAddress i.length = s.codeAddress len := by
  unfold State.executing
  split
  · next h =>
    obtain ⟨n, d, e⟩ := s.fetched_change len
    rw [e, h]
    rfl
  · exact (s.fetched len).codeAddress_placedBefore _

/-! ### What a fetch answers -/

theorem State.staleAt_iff {s : State} {n : Nat} :
    s.staleAt n = true ↔ s.byteKey (s.codeAddress n).1 (s.codeAddress n).2 ∈ s.stale := decide_eq_true_iff

/-- What is fetched is settled iff no byte of it was stored to and no given row before it is contested (R60). -/
theorem State.staleWithin_eq_false {s : State} {len : Nat} :
    s.staleWithin len = false ↔
      (∀ n, n < len → s.staleAt n = false) ∧ contested s.staleAt s.cfg.codes s.codeBytes = false := by
  simp [State.staleWithin]

theorem State.codeRegion_zero (s : State) : s.codeRegion 0 = s.region s.cp s.pc := by
  have := s.pc.isLt
  unfold State.codeRegion State.codeAddress
  split
  · simp
  · rw [if_pos (by omega)]
    simp

/-- The three answers of a fetch (R177 step 2). -/
theorem fetch_cases {s : State} {f : Fetched} (h : fetch s = .next f) :
    (s.mayFetch = false ∧ f = .blocked) ∨
    (∃ i len, s.mayFetch = true ∧ s.decoded = .instr i len ∧ s.staleWithin len = false ∧
      f = .run i (s.executing i len)) ∨
    (∃ len, s.mayFetch = true ∧ s.decoded = .invalid len ∧ s.staleWithin len = false ∧
      f = .invalid (s.fetched len)) := by
  unfold fetch at h
  cases hm : s.mayFetch with
  | false =>
    rw [hm, if_neg (by simp)] at h
    cases h
    exact .inl ⟨rfl, rfl⟩
  | true =>
    rw [hm, if_pos rfl] at h
    cases hd : s.decoded with
    | instr i len =>
      rw [hd] at h
      simp only at h
      split at h <;> cases h
      next hs => exact .inr (.inl ⟨i, len, rfl, rfl, by simpa using hs, rfl⟩)
    | invalid len =>
      rw [hd] at h
      simp only at h
      split at h <;> cases h
      next hs => exact .inr (.inr ⟨len, rfl, rfl, by simpa using hs, rfl⟩)
    | unknown => simp [hd] at h
    | short =>
      simp only [hd] at h
      split at h
      · cases h
      · split at h <;> cases h

/-- What a step that runs an instruction, or attempts to, can be. -/
theorem instructionStep_cases {s t : State} (h : instructionStep s = .next t) :
    (s.mayFetch = false ∧ t = s.fetchBlocked) ∨
    (∃ i len, s.mayFetch = true ∧ s.decoded = .instr i len ∧ s.staleWithin len = false ∧
      exec i (s.executing i len) = .next t) ∨
    (∃ len, s.mayFetch = true ∧ s.decoded = .invalid len ∧ s.staleWithin len = false ∧
      invalidInstruction (s.fetched len) = .next t) := by
  obtain ⟨f, hf, h⟩ := andThen_eq_next.mp h
  rcases fetch_cases hf with ⟨hm, rfl⟩ | ⟨i, len, hm, hd, hs, rfl⟩ | ⟨len, hm, hd, hs, rfl⟩
  · cases h; exact .inl ⟨hm, rfl⟩
  · exact .inr (.inl ⟨i, len, hm, hd, hs, h⟩)
  · exact .inr (.inr ⟨len, hm, hd, hs, h⟩)

theorem instructionStep_run {s : State} {i : Instr} {len : Nat} (hm : s.mayFetch = true)
    (hd : s.decoded = .instr i len) (hs : s.staleWithin len = false) :
    instructionStep s = exec i (s.executing i len) := by
  simp only [instructionStep, fetch, hm, hd, hs, if_true, Bool.false_eq_true, if_false, andThen_next]

theorem instructionStep_invalid {s : State} {len : Nat} (hm : s.mayFetch = true)
    (hd : s.decoded = .invalid len) (hs : s.staleWithin len = false) :
    instructionStep s = invalidInstruction (s.fetched len) := by
  simp only [instructionStep, fetch, hm, hd, hs, if_true, Bool.false_eq_true, if_false, andThen_next]

/-- What the fetch of an instruction shares with the state before. -/
theorem State.fetched_between (s : State) (len : Nat) : Between s (s.fetched len) := by
  obtain ⟨n, d, e⟩ := s.fetched_change len
  rw [e]
  exact ⟨rfl, rfl, rfl, rfl, rfl, rfl, rfl, rfl, rfl, fun h => by simp [State.withErrors, h], StorageKept.refl _, id⟩

theorem State.executing_between (s : State) (i : Instr) (len : Nat) : Between s (s.executing i len) := by
  obtain ⟨n, d, pc, cp, e, -⟩ := s.executing_change i len
  rw [e]
  exact ⟨rfl, rfl, rfl, rfl, rfl, rfl, rfl, rfl, rfl, fun h => by simp [State.withErrors, h], StorageKept.refl _, id⟩

theorem ExecKept.between {s t : State} (h : ExecKept s t) : Between s t :=
  ⟨h.cfg, h.mode, h.nmiPending, h.pending, h.dtcActive, h.inReset, h.resHigh, h.modePins, h.env, h.errorPending,
    h.storage, h.status⟩

/-- What a step that runs an instruction, or attempts to, keeps. -/
theorem instructionStep_kept {s t : State} (h : instructionStep s = .next t) :
    Between s t ∧ (s.addrErrDetected = false → t.addrErrDetected = false) := by
  rcases instructionStep_cases h with ⟨-, rfl⟩ | ⟨i, len, -, -, -, h⟩ | ⟨len, -, -, -, h⟩
  · exact ⟨⟨rfl, rfl, rfl, rfl, rfl, rfl, rfl, rfl, rfl, fun _ => rfl, StorageKept.refl _, id⟩, id⟩
  · exact ⟨(s.executing_between i len).trans (exec_kept h).between, fun _ => (exec_kept h).detected⟩
  · have hk := invalidInstruction_kept h
    exact ⟨(s.fetched_between len).trans hk.between, fun _ => hk.detected⟩

/-! ### The DTC -/

/-- An access of the DTC that is made: a read, which leaves the state, or a store. -/
theorem busAccess_cases {a : BusAccess} {s t : State} (h : busAccess a s = .next t) :
    (∃ p o, a = .read p o ∧ t = s) ∨
    (∃ p o v w, a = .write p o v ∧ storeByte p o v s = .next w ∧ t = w.state) := by
  cases a with
  | read p o =>
    obtain ⟨g, -, h⟩ := andThen_eq_next.mp h
    cases h
    exact .inl ⟨p, o, rfl, rfl⟩
  | write p o v =>
    obtain ⟨w, hw, h⟩ := andThen_eq_next.mp h
    cases h
    exact .inr ⟨p, o, v, w, rfl, hw, rfl⟩

/-- An access of the DTC is made where the model admits it. -/
theorem busAccess_answers {a : BusAccess} {s : State} (h1 : s.accessRegion a ≠ .absent)
    (h2 : ∀ k, s.accessRegion a ≠ .disabled k) : ∃ t, busAccess a s = .next t := by
  cases a with
  | read p o =>
    have ⟨g, hg⟩ : ∃ g, loadByte p o s = .next g := by
      simp only [State.accessRegion] at h1 h2
      unfold loadByte
      cases hr : s.region p o <;> first | exact ⟨_, rfl⟩ | exact absurd hr h1 | exact absurd hr (h2 _)
    exact ⟨s, andThen_eq_next.mpr ⟨g, hg, rfl⟩⟩
  | write p o v =>
    have ⟨w, hw⟩ : ∃ w, storeByte p o v s = .next w := by
      simp only [State.accessRegion] at h1 h2
      unfold storeByte
      cases hr : s.region p o <;> first | exact ⟨_, rfl⟩ | exact absurd hr h1 | exact absurd hr (h2 _)
    exact ⟨w.state, andThen_eq_next.mpr ⟨w, hw, rfl⟩⟩

/-- An access of the DTC changes what a store changes. -/
theorem busAccess_kept {a : BusAccess} {s t : State} (h : busAccess a s = .next t) :
    ∃ c b d, t = (s.changed c).withErrors b d ∧ StorageKept s.mem c.mem := by
  rcases busAccess_cases h with ⟨p, o, -, rfl⟩ | ⟨p, o, v, w, -, hw, rfl⟩
  · exact ⟨t.changes, t.addrErrPending, t.addrErrDetected, rfl,
      StorageKept.refl _⟩
  · obtain ⟨c, b, d, e, k, -⟩ := (storeByte_kept hw).change
    exact ⟨c, b, d, e, k⟩

/-- The DTC's accesses change what stores change. -/
theorem busAccesses_kept {as : List BusAccess} {s t : State} (h : busAccesses as s = .next t) :
    ∃ c b d, t = (s.changed c).withErrors b d ∧ StorageKept s.mem c.mem := by
  induction as generalizing s with
  | nil =>
    cases h
    exact ⟨t.changes, t.addrErrPending, t.addrErrDetected, rfl,
      StorageKept.refl _⟩
  | cons a as ih =>
    obtain ⟨u, hu, h⟩ := andThen_eq_next.mp h
    obtain ⟨c, b, d, e, k⟩ := busAccess_kept hu
    obtain ⟨c', b', d', e', k'⟩ := ih h
    rw [e] at k'
    exact ⟨c', b', d', by rw [e', e]; rfl, k.trans k'⟩

theorem State.admits_congr {s t : State} (hm : t.mode = s.mode) (hc : t.cfg = s.cfg) (a : BusAccess) :
    t.admits a ↔ s.admits a := by
  cases a <;> simp only [State.admits, State.accessRegion, State.region, State.busAddress, hm, hc]

/-- Accesses that the model admits are all made. -/
theorem busAccesses_answers {as : List BusAccess} {s : State} (h : ∀ a ∈ as, s.admits a) :
    ∃ t, busAccesses as s = .next t := by
  induction as generalizing s with
  | nil => exact ⟨s, rfl⟩
  | cons a as ih =>
    obtain ⟨h1, h2⟩ := h a List.mem_cons_self s.rame
    obtain ⟨u, hu⟩ := busAccess_answers (a := a) (s := s) h1 h2
    obtain ⟨c, b, d, e, -⟩ := busAccess_kept hu
    obtain ⟨t, ht⟩ := ih (s := u) fun a' h' =>
      (State.admits_congr (by rw [e]; rfl) (by rw [e]; rfl) a').mpr (h a' (List.mem_cons_of_mem _ h'))
    exact ⟨t, andThen_eq_next.mpr ⟨u, hu, ht⟩⟩

theorem State.written_congr {s t : State} (h : t.mode = s.mode) (a : BusAccess) (x : Nat) :
    t.written a x = s.written a x := by
  cases a <;> simp only [State.written, State.busAddress_congr h]

theorem State.lastWrite_congr {s t : State} (h : t.mode = s.mode) (as : List BusAccess) (x : Nat) :
    t.lastWrite as x = s.lastWrite as x := by
  induction as with
  | nil => rfl
  | cons a as ih => simp only [State.lastWrite, ih, State.written_congr h]

theorem State.lastWrite_cons_none {s : State} {a : BusAccess} {as : List BusAccess} {x : Nat}
    (h : s.lastWrite (a :: as) x = none) : s.lastWrite as x = none ∧ s.written a x = none := by
  simp only [State.lastWrite] at h
  cases hl : s.lastWrite as x with
  | some b => simp [hl] at h
  | none => exact ⟨rfl, by simpa [hl] using h⟩

/-- What a control field holds after the DTC's accesses, once it is known what it holds after one of them. -/
theorem busAccesses_field {α : Type} (read : State → α) (at_ : State → Nat) (take : State → Byte → α)
    (hc : ∀ s t : State, t.cfg = s.cfg → at_ t = at_ s ∧ take t = take s)
    (h1 : ∀ p o v s w, storeByte p o v s = .next w →
      read w.state = if s.busAddress p o = at_ s then take s v else read s)
    {as : List BusAccess} {s t : State} (h : busAccesses as s = .next t) :
    read t = match s.lastWrite as (at_ s) with
      | some b => take s b
      | none => read s := by
  induction as generalizing s with
  | nil => cases h; rfl
  | cons a as ih =>
    obtain ⟨u, hu, h⟩ := andThen_eq_next.mp h
    obtain ⟨c, b, d, e, -⟩ := busAccess_kept hu
    have hm : u.mode = s.mode := by rw [e]; rfl
    obtain ⟨ha, ht⟩ := hc s u (by rw [e]; rfl)
    rw [ih h, ha, ht, State.lastWrite_congr hm, State.lastWrite]
    cases s.lastWrite as (at_ s) with
    | some b => rfl
    | none =>
      rcases busAccess_cases hu with ⟨p, o, rfl, rfl⟩ | ⟨p, o, v, w, rfl, hw, rfl⟩
      · rfl
      · simp only [h1 p o v s w hw, State.written]
        split <;> rfl

theorem busAccesses_mds {as : List BusAccess} {s t : State} (h : busAccesses as s = .next t)
    (hn : s.lastWrite as (fieldAddress s.cfg.registers.mdcr) = none) : t.mds = s.mds := by
  induction as generalizing s with
  | nil => cases h; rfl
  | cons a as ih =>
    obtain ⟨u, hu, h⟩ := andThen_eq_next.mp h
    obtain ⟨c, b, d, e, -⟩ := busAccess_kept hu
    obtain ⟨n1, n2⟩ := State.lastWrite_cons_none hn
    have hm : u.mode = s.mode := by rw [e]; rfl
    have hc : u.cfg = s.cfg := by rw [e]; rfl
    rw [ih h (by rw [hc, State.lastWrite_congr hm]; exact n1)]
    rcases busAccess_cases hu with ⟨p, o, rfl, rfl⟩ | ⟨p, o, v, w, rfl, hw, rfl⟩
    · rfl
    · exact (storeByte_controls hw).2.2.2 (by simpa [State.written] using n2)

/-- One access and a byte of storage: untouched, or written. -/
theorem busAccess_byteAt {a : BusAccess} {s t : State} {p : Byte} {o : Word} (h : busAccess a s = .next t)
    (hr : t.region p o = s.region p o) :
    (s.written a (s.busAddress p o) = none → t.byteAt p o = s.byteAt p o) ∧
    (∀ v, s.written a (s.busAddress p o) = some v → s.writableAt p o = true → Memory.wf s.mem = true →
      t.byteAt p o = v) := by
  rcases busAccess_cases h with ⟨p', o', rfl, rfl⟩ | ⟨p', o', v, w, rfl, hw, rfl⟩
  · exact ⟨fun _ => rfl, fun v hv => by cases hv⟩
  · obtain ⟨m1, m2⟩ := storeByte_memory hw
    simp only [State.written]
    refine ⟨fun hn => ?_, fun b hb hwr hwf => ?_⟩
    · have hne : s.busAddress p' o' ≠ s.busAddress p o := by simpa using hn
      have hk : ∀ k, (s.region p o).key = some k → memRead w.state.mem k = memRead s.mem k :=
        fun k hk => m1 k fun h' => hne (State.region_key_injective h' hk)
      unfold State.byteAt
      rw [hr]
      cases hr' : s.region p o <;> first | rfl | exact hk _ (by rw [hr']; rfl)
    · split at hb <;> cases hb
      next heq =>
        obtain ⟨k, hk⟩ := State.writableAt_iff.mp hwr
        have hk' : s.region p' o' = .cell k := by rw [← hk]; simp only [State.region, heq]
        simp only [State.byteAt, hr, hk]
        exact m2 k hk' hwf

/-- A byte of storage after the DTC's accesses: what the last write to it leaves. -/
theorem busAccesses_byteAt {as : List BusAccess} {s t : State} {p : Byte} {o : Word} (h : busAccesses as s = .next t)
    (hram : s.lastWrite as (fieldAddress s.cfg.registers.ramcr) = none ∨
      ¬(0xFB80 ≤ s.busAddress p o ∧ s.busAddress p o ≤ 0xFF7F)) :
    (s.lastWrite as (s.busAddress p o) = none → t.byteAt p o = s.byteAt p o) ∧
    (∀ v, s.lastWrite as (s.busAddress p o) = some v → s.writableAt p o = true → Memory.wf s.mem = true →
      t.byteAt p o = v) := by
  induction as generalizing s with
  | nil => cases h; exact ⟨fun _ => rfl, fun v hv => by cases hv⟩
  | cons a as ih =>
    obtain ⟨u, hu, h⟩ := andThen_eq_next.mp h
    obtain ⟨c, b, d, e, hk⟩ := busAccess_kept hu
    have hm : u.mode = s.mode := by rw [e]; rfl
    have hc : u.cfg = s.cfg := by rw [e]; rfl
    have hb : u.busAddress p o = s.busAddress p o := State.busAddress_congr hm p o
    have hwf : Memory.wf s.mem = true → Memory.wf u.mem = true := by rw [e]; exact hk.wf
    have hreg : u.region p o = s.region p o := State.region_outsideRam hm hc (hram.imp_left fun hn => by
      rcases busAccess_cases hu with ⟨p', o', rfl, rfl⟩ | ⟨p', o', v, w, rfl, hw, rfl⟩
      · rfl
      · rw [(storeByte_controls hw).1, if_neg]
        simpa [State.written] using (State.lastWrite_cons_none hn).2)
    obtain ⟨i1, i2⟩ := ih h (by
      rw [hc, State.lastWrite_congr hm, hb]
      exact hram.imp_left fun h => (State.lastWrite_cons_none h).1)
    rw [State.lastWrite_congr hm, hb] at i1 i2
    obtain ⟨a1, a2⟩ := busAccess_byteAt hu hreg
    refine ⟨fun hn => ?_, fun v hv hw hwf' => ?_⟩
    · obtain ⟨n1, n2⟩ := State.lastWrite_cons_none hn
      exact (i1 n1).trans (a1 n2)
    · simp only [State.lastWrite] at hv
      cases hl : s.lastWrite as (s.busAddress p o) with
      | some b' =>
        simp only [hl, Option.some.injEq] at hv
        subst hv
        exact i2 _ hl (by simpa only [State.writableAt, hreg] using hw) (hwf hwf')
      | none =>
        simp only [hl] at hv
        rw [i1 hl, a2 v hv hw hwf']

/-- What the DTC's accesses leave, said once. -/
theorem busAccesses_made {as : List BusAccess} {s t : State} (h : busAccesses as s = .next t) :
    AccessesMade as s t where
  rame := busAccesses_field (·.rame) (fun s => fieldAddress s.cfg.registers.ramcr)
    (fun s b => b.getLsbD s.cfg.registers.rameBit) (fun s t h => by simp only [h, and_self])
    (fun _ _ _ _ _ h => (storeByte_controls h).1) h
  level j := busAccesses_field (·.level.get j)
    (fun s => fieldAddress (s.cfg.registers.ipr.get (s.cfg.registers.levelAt.get j).1))
    (fun s b => b.extractLsb' (s.cfg.registers.levelAt.get j).2 3) (fun s t h => by simp only [h, and_self])
    (fun _ _ _ _ _ h => (storeByte_controls h).2.1 j) h
  dte j := busAccesses_field (·.dte.get j)
    (fun s => fieldAddress (s.cfg.registers.dte.get (s.cfg.registers.dteAt.get j).1))
    (fun s b => b.getLsbD (s.cfg.registers.dteAt.get j).2) (fun s t h => by simp only [h, and_self])
    (fun _ _ _ _ _ h => (storeByte_controls h).2.2.1 j) h
  mds hn := busAccesses_mds h hn
  bytes _ _ hram := busAccesses_byteAt h hram

/-- The same from a state that shares all that accesses look at or change. -/
theorem AccessesMade.from {as : List BusAccess} {s s' t : State} (h : AccessesMade as s' t) (hm : s'.mode = s.mode)
    (hc : s'.cfg = s.cfg) (h1 : s'.rame = s.rame) (h2 : s'.level = s.level) (h3 : s'.dte = s.dte)
    (h4 : s'.mds = s.mds) (h5 : s'.mem = s.mem) : AccessesMade as s t := by
  obtain ⟨r, l, d, m, b⟩ := h
  have hr := State.region_congr hm h1 hc
  have hb := State.busAddress_congr hm
  simp only [hc, State.lastWrite_congr hm, h1, h2, h3, h4, h5, hb, State.byteAt, State.writableAt, hr] at r l d m b
  exact ⟨r, l, d, m, b⟩

/-- A data transfer cycle that is made: what stores change, the registers that `DtcCycle` gives, and the end of
the cycle. -/
theorem State.dtcCycle_change {s t : State} {k : Fin 21} (h : s.dtcCycle k = .next t) :
    ∃ c, t = { s.changed c with
        regs := (Config.dtcCycle k s).regs, tp := (Config.dtcCycle k s).tp, dp := (Config.dtcCycle k s).dp
        ep := (Config.dtcCycle k s).ep, br := (Config.dtcCycle k s).br
        dtcActive := none, defer := true, lastWasInstruction := false } ∧ StorageKept s.mem c.mem := by
  obtain ⟨u, hu, h⟩ := andThen_eq_next.mp h
  obtain ⟨c, a, d, e, hk⟩ := busAccesses_kept hu
  cases h
  exact ⟨c, by rw [e]; rfl, hk⟩

/-- One that a reset abandons: what stores change, and no cycle under way. -/
theorem State.abandonDtc_change {s t : State} {k : Fin 21} (h : s.abandonDtc k = .next t) :
    ∃ c, t = { s.changed c with dtcActive := none } ∧ StorageKept s.mem c.mem := by
  obtain ⟨u, hu, h⟩ := andThen_eq_next.mp h
  obtain ⟨c, a, d, e, hk⟩ := busAccesses_kept hu
  cases h
  exact ⟨c, by rw [e]; rfl, hk⟩

end Machine

end Sys2Proof
end

