-- ==== Sys2Proof/Laws/PerInstr.lean ====
section
/-! SUPPORT. Laws of the instructions as syntax, one lemma for each constructor. -/

namespace Sys2Proof.Laws.Length

/-- An instruction has one to four bytes (R70, R78 to R81). -/
def Statement (i : Instr) : Prop := 1 ≤ i.length ∧ i.length ≤ maxLength

theorem bounds (i : Instr) : Statement i := by
  unfold Statement Instr.length
  cases i <;> simp only [encode, encodeMovLoad, encodeMovStore, encodeAdd, encodeDivxu, encodeLdc, encodeEa,
    List.length_append, List.length_cons, List.length_nil, maxLength] <;> decide

theorem movRnRd (sz : Size) (e d : Reg) : Statement (.movRnRd sz e d) := bounds _
theorem movIndRd (sz : Size) (e d : Reg) : Statement (.movIndRd sz e d) := bounds _
theorem movDisp8Rd (sz : Size) (disp : Byte) (e d : Reg) : Statement (.movDisp8Rd sz disp e d) := bounds _
theorem movDisp16Rd (sz : Size) (disp : Word) (e d : Reg) : Statement (.movDisp16Rd sz disp e d) := bounds _
theorem movPreDecRd (sz : Size) (e d : Reg) : Statement (.movPreDecRd sz e d) := bounds _
theorem movPostIncRd (sz : Size) (e d : Reg) : Statement (.movPostIncRd sz e d) := bounds _
theorem movAbs8Rd (sz : Size) (a : Byte) (d : Reg) : Statement (.movAbs8Rd sz a d) := bounds _
theorem movAbs16Rd (sz : Size) (a : Word) (d : Reg) : Statement (.movAbs16Rd sz a d) := bounds _
theorem movImm8Rd (v : Byte) (d : Reg) : Statement (.movImm8Rd v d) := bounds _
theorem movImm16Rd (v : Word) (d : Reg) : Statement (.movImm16Rd v d) := bounds _
theorem movRsRn (sz : Size) (e r : Reg) : Statement (.movRsRn sz e r) := bounds _
theorem movRsInd (sz : Size) (e r : Reg) : Statement (.movRsInd sz e r) := bounds _
theorem movRsDisp8 (sz : Size) (disp : Byte) (e r : Reg) : Statement (.movRsDisp8 sz disp e r) := bounds _
theorem movRsDisp16 (sz : Size) (disp : Word) (e r : Reg) : Statement (.movRsDisp16 sz disp e r) := bounds _
theorem movRsPreDec (sz : Size) (e r : Reg) : Statement (.movRsPreDec sz e r) := bounds _
theorem movRsPostInc (sz : Size) (e r : Reg) : Statement (.movRsPostInc sz e r) := bounds _
theorem movRsAbs8 (sz : Size) (a : Byte) (r : Reg) : Statement (.movRsAbs8 sz a r) := bounds _
theorem movRsAbs16 (sz : Size) (a : Word) (r : Reg) : Statement (.movRsAbs16 sz a r) := bounds _
theorem addRnRd (sz : Size) (e d : Reg) : Statement (.addRnRd sz e d) := bounds _
theorem addIndRd (sz : Size) (e d : Reg) : Statement (.addIndRd sz e d) := bounds _
theorem addDisp8Rd (sz : Size) (disp : Byte) (e d : Reg) : Statement (.addDisp8Rd sz disp e d) := bounds _
theorem addDisp16Rd (sz : Size) (disp : Word) (e d : Reg) : Statement (.addDisp16Rd sz disp e d) := bounds _
theorem addPreDecRd (sz : Size) (e d : Reg) : Statement (.addPreDecRd sz e d) := bounds _
theorem addPostIncRd (sz : Size) (e d : Reg) : Statement (.addPostIncRd sz e d) := bounds _
theorem addAbs8Rd (sz : Size) (a : Byte) (d : Reg) : Statement (.addAbs8Rd sz a d) := bounds _
theorem addAbs16Rd (sz : Size) (a : Word) (d : Reg) : Statement (.addAbs16Rd sz a d) := bounds _
theorem addImm8Rd (v : Byte) (d : Reg) : Statement (.addImm8Rd v d) := bounds _
theorem addImm16Rd (v : Word) (d : Reg) : Statement (.addImm16Rd v d) := bounds _
theorem divxuRnRd (sz : Size) (e d : Reg) : Statement (.divxuRnRd sz e d) := bounds _
theorem divxuIndRd (sz : Size) (e d : Reg) : Statement (.divxuIndRd sz e d) := bounds _
theorem divxuDisp8Rd (sz : Size) (disp : Byte) (e d : Reg) : Statement (.divxuDisp8Rd sz disp e d) := bounds _
theorem divxuDisp16Rd (sz : Size) (disp : Word) (e d : Reg) : Statement (.divxuDisp16Rd sz disp e d) := bounds _
theorem divxuPreDecRd (sz : Size) (e d : Reg) : Statement (.divxuPreDecRd sz e d) := bounds _
theorem divxuPostIncRd (sz : Size) (e d : Reg) : Statement (.divxuPostIncRd sz e d) := bounds _
theorem divxuAbs8Rd (sz : Size) (a : Byte) (d : Reg) : Statement (.divxuAbs8Rd sz a d) := bounds _
theorem divxuAbs16Rd (sz : Size) (a : Word) (d : Reg) : Statement (.divxuAbs16Rd sz a d) := bounds _
theorem divxuImm8Rd (v : Byte) (d : Reg) : Statement (.divxuImm8Rd v d) := bounds _
theorem divxuImm16Rd (v : Word) (d : Reg) : Statement (.divxuImm16Rd v d) := bounds _
theorem ldcRn (sz : Size) (e : Reg) (c : ControlReg) : Statement (.ldcRn sz e c) := bounds _
theorem ldcInd (sz : Size) (e : Reg) (c : ControlReg) : Statement (.ldcInd sz e c) := bounds _
theorem ldcDisp8 (sz : Size) (disp : Byte) (e : Reg) (c : ControlReg) : Statement (.ldcDisp8 sz disp e c) := bounds _
theorem ldcDisp16 (sz : Size) (disp : Word) (e : Reg) (c : ControlReg) : Statement (.ldcDisp16 sz disp e c) := bounds _
theorem ldcPreDec (sz : Size) (e : Reg) (c : ControlReg) : Statement (.ldcPreDec sz e c) := bounds _
theorem ldcPostInc (sz : Size) (e : Reg) (c : ControlReg) : Statement (.ldcPostInc sz e c) := bounds _
theorem ldcAbs8 (sz : Size) (a : Byte) (c : ControlReg) : Statement (.ldcAbs8 sz a c) := bounds _
theorem ldcAbs16 (sz : Size) (a : Word) (c : ControlReg) : Statement (.ldcAbs16 sz a c) := bounds _
theorem ldcImm8 (v : Byte) (c : ControlReg) : Statement (.ldcImm8 v c) := bounds _
theorem ldcImm16 (v : Word) (c : ControlReg) : Statement (.ldcImm16 v c) := bounds _
theorem andcB (v : Byte) (c : ControlReg) : Statement (.andcB v c) := bounds _
theorem andcW (v : Word) (c : ControlReg) : Statement (.andcW v c) := bounds _
theorem orcB (v : Byte) (c : ControlReg) : Statement (.orcB v c) := bounds _
theorem orcW (v : Word) (c : ControlReg) : Statement (.orcW v c) := bounds _
theorem xorcB (v : Byte) (c : ControlReg) : Statement (.xorcB v c) := bounds _
theorem xorcW (v : Word) (c : ControlReg) : Statement (.xorcW v c) := bounds _
theorem trapa (v : BitVec 4) : Statement (.trapa v) := bounds _
theorem trapVs : Statement .trapVs := bounds _
theorem rte : Statement .rte := bounds _
theorem movI (v : Word) (d : Reg) : Statement (.movI v d) := bounds _
theorem nop : Statement .nop := bounds _

end Sys2Proof.Laws.Length
end

