-- ==== Sys2Proof/Laws/Words.lean ====
section
/-! SUPPORT. Words put together from bytes and taken apart again. -/

namespace Sys2Proof

theorem extractLsb'_append_high {m n : Nat} (a : BitVec m) (b : BitVec n) : (a ++ b).extractLsb' n m = a := by
  apply BitVec.eq_of_getLsbD_eq
  intro i hi
  simp [BitVec.getLsbD_append, hi]

theorem extractLsb'_append_low {m n : Nat} (a : BitVec m) (b : BitVec n) : (a ++ b).extractLsb' 0 n = b := by
  apply BitVec.eq_of_getLsbD_eq
  intro i hi
  simp [BitVec.getLsbD_append, hi]

theorem append_extractLsb' {m n : Nat} (x : BitVec (m + n)) : x.extractLsb' n m ++ x.extractLsb' 0 n = x := by
  apply BitVec.eq_of_getLsbD_eq
  intro i hi
  rw [BitVec.getLsbD_append]
  split
  · simp [*]
  · simp only [BitVec.getLsbD_extractLsb', show n + (i - n) = i by omega]
    simp [show i - n < m by omega]

@[simp] theorem wordOfBytes_upper_lower (w : Word) : wordOfBytes (upperByte w) (lowerByte w) = w :=
  append_extractLsb' (m := 8) (n := 8) w

@[simp] theorem upperByte_wordOfBytes (a b : Byte) : upperByte (wordOfBytes a b) = a :=
  extractLsb'_append_high a b

@[simp] theorem lowerByte_wordOfBytes (a b : Byte) : lowerByte (wordOfBytes a b) = b :=
  extractLsb'_append_low a b

end Sys2Proof
end

