-- ==== Sys2Proof/Laws/Stack.lean ====
section
/-! SUPPORT. Word stores, pops and vector fetches on storage that is ready for them. -/

namespace Sys2Proof.Machine

/-- Two offsets of one page have one address iff they are the same. -/
theorem State.busAddress_inj {s : State} {p : Byte} {o o' : Word} :
    s.busAddress p o = s.busAddress p o' ↔ o = o' := by
  refine ⟨fun h => BitVec.eq_of_toNat_eq ?_, fun h => by rw [h]⟩
  have := o.isLt
  have := o'.isLt
  simp only [State.busAddress, busAddressIn] at h
  split at h <;> omega

theorem isOdd_sub_two (o : Word) : isOdd (o - 2) = isOdd o := by
  unfold isOdd
  simp only [BitVec.getLsbD, Nat.testBit_zero, BitVec.toNat_sub]
  simp
  omega

theorem isOdd_add_two (o : Word) : isOdd (o + 2) = isOdd o := by
  unfold isOdd
  simp only [BitVec.getLsbD, Nat.testBit_zero, BitVec.toNat_add]
  simp

theorem State.readableFor_word {s : State} {p : Byte} {o : Word} (he : isOdd o = false)
    (h : s.readableAt p o = true) (h' : s.readableAt p (o + 1) = true) : s.readableFor .word p o = true := by
  simp only [State.readableFor, he, h, h', Bool.not_false, Bool.and_self]

/-- A word stored in storage that a store changes, and every byte after it. -/
theorem storeWord_ready {s : State} {p : Byte} {o : Word} (v : Word) (hw : Memory.wf s.mem = true)
    (h : s.writableFor .word p o = true) :
    ∃ k k', s.region p o = .cell k ∧ s.region p (o + 1) = .cell k' ∧ isOdd o = false ∧
      storeWord p o v s = .next ⟨true, (s.writeCell k (upperByte v)).writeCell k' (lowerByte v)⟩ ∧
      ∀ p' o', ((s.writeCell k (upperByte v)).writeCell k' (lowerByte v)).byteAt p' o' =
        if s.busAddress p' o' = s.busAddress p (o + 1) then lowerByte v
        else if s.busAddress p' o' = s.busAddress p o then upperByte v
        else s.byteAt p' o' := by
  simp only [State.writableFor, Bool.and_eq_true, Bool.not_eq_true'] at h
  obtain ⟨k, hk⟩ := State.writableAt_iff.mp h.1.2
  obtain ⟨k', hk'⟩ := State.writableAt_iff.mp h.2
  refine ⟨k, k', hk, hk', h.1.1, storeWord_storage h.1.1 hk hk', fun p' o' => ?_⟩
  have hk'' : (s.writeCell k (upperByte v)).region p (o + 1) = .cell k' := hk'
  rw [State.byteAt_writeCell (memWrite_wf k _ hw) hk'', State.byteAt_writeCell hw hk]
  rfl

theorem popWord_ready {s : State} (h : s.readableFor .word s.tp s.sp = true) :
    popWord s = .next ⟨s.wordAt s.tp s.sp, s.setReg .r7 (s.sp + 2)⟩ := by
  rw [popWord, loadWord_storage h]
  rfl

/-- A vector fetch from an entry that is ready. -/
theorem loadVector_ready {s : State} {index : BitVec 6} (h : s.vectorReady index = true) :
    ∃ pc cp, loadVector index s = .next { s with pc := pc, cp := cp, stale := [] } ∧
      (s.mode.cpu = .minimum → pc = s.wordAt 0 (s.vectorAddress index) ∧ cp = s.cp) ∧
      (s.mode.cpu = .maximum → cp = s.byteAt 0 (s.vectorAddress index + 1) ∧
        pc = s.wordAt 0 (s.vectorAddress index + 2)) := by
  unfold State.vectorReady at h
  unfold loadVector State.vectorAddress at *
  cases hc : s.mode.cpu with
  | minimum =>
    simp only [hc] at h ⊢
    rw [loadWord_storage h]
    exact ⟨_, _, rfl, fun _ => ⟨rfl, rfl⟩, fun h => by cases h⟩
  | maximum =>
    simp only [hc, Bool.and_eq_true] at h ⊢
    rw [loadByte_storage h.1, andThen_next, loadWord_storage h.2]
    exact ⟨_, _, rfl, fun h => (by cases h), fun _ => ⟨lowerByte_setWidth _, rfl⟩⟩

end Sys2Proof.Machine
end

