-- ==== Sys2Proof/Tests/Slice0.lean ====
section
/-! SUPPORT. The model's own tests. Expected results are those of the vectors V1 to V36 and the programs of
spec/95_test_vectors.md and of the encodings of spec/30_encoding.md R79 to R82. The second half shows, for
every statement with hypotheses, a state and operands that meet them. -/

namespace Sys2Proof.Tests

open Sys2Proof.Machine

/-! ### States to test on -/

def putBytes (s : State) (a : Nat) : List Byte → State
  | [] => s
  | b :: bs => putBytes { s with mem := memWrite s.mem a b } (a + 1) bs

/-- Minimum mode, external memory everywhere outside the chip, nothing deferred: code at PC. -/
def chip (pc sp sr r0 r1 r2 : Word) (code : List Byte) : State :=
  putBytes { State.reset with
    defer := false, lastWasInstruction := false, pc := pc, sr := sr, regs := ⟨r0, r1, r2, 0, 0, 0, 0, sp⟩ }
    pc.toNat code

/-- The same in maximum mode: code at CP:PC. -/
def chipMax (cp : Byte) (pc : Word) (tp : Byte) (sp sr : Word) (code : List Byte) : State :=
  putBytes { State.reset with
    mode := ⟨.maximum, false⟩, defer := false, lastWasInstruction := false, cp := cp, pc := pc, tp := tp,
    sr := sr, regs := ⟨0, 0, 0, 0, 0, 0, 0, sp⟩ } (cp.toNat * 65536 + pc.toNat) code

/-- The outcome is a next state with a property. -/
def answers (o : Host.Outcome State Fault Refusal) (p : State → Bool) : Bool :=
  match o with
  | .next t => p t
  | .fault _ | .refused _ => false

def isNext (o : Host.Outcome State Fault Refusal) : Bool := answers o fun _ => true

theorem exists_next {o : Host.Outcome State Fault Refusal} (h : isNext o = true) : ∃ t, o = .next t := by
  cases o with
  | next t => exact ⟨t, rfl⟩
  | fault _ => cases h
  | refused _ => cases h

/-- The bytes from an address of page 0 up. -/
def bytesAt (s : State) (o : Word) (n : Nat) : List Byte :=
  (List.range n).map fun k => s.byteAt 0 (o + BitVec.ofNat 16 k)

/-! ### WellFormed refuses each ill-formed term (R80) -/

theorem test_sr_is_not_byte_size : (Instr.ldcRn .byte .r0 .sr).wellFormed = false := by decide

theorem test_ccr_is_not_word_size : (Instr.orcW 0 .ccr).wellFormed = false := by decide

theorem test_tp_is_not_word_size : (Instr.ldcImm16 0 .tp).wellFormed = false := by decide

theorem test_control_register_010_is_undefined : (Instr.andcB 0 .undefined2).wellFormed = false := by decide

theorem test_control_register_110_is_undefined : (Instr.xorcW 0 .undefined6).wellFormed = false := by decide

theorem test_legal_control_registers :
    (Instr.ldcRn .word .r0 .sr).wellFormed = true ∧ (Instr.ldcImm8 0 .tp).wellFormed = true := by decide

/-! ### Decoding: every row, from its bits written out (R79 to R81) -/

theorem test_decode_mov_to_register :
    decode [0b10101010, 0b10000011] = .instr (.movRnRd .word .r2 .r3) ∧
    decode [0b11010010, 0b10000011] = .instr (.movIndRd .byte .r2 .r3) ∧
    decode [0b11101001, 0x80, 0b10000111] = .instr (.movDisp8Rd .word 0x80 .r1 .r7) ∧
    decode [0b11110001, 0x12, 0x34, 0b10000000] = .instr (.movDisp16Rd .byte 0x1234 .r1 .r0) ∧
    decode [0b10110100, 0b10000101] = .instr (.movPreDecRd .byte .r4 .r5) ∧
    decode [0b11001111, 0b10000001] = .instr (.movPostIncRd .word .r7 .r1) ∧
    decode [0b00000101, 0xF0, 0b10000010] = .instr (.movAbs8Rd .byte 0xF0 .r2) ∧
    decode [0b00011101, 0xFF, 0x00, 0b10000010] = .instr (.movAbs16Rd .word 0xFF00 .r2) ∧
    decode [0b00000100, 0x7F, 0b10000110] = .instr (.movImm8Rd 0x7F .r6) ∧
    decode [0b00001100, 0x12, 0x34, 0b10000110] = .instr (.movImm16Rd 0x1234 .r6) := by decide

theorem test_decode_mov_from_register :
    decode [0b10100010, 0b10010011] = .instr (.movRsRn .byte .r2 .r3) ∧
    decode [0b11011010, 0b10010011] = .instr (.movRsInd .word .r2 .r3) ∧
    decode [0b11100001, 0xFE, 0b10010111] = .instr (.movRsDisp8 .byte 0xFE .r1 .r7) ∧
    decode [0b11111001, 0x12, 0x34, 0b10010000] = .instr (.movRsDisp16 .word 0x1234 .r1 .r0) ∧
    decode [0b10111111, 0b10010000] = .instr (.movRsPreDec .word .r7 .r0) ∧
    decode [0b11000100, 0b10010101] = .instr (.movRsPostInc .byte .r4 .r5) ∧
    decode [0b00001101, 0xF0, 0b10010010] = .instr (.movRsAbs8 .word 0xF0 .r2) ∧
    decode [0b00010101, 0xFF, 0x00, 0b10010010] = .instr (.movRsAbs16 .byte 0xFF00 .r2) := by decide

theorem test_decode_add :
    decode [0b10101010, 0b00100000] = .instr (.addRnRd .word .r2 .r0) ∧
    decode [0b11010010, 0b00100011] = .instr (.addIndRd .byte .r2 .r3) ∧
    decode [0b11101001, 0x80, 0b00100111] = .instr (.addDisp8Rd .word 0x80 .r1 .r7) ∧
    decode [0b11110001, 0x12, 0x34, 0b00100000] = .instr (.addDisp16Rd .byte 0x1234 .r1 .r0) ∧
    decode [0b10110100, 0b00100101] = .instr (.addPreDecRd .byte .r4 .r5) ∧
    decode [0b11001111, 0b00100001] = .instr (.addPostIncRd .word .r7 .r1) ∧
    decode [0b00000101, 0xF0, 0b00100010] = .instr (.addAbs8Rd .byte 0xF0 .r2) ∧
    decode [0b00011101, 0xFF, 0x00, 0b00100010] = .instr (.addAbs16Rd .word 0xFF00 .r2) ∧
    decode [0b00000100, 0x7F, 0b00100110] = .instr (.addImm8Rd 0x7F .r6) ∧
    decode [0b00001100, 0x12, 0x34, 0b00100110] = .instr (.addImm16Rd 0x1234 .r6) := by decide

theorem test_decode_divxu :
    decode [0b10100001, 0b10111000] = .instr (.divxuRnRd .byte .r1 .r0) ∧
    decode [0b11011010, 0b10111011] = .instr (.divxuIndRd .word .r2 .r3) ∧
    decode [0b11101001, 0x80, 0b10111111] = .instr (.divxuDisp8Rd .word 0x80 .r1 .r7) ∧
    decode [0b11110001, 0x12, 0x34, 0b10111000] = .instr (.divxuDisp16Rd .byte 0x1234 .r1 .r0) ∧
    decode [0b10110100, 0b10111101] = .instr (.divxuPreDecRd .byte .r4 .r5) ∧
    decode [0b11001111, 0b10111001] = .instr (.divxuPostIncRd .word .r7 .r1) ∧
    decode [0b00000101, 0xF0, 0b10111010] = .instr (.divxuAbs8Rd .byte 0xF0 .r2) ∧
    decode [0b00011101, 0xFF, 0x00, 0b10111010] = .instr (.divxuAbs16Rd .word 0xFF00 .r2) ∧
    decode [0b00000100, 0x7F, 0b10111110] = .instr (.divxuImm8Rd 0x7F .r6) ∧
    decode [0b00001100, 0x12, 0x34, 0b10111110] = .instr (.divxuImm16Rd 0x1234 .r6) := by decide

theorem test_decode_ldc :
    decode [0b10101000, 0b10001000] = .instr (.ldcRn .word .r0 .sr) ∧
    decode [0b11010010, 0b10001001] = .instr (.ldcInd .byte .r2 .ccr) ∧
    decode [0b11100001, 0x80, 0b10001011] = .instr (.ldcDisp8 .byte 0x80 .r1 .br) ∧
    decode [0b11110001, 0x12, 0x34, 0b10001100] = .instr (.ldcDisp16 .byte 0x1234 .r1 .ep) ∧
    decode [0b10110100, 0b10001101] = .instr (.ldcPreDec .byte .r4 .dp) ∧
    decode [0b11001111, 0b10001000] = .instr (.ldcPostInc .word .r7 .sr) ∧
    decode [0b00000101, 0xF0, 0b10001111] = .instr (.ldcAbs8 .byte 0xF0 .tp) ∧
    decode [0b00011101, 0xFF, 0x00, 0b10001010] = .instr (.ldcAbs16 .word 0xFF00 .undefined2) ∧
    decode [0b00000100, 0x00, 0b10001111] = .instr (.ldcImm8 0x00 .tp) ∧
    decode [0b00001100, 0x12, 0x34, 0b10001110] = .instr (.ldcImm16 0x1234 .undefined6) := by decide

theorem test_decode_control_logic :
    decode [0b00000100, 0xF0, 0b01011001] = .instr (.andcB 0xF0 .ccr) ∧
    decode [0b00001100, 0x7F, 0xFF, 0b01011000] = .instr (.andcW 0x7FFF .sr) ∧
    decode [0b00000100, 0x0F, 0b01001001] = .instr (.orcB 0x0F .ccr) ∧
    decode [0b00001100, 0x80, 0x00, 0b01001000] = .instr (.orcW 0x8000 .sr) ∧
    decode [0b00000100, 0x02, 0b01101001] = .instr (.xorcB 0x02 .ccr) ∧
    decode [0b00001100, 0x80, 0x00, 0b01101000] = .instr (.xorcW 0x8000 .sr) := by decide

theorem test_decode_special :
    decode [0b00001000, 0b00010101] = .instr (.trapa 5) ∧
    decode [0b00001001] = .instr .trapVs ∧
    decode [0b00001010] = .instr .rte ∧
    decode [0b01011111, 0xFE, 0x00] = .instr (.movI 0xFE00 .r7) ∧
    decode [0b00000000] = .instr .nop := by decide

/-- Outside the rows: a second byte of TRAPA that is not `0001vvvv`, an operation code of no row, a store to
an immediate, ANDC of a register, and a first byte of no row (R80, R81, R83). -/
theorem test_decode_unknown :
    decode [0x08, 0x25] = .unknown ∧ decode [0xAA, 0x28] = .unknown ∧ decode [0x04, 0x12, 0x90] = .unknown ∧
    decode [0xA0, 0x59] = .unknown ∧ decode [0x01] = .unknown := by decide

/-- Table words: the first byte is the most significant (log entry 3). -/
theorem test_decode_table_words :
    decodeTableWord 16 0xAA20 = some (.addRnRd .word .r2 .r0) ∧
    decodeTableWord 32 0x1DFF0090 = some (.movRsAbs16 .word 0xFF00 .r0) ∧
    decodeTableWord 24 0x58FF02 = some (.movI 0xFF02 .r0) ∧
    decodeTableWord 8 0x0A = some .rte := by decide

/-- A table word is run by the very first step after reset (log entry 17). -/
theorem test_with_fetch_word :
    answers (step (State.reset.withFetchWord 24 0x58FF02)) (fun t => t.reg .r0 == 0xFF02 && t.pc == 3) = true := by
  decide

/-! ### Storage -/

theorem test_reset_memory_is_canonical : Memory.wf State.reset.mem = true := by decide

theorem test_writing_the_unlisted_value_removes_the_cell :
    memWrite (memWrite (memWrite [] 5 1) 3 2) 5 0 = [(3, 2)] := by decide

/-! ### One step of each family (vectors of spec/95_test_vectors.md) -/

/-- V1: the vector entries of TRAPA #15 and of the last internal interrupt. -/
theorem test_v1_vector_addresses :
    (chip 0 0 0 0 0 0 []).vectorAddress 31 = 0x3E ∧ (chip 0 0 0 0 0 0 []).vectorAddress 63 = 0x7E ∧
    (chipMax 0 0 0 0 0 []).vectorAddress 31 = 0x7C ∧ (chipMax 0 0 0 0 0 []).vectorAddress 63 = 0xFC := by decide

/-- V2: TRAPA #0 in minimum mode. -/
theorem test_v2_trapa_minimum :
    answers (step (putBytes (chip 0x0100 0xFF00 0x0700 0 0 0 [0x08, 0x10]) 0x20 [0x12, 0x34])) (fun t =>
      t.sp == 0xFEFC && bytesAt t 0xFEFC 4 == [0x07, 0x00, 0x01, 0x02] && t.sr == 0x0700 && t.pc == 0x1234 &&
      !t.defer) = true := by decide

/-- V3 (the vector's last byte changed to 1): TRAPA #15 in maximum mode, with T = 1. -/
theorem test_v3_trapa_maximum :
    answers (step (putBytes (chipMax 1 0x8000 0 0xFF00 0x8300 [0x08, 0x1F]) 0x7C [0, 2, 0x40, 1])) (fun t =>
      t.sp == 0xFEFA && t.sr == 0x0300 && t.cp == 2 && t.pc == 0x4001) = true := by decide

/-- V4, V5: TRAP/VS. -/
theorem test_v4_trap_vs :
    answers (step (putBytes (chip 0x2000 0xFE00 0x0002 0 0 0 [0x09]) 8 [0x30, 0x00])) (fun t =>
      t.sp == 0xFDFC && bytesAt t 0xFDFC 4 == [0x00, 0x02, 0x20, 0x01] && t.pc == 0x3000) = true := by decide

theorem test_v5_trap_vs_without_overflow :
    answers (step (chip 0x2000 0xFE00 0 0 0 0 [0x09])) (fun t => t.sp == 0xFE00 && t.pc == 0x2001) = true := by
  decide

/-- V6 (the vector's last byte changed to 1): DIVXU.W by zero goes to vector 3. -/
theorem test_v6_zero_divide :
    answers (step (putBytes (chip 0x0200 0xFF00 0x0300 5 6 0 [0xAA, 0xB8]) 6 [0x40, 0x01])) (fun t =>
      t.sp == 0xFEFC && t.pc == 0x4001 && !t.defer) = true := by decide

/-- V7: DIVXU.B by a divisor that is not zero: no sequence. -/
theorem test_v7_divide :
    answers (step (chip 0x0200 0xFF00 0 5 0x0001 0 [0xA1, 0xB8])) (fun t => t.sp == 0xFF00 && t.pc == 0x0202) =
      true := by decide

/-- V8: LDC.B #0, TP. -/
theorem test_v8_ldc_tp :
    answers (step (chipMax 0 0x0100 5 0xFF00 0x070F [0x04, 0x00, 0x8F])) (fun t =>
      t.tp == 0 && t.pc == 0x0103 && t.defer && t.sr == 0x070F) = true := by decide

/-- V9, step 1: LDC.W R0, SR. -/
theorem test_v9_ldc_sr :
    answers (step (chip 0x1000 0xFF00 0 0x8000 0 0 [0xA8, 0x88])) (fun t =>
      t.sr == 0x8000 && t.pc == 0x1002 && t.defer) = true := by decide

/-- V10: ANDC.W. -/
theorem test_v10_andc :
    answers (exec (.andcW 0x7FFF .sr) (chip 0x1000 0xFF00 0x8700 0 0 0 [])) (fun t =>
      t.sr == 0x0700 && t.pc == 0x1004 && t.defer) = true := by decide

/-- V11: ORC.W. -/
theorem test_v11_orc :
    answers (exec (.orcW 0x0700 .sr) (chip 0x1000 0xFF00 0x0300 0 0 0 [])) (fun t =>
      t.sr == 0x0700 && t.defer) = true := by decide

/-- V12: XORC.B. -/
theorem test_v12_xorc :
    answers (exec (.xorcB 0x02 .ccr) (chip 0x1000 0xFF00 0x0002 0 0 0 [])) (fun t =>
      t.sr == 0 && t.pc == 0x1003 && t.defer) = true := by decide

/-- V13: RTE in minimum mode. -/
theorem test_v13_rte_minimum :
    answers (step (putBytes (chip 0x3000 0xFEFC 0 0 0 0 [0x0A]) 0xFEFC [0x83, 0x00, 0x10, 0x02])) (fun t =>
      t.sr == 0x8300 && t.pc == 0x1002 && t.sp == 0xFF00 && t.defer) = true := by decide

/-- V14: RTE in maximum mode. -/
theorem test_v14_rte_maximum :
    answers (step (putBytes (chipMax 0 0x3000 1 0xFEFA 0 [0x0A]) 0x1FEFA [0x03, 0x00, 0x5A, 0x02, 0x10, 0x02]))
      (fun t => t.sr == 0x0300 && t.cp == 2 && t.pc == 0x1002 && t.sp == 0xFF00) = true := by decide

/-- V17: ADD.W with a carry, with an overflow, and to zero. -/
theorem test_v17_add_wraps :
    answers (step (chip 0x1000 0xFF00 0 0xFFFF 0 2 [0xAA, 0x20])) (fun t =>
      t.reg .r0 == 1 && t.sr == 0x0001 && t.pc == 0x1002) = true := by decide

theorem test_v17_add_overflows :
    answers (step (chip 0x1000 0xFF00 0 0x7FFF 0 1 [0xAA, 0x20])) (fun t =>
      t.reg .r0 == 0x8000 && t.sr == 0x000A) = true := by decide

/-- V18, step 1: a word store to an odd address. -/
theorem test_v18_odd_store :
    answers (step (chip 0x1000 0xFF00 0 7 0 0 [0x1D, 0xFF, 0x01, 0x90])) (fun t =>
      t.addrErrPending && t.pc == 0x1004 && t.sp == 0xFF00) = true := by decide

/-- V19: a push, and a pop. -/
theorem test_v19_push :
    answers (step (chip 0x1000 0xFF00 0 0x1234 0 0 [0xBF, 0x90])) (fun t =>
      t.sp == 0xFEFE && bytesAt t 0xFEFE 2 == [0x12, 0x34]) = true := by decide

theorem test_v19_pop :
    answers (step (putBytes (chip 0x1000 0xFEFE 0 0 0 0 [0xCF, 0x81]) 0xFEFE [0x12, 0x34])) (fun t =>
      t.reg .r1 == 0x1234 && t.sp == 0xFF00) = true := by decide

/-- E3, step 2: MOV.W to on-chip RAM, upper byte first. -/
theorem test_e3_store_is_upper_byte_first :
    answers (step (chip 0x1002 0xFE00 0 0x0115 0 0 [0x1D, 0xFF, 0x00, 0x90])) (fun t =>
      bytesAt t 0xFF00 2 == [0x01, 0x15] && t.pc == 0x1006) = true := by decide

/-- A byte load keeps the upper byte of its register and sets N from bit 7 (log entries 10 and 11). -/
theorem test_byte_load :
    answers (step (putBytes (chip 0x1000 0xFF00 0x0002 0x1234 0 0 [0x15, 0x90, 0x00, 0x80]) 0x9000 [0x80]))
      (fun t => t.reg .r0 == 0x1280 && t.sr == 0x0008) = true := by decide

/-- A displacement of one byte is signed; the address register is not modified (log entry 9). -/
theorem test_signed_displacement :
    answers (exec (.movDisp8Rd .word 0xFE .r1 .r0) (putBytes (chip 0x1000 0 0 0 0x9002 0 []) 0x9000 [0x56, 0x78]))
      (fun t => t.reg .r0 == 0x5678 && t.reg .r1 == 0x9002) = true := by decide

/-! ### Exceptions at the boundary -/

def withRequest (s : State) (k : Fin 21) (level : BitVec 3) : State :=
  { s with pending := s.pending.set k true, level := s.level.set k level }

/-- V22: acceptance by level. -/
theorem test_v22_acceptance :
    (withRequest (chip 0 0 0x0000 0 0 0 []) 0 0).chosen = none ∧
    (withRequest (chip 0 0 0x0000 0 0 0 []) 0 1).chosen = some (.maskable 0) ∧
    (withRequest (chip 0 0 0x0300 0 0 0 []) 0 3).chosen = none ∧
    (withRequest (chip 0 0 0x0300 0 0 0 []) 0 4).chosen = some (.maskable 0) ∧
    (withRequest (chip 0 0 0x0700 0 0 0 []) 0 7).chosen = none ∧
    State.chosen { chip 0 0 0x0700 0 0 0 [] with nmiPending := true } = some .nmi := by decide

/-- V23: of IRQ0 at level 5 and IRQ1 at level 3, IRQ0 is accepted; IRQ1 stays pending. -/
theorem test_v23_two_requests :
    answers (step (withRequest (withRequest (putBytes (chip 0x1000 0xFF00 0x0200 0 0 0 []) 0x40 [0x70, 0x00])
        1 3) 0 5)) (fun t =>
      bytesAt t 0xFEFC 4 == [0x02, 0x00, 0x10, 0x00] && t.sr == 0x0500 && t.pc == 0x7000 &&
      !t.pending.get 0 && t.pending.get 1) = true := by decide

/-- V9, step 3: the trace sequence. -/
theorem test_v9_trace :
    answers (step { putBytes (chip 0x1003 0xFF00 0x8000 0 0 0 []) 0x12 [0x50, 0x00] with
        lastWasInstruction := true }) (fun t =>
      bytesAt t 0xFEFC 4 == [0x80, 0x00, 0x10, 0x03] && t.sr == 0 && t.pc == 0x5000) = true := by decide

/-- V26: an address error before an interrupt. -/
theorem test_v26_address_error_first :
    answers (step (withRequest { putBytes (chip 0x1004 0xFF00 0 0 0 0 []) 0x10 [0x60, 0x00] with
        addrErrPending := true } 0 2)) (fun t =>
      bytesAt t 0xFEFC 4 == [0x00, 0x00, 0x10, 0x04] && t.pc == 0x6000 && t.pending.get 0) = true := by decide

/-- V20, step 2: with `defer` set an acceptable interrupt waits for one instruction. -/
theorem test_v20_deferral :
    answers (step (withRequest { chip 0x1004 0xFF00 0 0 0 0 [0x00] with defer := true } 0 3)) (fun t =>
      t.pc == 0x1005 && t.sp == 0xFF00 && !t.defer) = true := by decide

/-- V27: code at H'FF7E leaves an address error. -/
theorem test_v27_code_below_the_register_field :
    answers (step (chip 0xFF7E 0xFE00 0 0 0 0 [0x00])) (fun t => t.pc == 0xFF7F && t.addrErrPending) = true := by
  decide

/-- V28: nothing is executed in the register field. -/
theorem test_v28_register_field :
    answers (step { chip 0xFF90 0xFF00 0 0 0 0 [] with defer := true }) (fun t =>
      t.pc == 0xFF90 && t.addrErrPending && !t.defer && !t.lastWasInstruction) = true := by decide

/-- V29: off-chip accesses in single-chip mode, with on-chip ROM at H'0000 to H'7FFF. -/
theorem test_v29_single_chip :
    let s := { chip 0x1000 0xFF00 0 0 0 0 [] with
      mode := ⟨.minimum, true⟩, cfg := { Config.standard with rom := ⟨0, 0x8000⟩ } }
    let off := { s with rame := false }
    s.region 0 0x9000 = .error none ∧ s.region 0 0x7FFF = .rom 0x7FFF ∧ s.region 0 0xFB7F = .error none ∧
    s.region 0 0xFB80 = .cell 0xFB80 ∧ off.region 0 0xFB80 = .error (some 0xFB80) := by decide

/-- Without on-chip ROM a byte load from below H'8000 in single-chip mode completes with no address error
(R44), and so does a store, which changes no storage (log entry 42). -/
theorem test_vacant_place :
    let s := { chip 0xFC00 0xFF00 0 0 0 0 [] with mode := ⟨.minimum, true⟩ }
    answers (exec (.movAbs16Rd .byte 0x7FFF .r0) s) (fun t => t.pc == 0xFC04 && !t.addrErrPending) = true ∧
    answers (exec (.movRsAbs16 .word 0x0000 .r0) s) (fun t => t.pc == 0xFC04 && !t.addrErrPending && t.mem == s.mem)
      = true := by decide

/-- `Decode` as a parameter (D31): a chip that is given the row H'01 as `Invalid` takes vector 2 there, and one
that is given H'01 H'02 H'03 as NOP goes on three bytes later. -/
theorem test_given_row_is_invalid :
    answers (step { putBytes (chip 0x1000 0xFF00 0x8300 0 0 0 [0x01]) 4 [0x30, 0x01] with
      cfg := { Config.standard with codes := [⟨[0x01], none⟩] } }) (fun t =>
      t.sp == 0xFEFC && t.sr == 0x0300 && t.pc == 0x3001 && !t.defer) = true := by decide

theorem test_given_row_is_an_instruction :
    answers (step { chip 0x1000 0xFF00 0x0300 0 0 0 [0x01, 0x02, 0x03] with
      cfg := { Config.standard with codes := [⟨[0x01, 0x02, 0x03], some .nop⟩] } }) (fun t =>
      t.pc == 0x1003 && t.sp == 0xFF00 && t.sr == 0x0300) = true := by decide

/-- R60, D32: a store into any byte of the code at CP:PC. H'01 H'02 H'03 is given as NOP and H'01 as `Invalid`:
a store into the third byte, which keeps the longer code from being there, is one, a store past it is none.
So is one into the register field, where an instruction runs over H'FF7F, and one into a vacant byte. -/
theorem test_store_into_a_longer_given_row :
    (let s (stored : Nat) : State := { chip 0x1000 0xFF00 0x0300 0 0 0 [0x01, 0x02, 0x04] with
      stale := [stored]
      cfg := { Config.standard with codes := [⟨[0x01, 0x02, 0x03], some .nop⟩, ⟨[0x01], none⟩] } }
     step (s 0x1002) = .refused .storeIntoPrefetchedCode ∧ isNext (step (s 0x1003)) = true) := ⟨rfl, by decide⟩

theorem test_store_into_code_that_is_no_storage :
    step { chip 0xFF7E 0xFE00 0x0300 0 0 0 [0x58, 0x00] with stale := [0xFF80] } =
      .refused .storeIntoPrefetchedCode ∧
    step { chip 0x7FFC 0xFE00 0x0300 0 0 0 [] with
      mode := ⟨.minimum, true⟩
      mem := [(0x7FFC, 0x58), (0x7FFD, 0x12)]
      cfg := { Config.standard with rom := ⟨0, 0x7FFE⟩ }
      stale := [0x7FFE] } = .refused .storeIntoPrefetchedCode := ⟨rfl, rfl⟩

/-- V30: a DTC start. -/
theorem test_v30_dtc_start :
    answers (step (withRequest { chip 0x1000 0xFF00 0 0 0 0 [] with dte := (Vector.replicate 21 false).set 2 true }
        2 2)) (fun t => t.dtcActive == some 2 && !t.pending.get 2 && t.sp == 0xFF00 && t.pc == 0x1000) = true := by
  decide

/-- V31 (the vector's last byte changed to 1): an illegal control register takes vector 2. -/
theorem test_v31_invalid_instruction :
    answers (exec (.ldcRn .word .r0 .ccr) (putBytes (chip 0x1000 0xFF00 0x8300 0 0 0 []) 4 [0x30, 0x01])) (fun t =>
      t.sp == 0xFEFC && t.sr == 0x0300 && t.pc == 0x3001) = true := by decide

/-- V32, V33: the reset sequence in both modes. -/
theorem test_v32_reset_minimum :
    answers (step (putBytes { chip 0 0 0 0 0 0 [] with inReset := true } 0 [0x01, 0x00])) (fun t =>
      t.pc == 0x0100 && t.defer && !t.inReset && t.mds == 1) = true := by decide

theorem test_v33_reset_maximum :
    answers (step (putBytes { chip 0 0 0 0 0 0 [] with inReset := true, modePins := 3 } 0 [0xAA, 0x01, 0x80, 0x00]))
      (fun t => t.cp == 1 && t.pc == 0x8000 && t.defer) = true := by decide

/-- V34, step 1: after reset even NMI waits for one instruction. -/
theorem test_v34_nmi_after_reset :
    answers (step { chip 0x0100 0 0x0700 0 0 0 [0x5F, 0xFF, 0x00] with defer := true, nmiPending := true }) (fun t =>
      t.sp == 0xFF00 && t.pc == 0x0103 && t.nmiPending && !t.defer) = true := by decide

/-- V15, V35: an odd SP in RTE's pops, and in the sequence of an interrupt. -/
theorem test_v15_v35_odd_stack :
    step (chip 0x3000 0xFEFD 0 0 0 0 [0x0A]) = .fault .addressErrorInSequence ∧
    step (withRequest (chip 0x1000 0xFEFF 0 0 0 0 []) 0 1) = .fault .addressErrorInSequence := ⟨rfl, rfl⟩

/-- V36: an NMI under the mask level 7. -/
theorem test_v36_nmi_in_nmi :
    answers (step { putBytes (chip 0x9000 0xFE00 0x0700 0 0 0 []) 0x16 [0x90, 0x00] with nmiPending := true })
      (fun t => t.sp == 0xFDFC && t.sr == 0x0700 && t.pc == 0x9000 && !t.nmiPending) = true := by decide

/-! ### Witnesses: a state and operands that meet the hypotheses of each statement -/

/-- Minimum mode, ready stack and vectors. -/
def minimumState : State := chip 0x1000 0xFF00 0x0300 1 2 3 []

/-- Maximum mode, code on page 1, the stack on page 2. -/
def maximumState : State := chipMax 1 0x8000 2 0xFF00 0x0300 []

def nopState : State := chip 0x1000 0xFF00 0 0 0 0 [0x00]

theorem witness_DecodedBytesAreTheEncoding :
    decode [0x08, 0x1F, 0xFF] = .instr (.trapa 15) ∧ decode [0xFF, 0xFF, 0xFF, 0xBF] =
      .instr (.divxuDisp16Rd .word 0xFFFF .r7 .r7) := by decide

/-- A chip that is given H'01 as `Invalid` and H'02 H'03 as NOP. -/
def given : List Config.CodeRow := [⟨[0x01], none⟩, ⟨[0x02, 0x03], some .nop⟩]

def givenState (code : List Byte) : State :=
  { chip 0x1000 0xFF00 0x0300 0 0 0 code with cfg := { Config.standard with codes := given } }

theorem given_leaves_nop : Config.CodeRow.leaves given (encode .nop) := by
  intro r hr _ rest
  rcases List.mem_cons.mp hr with h | h
  · subst h
    rintro ⟨u, hu⟩
    exact absurd (List.cons.inj hu).1 (by decide)
  · rcases List.mem_singleton.mp h with rfl
    rintro ⟨u, hu⟩
    exact absurd (List.cons.inj hu).1 (by decide)

theorem nopState_holds_nop (u : State) (h : (u.codeRegion 0 = .cell 0x1000 ∨ u.codeRegion 0 = .rom 0x1000) ∧
    memRead u.mem 0x1000 = 0x00) : u.holdsCode (encode .nop) := by
  intro n hn
  have h0 : n = 0 := Nat.lt_one_iff.mp hn
  subst h0
  exact ⟨0x1000, h.1, h.2⟩

theorem witness_UnknownBytesAreRefused :
    (let s := chip 0x1000 0 0 0 0 0 [0x01]
     s.env = [] ∧ s.nextAction = .instruction ∧ s.mayFetch = true ∧ s.decoded = .unknown) ∧
    Config.CodeRow.leaves given (encode .nop) ∧ decode (encode .nop) = .instr .nop ∧
    Config.CodeRow.leaves [] [0x01] ∧ decode [0x01] = .unknown ∧ lookup given [0x01, 0x00] = .invalid 1 :=
  ⟨by decide, given_leaves_nop, by decide, fun _ h => absurd h List.not_mem_nil, by decide, by decide⟩

theorem witness_StepRunsTheDecodedInstruction :
    (let s := chip 0x1000 0 0 0 0 0 [0x08, 0x1F]
     s.env = [] ∧ s.nextAction = .instruction ∧ s.mayFetch = true ∧ s.decoded = .instr (.trapa 15) 2 ∧
     s.staleWithin 2 = false ∧ Instr.length (.trapa 15) = 2 ∧ s.prefetchError 2 = false ∧
     s.drawnWithin 2 = false ∧ s.addrErrDetected = false) ∧
    (let s := givenState [0x02, 0x03]
     s.env = [] ∧ s.nextAction = .instruction ∧ s.mayFetch = true ∧ s.decoded = .instr .nop 2 ∧
     s.staleWithin 2 = false) := by decide

theorem witness_StepRunsTheEncodedInstruction :
    ∃ s : State, s.env = [] ∧ s.nextAction = .instruction ∧ lookup s.cfg.codes (encode .nop) = .instr .nop 1 ∧
      Config.CodeRow.leaves s.cfg.codes (encode .nop) ∧ s.holdsCode (encode .nop) ∧
      s.staleWithin 1 = false ∧ ∀ n, n < Instr.length .nop → s.staleAt n = false :=
  ⟨givenState [0x00], by decide, by decide, by decide, given_leaves_nop, nopState_holds_nop _ (by decide), by decide,
    by decide⟩

theorem witness_StoreIntoFetchedCodeIsRefused :
    (let s (code : List Byte) : State := { givenState code with stale := [0x1000] }
     (s [0x00]).env = [] ∧ (s [0x00]).nextAction = .instruction ∧ (s [0x00]).mayFetch = true ∧
     (s [0x00]).decoded = .instr .nop 1 ∧ (s [0x01]).decoded = .invalid 1 ∧
     (s [0x00]).byteKey ((s [0x00]).codeAddress 0).1 ((s [0x00]).codeAddress 0).2 ∈ (s [0x00]).stale ∧
     (s [0x00]).holdsCode (encode .nop) ∧ Config.CodeRow.leaves (s [0x00]).cfg.codes (encode .nop)) ∧
    (movStoreRow .word (.abs16 0xFF00) .r0 = some (.movRsAbs16 .word 0xFF00 .r0) ∧
     answers (exec (.movRsAbs16 .word 0xFF00 .r0) minimumState) (fun t => t.stale == [0xFF01, 0xFF00]) = true ∧
     minimumState.place .word (.abs16 0xFF00) = .memory 0 0xFF00) ∧
    isNext (exceptionSequence 9 0x1000 0 none minimumState) = true ∧ isNext (exec .rte minimumState) = true ∧
    isNext (resetSequence minimumState) = true :=
  ⟨⟨by decide, by decide, by decide, by decide, by decide, by decide, nopState_holds_nop _ (by decide),
    given_leaves_nop⟩, by decide, by decide, by decide, by decide⟩

/-- The third clause: the last byte of H'02 H'03 was stored to, and H'02 is given as `Invalid`. -/
def brokenState : State :=
  { chip 0x1000 0xFF00 0x0300 0 0 0 [0x02, 0x04] with
    stale := [0x1001], cfg := { Config.standard with codes := given ++ [⟨[0x02], none⟩] } }

theorem witness_StoreIntoALongerGivenCodeIsRefused :
    brokenState.env = [] ∧ brokenState.nextAction = .instruction ∧ brokenState.mayFetch = true ∧
    brokenState.decoded = .invalid 1 ∧
    brokenState.cfg.codes = [⟨[0x01], none⟩] ++ ⟨[0x02, 0x03], some .nop⟩ :: [⟨[0x02], none⟩] ∧
    (∀ q : Config.CodeRow, q = ⟨[0x02, 0x03], some .nop⟩ ∨ q ∈ [(⟨[0x01], none⟩ : Config.CodeRow)] → q.code ≠ [] →
      ¬ q.code <+: brokenState.codeBytes) ∧
    ∀ (n : Nat) (c b : Byte), [(0x02 : Byte), 0x03][n]? = some c → brokenState.codeBytes[n]? = some b →
      c = b ∨ brokenState.byteKey (brokenState.codeAddress n).1 (brokenState.codeAddress n).2 ∈ brokenState.stale := by
  refine ⟨by decide, by decide, by decide, by decide, by decide, fun q hq _ => ?_, fun n c b hc hb => ?_⟩
  · rcases hq with rfl | hq
    · decide
    · rcases List.mem_singleton.mp hq with rfl
      decide
  · match n with
    | 0 => exact .inl (Option.some.inj (hc.symm.trans (hb.symm.trans (by decide)).symm))
    | 1 => exact .inr (by decide)
    | n + 2 => cases hc

/-- The fourth: the byte after a NOP was stored to. -/
theorem witness_WhatTheStoredBytesHeldDoesNotMatter :
    ∃ (s : State) (bs : List Byte), s.decoded = .instr .nop 1 ∧ s.staleWithin 1 = false ∧
      bs.length = s.codeBytes.length ∧ bs ≠ s.codeBytes ∧
      ∀ n, s.byteKey (s.codeAddress n).1 (s.codeAddress n).2 ∉ s.stale → bs[n]? = s.codeBytes[n]? := by
  let s : State := { givenState [0x00] with stale := [0x1001] }
  refine ⟨s, s.codeBytes.set 1 0xAA, by decide, by decide, by decide, by decide, fun n hn => ?_⟩
  exact List.getElem?_set_ne (by rintro rfl; exact hn (by decide))

theorem witness_EveryStepKeepsTheInvariant : ∃ s t : State, s.Inv ∧ step s = .next t := by
  have hi : minimumState.Inv :=
    ⟨by decide, fun _ _ _ => rfl, by decide, by decide, by decide, ⟨by decide, by decide, by decide⟩⟩
  obtain ⟨t, h⟩ := exists_next (o := step minimumState) (by decide)
  exact ⟨minimumState, t, hi, h⟩

theorem witness_ModeIsFixedBetweenResets :
    isNext (step nopState) = true ∧ nopState.applyEnvironment.nextAction ≠ .reset := by decide

theorem witness_PageRegistersChangeOnlyByControlInstructions :
    isNext (exec (.ldcImm8 5 .tp) minimumState) = true ∧ isNext (perform .trace minimumState) = true ∧
    isNext (perform (.accept .nmi) maximumState) = true := by decide

theorem witness_AnAttemptToFetchKeepsThePageRegisters :
    isNext (instructionStep (givenState [0x01])) = true ∧ (givenState [0x01]).decoded = .invalid 1 := by decide

/-- With memory declared everywhere every access of the DTC is admitted. -/
theorem admits_of_external {s : State} (h : s.cfg.external = Config.standard.external) (a : BusAccess) :
    s.admits a := by
  intro b
  have key : ∀ p o, regionIn s.mode b s.cfg (s.busAddress p o) ≠ .absent ∧
      ∀ k, regionIn s.mode b s.cfg (s.busAddress p o) ≠ .disabled k := fun p o => by
    have hx : Config.Params.externalAt s.cfg (s.busAddress p o) = true := by
      have := s.busAddress_lt p o
      simp [Config.Params.externalAt, h, Config.standard, Config.Range.holds, this]
    unfold regionIn externalRegion
    split_ifs <;> simp
  cases a <;> exact key _ _

/-- Whatever the accesses of `DtcCycle` are, such a state makes the cycle, or what a reset leaves of it. -/
theorem cycle_answers {s : State} (h : s.cfg.external = Config.standard.external) (k : Fin 21) :
    (∃ t, s.dtcCycle k = .next t) ∧ ∃ t, s.abandonDtc k = .next t := by
  obtain ⟨t, ht⟩ := busAccesses_answers (s := s.tick) (as := (Config.dtcCycle k s).accesses) fun a _ =>
    admits_of_external h a
  obtain ⟨u, hu⟩ := busAccesses_answers (s := s.tick)
    (as := (Config.dtcCycle k s).accesses.take (Config.dtcDone s.draws)) fun a _ => admits_of_external h a
  exact ⟨⟨_, andThen_eq_next.mpr ⟨t, ht, rfl⟩⟩, ⟨_, andThen_eq_next.mpr ⟨u, hu, rfl⟩⟩⟩

theorem witness_DataTransferCycleAnswers :
    (∃ t, perform (.dtc 20) minimumState = .next t) ∧ ∃ t, perform (.abandonDtc 20) minimumState = .next t :=
  cycle_answers rfl 20

theorem witness_OnlyTheFiveChangeMaskOrSetTrace :
    isNext (exec .nop minimumState) = true ∧ Instr.isFive .nop = false ∧
    isNext (exec (.ldcRn .word .r0 .ccr) minimumState) = true ∧
    Instr.wellFormed (.ldcRn .word .r0 .ccr) = false := by decide

theorem witness_TheFiveDeferAndNoOtherDoes :
    isNext (exec .rte minimumState) = true ∧ Instr.isFive .rte = true ∧ Instr.wellFormed .rte = true ∧
    minimumState.addrErrDetected = false ∧
    answers (exec .nop minimumState) (fun t => !t.addrErrPending) = true ∧ Instr.isFive .nop = false ∧
    isNext (exec .nop { minimumState with addrErrPending := true }) = true := by decide

theorem witness_DeferralSkipsTheBoundaryChecks : State.reset.running ∧ State.reset.defer = true := by
  unfold State.running
  decide

def bareState : State := { minimumState with rame := false, cfg := { Config.standard with external := [] } }

theorem witness_InstructionsStopOnlyByName :
    exec (.movAbs16Rd .byte 0xFB80 .r0) bareState = .refused .disabledRam ∧
    exec (.movAbs16Rd .byte 0x9000 .r0) bareState = .fault .absentMemory ∧
    exec .rte { minimumState with regs := ⟨0, 0, 0, 0, 0, 0, 0, 1⟩ } = .fault .addressErrorInSequence :=
  ⟨rfl, rfl, rfl⟩

/-- R147: an odd word store in the disabled RAM area draws the two bytes at the failing address. -/
theorem test_failing_odd_store_draws_the_disabled_ram :
    let s : State := { bareState with regs := ⟨1, 0, 0, 0, 0, 0, 0, 0⟩ }
    answers (exec (.movRsAbs16 .word 0xFB81 .r0) s) (fun t => t.addrErrPending && t.stale == [0xFB82, 0xFB81]) =
      true ∧
    drawByteAt 0 0xFB81 s = s.tick.writeCell 0xFB81 ((s.drawn .failingByte).setWidth 8) := ⟨rfl, rfl⟩

theorem witness_WordsAreStoredUpperByteFirst :
    minimumState.readableFor .word 0 0xFF7E = true ∧ maximumState.readableFor .word 255 0 = true ∧
    Memory.wf minimumState.mem = true ∧ minimumState.writableFor .word 0 0x0000 = true ∧
    minimumState.writableFor .word 0 0xFF7E = true ∧ Memory.wf maximumState.mem = true ∧
    maximumState.writableFor .word 255 0xFFFE = true := by decide

theorem witness_OddWordAccessIsAnAddressError :
    isOdd 0xFFFF = true ∧ isOdd (State.sp { minimumState with regs := ⟨0, 0, 0, 0, 0, 0, 0, 1⟩ }) = true ∧
    minimumState.readableAt 0 0xFF7F = true ∧ minimumState.acceptsAt 0 0xFF7F = true ∧
    minimumState.acceptsAt 0 0xFFFF = true ∧ minimumState.acceptsAt 0 0 = true ∧
    minimumState.writableAt 0 0xFF7F = true ∧ Memory.wf minimumState.mem = true := by decide

theorem witness_PushThenPopGivesTheWordBack :
    minimumState.readableFor .word minimumState.tp minimumState.sp = true ∧
    maximumState.readableFor .word maximumState.tp maximumState.sp = true ∧
    Memory.wf minimumState.mem = true ∧ minimumState.writableFor .word minimumState.tp (minimumState.sp - 2) = true ∧
    (let s : State := { maximumState with regs := ⟨0, 0, 0, 0, 0, 0, 0, 0⟩ }
     Memory.wf s.mem = true ∧ s.writableFor .word s.tp (s.sp - 2) = true) := by decide

theorem witness_StackFormsAlwaysMoveByTwo : Reg.r6 ≠ .r7 := by decide

theorem witness_OffChipAccessInSingleChipModeIsAnAddressError :
    let s : State := { minimumState with mode := ⟨.minimum, true⟩, rame := false }
    s.mode.singleChip = true ∧ s.busAddress 0 0x8000 = 0x8000 ∧ s.busAddress 0 0xFB7F = 0xFB7F ∧
    s.rame = false ∧ s.busAddress 0 0xFB80 = 0xFB80 ∧ s.busAddress 0 0xFF7F = 0xFF7F ∧
    isOdd 0xFF7F = true ∧ isOdd 0x8000 = false := by decide

/-- A MOV at an absolute address of the register field meets the hypotheses. -/
def reachesField (sz : Size) (a : Word) : Bool :=
  minimumState.place sz (.abs16 a) == .memory 0 a && accessSize sz (.abs16 a) == sz && (sz == .byte || !isOdd a) &&
  decide (0xFF80 ≤ minimumState.busAddress 0 a) && decide (minimumState.busAddress 0 a ≤ 0xFFFF) &&
  movStoreRow sz (.abs16 a) .r0 == some (.movRsAbs16 sz a .r0)

theorem witness_RegisterFieldAccessesReachTheNamedFields :
    reachesField .byte 0xFF80 = true ∧ reachesField .byte 0xFFF9 = true ∧ reachesField .byte 0xFFFF = true ∧
    reachesField .word 0xFF80 = true ∧ reachesField .word 0xFFFE = true ∧
    minimumState.addrErrDetected = false := ⟨rfl, rfl, rfl, rfl, rfl, rfl⟩

/-- Whether a store reaches RAMCR, at H'FFF9 under `Config.standard`. -/
theorem witness_AStoreReachesRamcrOrNot :
    minimumState.cfg.registers.ramcr = 0x79 ∧ storedAt .word 0x78 0x1280 0x79 = some 0x80 ∧
    storedAt .byte 0x79 0x1280 0x79 = some 0x80 ∧ storedAt .byte 0x78 0x1280 0x79 = none := by decide

theorem witness_SequenceSavesAndBranches :
    (Memory.wf minimumState.mem = true ∧ minimumState.stackReady = true ∧ minimumState.vectorReady 63 = true) ∧
    (Memory.wf maximumState.mem = true ∧ maximumState.stackReady = true ∧ maximumState.vectorReady 2 = true) := by
  decide

theorem witness_SequenceAndRteWithOddStackFault :
    isOdd (State.sp { maximumState with regs := ⟨0, 0, 0, 0, 0, 0, 0, 0xFFFF⟩ }) = true ∧
    isOdd (State.sp { minimumState with regs := ⟨0, 0, 0, 0, 0, 0, 0, 0xFEFD⟩ }) = true := by decide

theorem witness_SequenceFrame :
    isNext (exceptionSequence 9 0x1000 0 none minimumState) = true ∧
    isNext (exceptionSequence 11 0x8000 1 (some 7) maximumState) = true ∧
    answers (exceptionSequence 11 0x8000 1 (some 7) maximumState) (fun t => t.rame == maximumState.rame) = true := by
  decide

theorem witness_PendingAddressErrorIsTakenFirst :
    let s : State := { minimumState with addrErrPending := true }
    s.running ∧ s.defer = false ∧ s.addrErrPending = true ∧ Memory.wf s.mem = true ∧ s.stackReady = true ∧
    s.vectorReady 8 = true := by
  unfold State.running
  decide

theorem witness_TraceIsTakenAfterAnInstruction :
    let s : State := { maximumState with sr := 0x8700, lastWasInstruction := true }
    s.running ∧ s.defer = false ∧ s.addrErrPending = false ∧ traceOf s.sr = true ∧ s.lastWasInstruction = true ∧
    Memory.wf s.mem = true ∧ s.stackReady = true ∧ s.vectorReady 9 = true := by
  unfold State.running
  decide

theorem witness_NmiIsAcceptedUnderAnyMask :
    let s : State := { minimumState with sr := 0x0700, nmiPending := true }
    s.openToInterrupts ∧ s.nmiPending = true ∧ Memory.wf s.mem = true ∧ s.stackReady = true ∧
    s.vectorReady 11 = true := by
  unfold State.openToInterrupts State.running
  decide

theorem witness_AcceptedInterruptSetsTheMaskToItsLevel :
    let s : State := withRequest minimumState 20 7
    s.openToInterrupts ∧ s.chosen = some (.maskable 20) ∧ s.dte.get 20 = false ∧ Memory.wf s.mem = true ∧
    s.stackReady = true ∧ s.vectorReady (s.vectorOf 20) = true := by
  unfold State.openToInterrupts State.running
  decide

theorem witness_TheVectorIndicesAreDistinct : minimumState.cfg.legal := ⟨by decide, by decide, by decide⟩

theorem witness_RequestsAreAcceptedIffAboveTheMask :
    (withRequest minimumState 0 4).chosen = some (.maskable 0) ∧
    (withRequest minimumState 0 3).chosen = none := by decide

theorem witness_HighestLevelIsAcceptedFirst :
    let s : State := withRequest (withRequest minimumState 3 5) 4 5
    s.chosen = some (.maskable 3) ∧ s.acceptable 4 = true := by decide

theorem witness_DtcStartPushesNothing :
    let s : State := { withRequest minimumState 1 4 with dte := Vector.replicate 21 true }
    s.openToInterrupts ∧ s.chosen = some (.maskable 1) ∧ s.dte.get 1 = true := by
  unfold State.openToInterrupts State.running
  decide

theorem witness_DtcCycleEndsDeferred :
    let s : State := { minimumState with dtcActive := some 20 }
    s.env = [] ∧ s.inReset = false ∧ s.dtcActive = some 20 ∧ (∀ a ∈ (Config.dtcCycle 20 s).accesses, s.admits a) ∧
    ∃ t, step s = .next t :=
  ⟨rfl, rfl, rfl, fun a _ => admits_of_external rfl a,
    (cycle_answers (s := { minimumState with dtcActive := some 20 }) rfl 20).1⟩

/-- The clauses on the accesses of `DtcCycle`, whose list is open, hold of every list: here one whose last write
to H'FF7F is 2, with one to RAMCR after it. -/
theorem witness_TheLastWriteDecides :
    let as : List BusAccess := [.write 0 0xFF7F 1, .read 0 0xFF7F, .write 0 0xFF7F 2, .write 0 0xFFF9 0x80]
    minimumState.lastWrite as 0xFF7F = some 2 ∧ minimumState.lastWrite as 0xFB80 = none ∧
    minimumState.lastWrite as (fieldAddress minimumState.cfg.registers.ramcr) = some 0x80 ∧
    minimumState.lastWrite (as.take 3) (fieldAddress minimumState.cfg.registers.ramcr) = none ∧
    minimumState.writableAt 0 0xFF7F = true ∧ Memory.wf minimumState.mem = true ∧
    answers (busAccesses as minimumState) (fun t => t.byteAt 0 0xFF7F == 2 && t.rame) = true := by decide

/-- Accesses of the DTC that the model does not admit, each after one that it does: to no memory (R62), at both
ends of the addresses that are declared absent here, and to the disabled RAM area (U14). -/
theorem witness_TheDtcStopsWhereTheModelAdmitsNoAccess :
    bareState.accessRegion (.write 0 0x9000 1) = .absent ∧ bareState.accessRegion (.read 0 0xFB7F) = .absent ∧
    bareState.accessRegion (.write 0 0xFB80 1) = .disabled 0xFB80 ∧
    bareState.accessRegion (.read 0 0xFF7F) = .disabled 0xFF7F ∧
    bareState.lastWrite [.write 0 0xFF80 1] (fieldAddress bareState.cfg.registers.ramcr) = none ∧
    bareState.admits (.write 0 0xFF80 1) :=
  ⟨rfl, rfl, rfl, rfl, rfl, fun b => by
    cases b <;> exact ⟨by decide, fun k (h : Region.register 0 = .disabled k) => nomatch h⟩⟩

theorem test_dtc_write_to_no_memory :
    busAccesses [.write 0 0xFF80 1, .write 0 0x9000 1, .write 0 0xFF80 2] bareState = .fault .absentMemory ∧
    busAccesses [.write 0 0xFF80 1, .read 0 0xFB80] bareState = .refused .disabledRam := ⟨rfl, rfl⟩

/-- D27: RES goes Low while a data transfer cycle is under way. -/
theorem test_reset_within_a_data_transfer_cycle :
    State.nextAction (State.applyEnvironment { minimumState with dtcActive := some 3, env := [[.resLow]] }) =
      .abandonDtc 3 := rfl

theorem witness_ResetSequenceLoadsTheVector :
    (let s : State := { minimumState with inReset := true }
     s.env = [] ∧ s.inReset = true ∧ s.dtcActive = none ∧ s.resHigh = true ∧ s.latchMode.vectorReady 0 = true ∧
     s.latchMode.mode.cpu = .minimum) ∧
    (let s : State := { minimumState with inReset := true, modePins := 4 }
     s.env = [] ∧ s.inReset = true ∧ s.dtcActive = none ∧ s.resHigh = true ∧ s.latchMode.vectorReady 0 = true ∧
     s.latchMode.mode.cpu = .maximum) := by decide

theorem witness_OnChipRamSurvivesReset :
    isNext (perform .halted minimumState) = true ∧ isNext (resetSequence minimumState) = true ∧
    0xFB80 ≤ 0xFF7F := by decide

theorem witness_MemorySurvivesReset :
    isNext (perform .halted minimumState) = true ∧ isNext (resetSequence maximumState) = true := by decide

theorem witness_TheOutsideWorldChangesRequestsAndPins :
    (let s : State := { minimumState with env := [[.request (.maskable 20), .resLow]] }
     s.env = ([.request (.maskable 20)] ++ [.resLow]) :: [] ∧ s.dtcActive = none) ∧
    (let s : State := { minimumState with env := [[.resLow]] }
     s.env = ([] ++ [.resLow]) :: [] ∧ s.applyEnvironment.inReset = true ∧ s.applyEnvironment.resHigh = false ∧
     s.applyEnvironment.dtcActive = none) := by
  decide

theorem witness_AResetAbandonsADataTransferCycle :
    let s : State := { minimumState with dtcActive := some 3, env := [[.resLow]] }
    s.env = ([] ++ [.resLow]) :: [] ∧ s.dtcActive = some 3 ∧ (∀ a, s.admits a) ∧ ∃ t, step s = .next t :=
  ⟨rfl, rfl, fun a => admits_of_external rfl a,
    (cycle_answers (s := State.applyEnvironment { minimumState with dtcActive := some 3, env := [[.resLow]] }) rfl 3).2⟩

def singleChipState : State := { minimumState with mode := ⟨.minimum, true⟩ }

/-- The step would fetch an instruction here, and none may be fetched. -/
def blockedAt (s : State) (pc : Word) : Bool :=
  let u := { s with pc := pc }
  u.env.isEmpty && u.nextAction == .instruction && !u.mayFetch

theorem witness_NothingIsExecutedWhereNothingMayBeFetched :
    blockedAt minimumState 0xFF80 = true ∧ blockedAt minimumState 0xFFFF = true ∧
    blockedAt singleChipState 0x8000 = true ∧ blockedAt singleChipState 0xFB7F = true ∧
    blockedAt { singleChipState with rame := false } 0xFB80 = true ∧
    blockedAt { singleChipState with rame := false } 0xFF7F = true ∧
    blockedAt minimumState 0xFF7F = false := by decide

/-- The step executes a NOP at an address. -/
def nopAt (s : State) (pc : Word) : Bool :=
  let u := { s with pc := pc }
  u.env.isEmpty && u.nextAction == .instruction && u.busAddress u.cp u.pc == pc.toNat && u.mayFetch &&
    u.decoded == .instr .nop 1 && !u.staleWithin 1 && isNext (step u)

theorem witness_CodeJustBelowTheRegisterFieldRaisesAnError :
    nopAt minimumState 0xFF7D = true ∧ nopAt minimumState 0xFF7F = true := ⟨rfl, rfl⟩

theorem witness_CodeJustBelowTheBusRaisesAnErrorInSingleChipMode :
    let s : State := { singleChipState with cfg := { Config.standard with rom := ⟨0, 0x8000⟩ } }
    s.mode.singleChip = true ∧ nopAt s 0x7FFD = true ∧ nopAt s 0x7FFF = true := ⟨rfl, rfl, rfl⟩

theorem witness_InvalidInstructionTakesItsVector :
    (Instr.wellFormed (.xorcW 0 .undefined6) = false ∧ Memory.wf minimumState.mem = true ∧
     minimumState.stackReady = true ∧ minimumState.vectorReady 2 = true ∧
     minimumState.addrErrDetected = false) ∧
    (let s := givenState [0x01]
     s.env = [] ∧ s.nextAction = .instruction ∧ s.mayFetch = true ∧ s.decoded = .invalid 1 ∧
     s.staleWithin 1 = false ∧ Memory.wf s.mem = true ∧ s.stackReady = true ∧ s.vectorReady 2 = true ∧
     s.prefetchError 1 = false) := by decide

theorem witness_OperandFormsHaveTheirPlaces :
    minimumState.mode.cpu = .minimum ∧ maximumState.mode.cpu = .maximum ∧
    minimumState.busAddress 7 0xFF00 = 0xFF00 ∧ maximumState.busAddress 7 0xFF00 = 0x7FF00 ∧
    maximumState.place .byte (.preDec .r7) = .memory 2 0xFEFE ∧ Reg.r6 ≠ .r7 := by decide

theorem witness_MoveToRegisterWritesTheOperand :
    Ea.takesSize (.imm8 0x80) .byte = true ∧ minimumState.operandReadable .byte (.imm8 0x80) = true ∧
    Ea.takesSize (.postInc .r7) .byte = true ∧ minimumState.operandReadable .byte (.postInc .r7) = true ∧
    Ea.takesSize (.disp16 0xF000 .r0) .byte = true ∧
    minimumState.operandReadable .byte (.disp16 0xF000 .r0) = true ∧ minimumState.addrErrDetected = false ∧
    minimumState.operandAccepted .byte (.imm8 0x80) = true ∧
    minimumState.operandAccepted .byte (.postInc .r7) = true ∧
    minimumState.operandAccepted .word (.abs16 0xFFFE) = true ∧
    singleChipState.operandAccepted .word (.abs16 0x7FFE) = true := by
  decide

theorem witness_MoveFromRegisterWritesTheOperand :
    movStoreRow .byte (.preDec .r7) .r0 = some (.movRsPreDec .byte .r7 .r0) ∧
    minimumState.operandWritable .byte (.preDec .r7) = true ∧
    minimumState.operandAccepted .byte (.preDec .r7) = true ∧
    minimumState.place .byte (.preDec .r7) = .memory 0 0xFEFE ∧
    movStoreRow .word (.reg .r1) .r0 = some (.movRsRn .word .r1 .r0) ∧
    minimumState.operandWritable .word (.reg .r1) = true ∧
    minimumState.operandAccepted .word (.reg .r1) = true ∧ minimumState.place .word (.reg .r1) = .register .r1 ∧
    Memory.wf minimumState.mem = true ∧ minimumState.addrErrDetected = false := by decide

theorem witness_MoveImmediateWritesTheRegister : minimumState.addrErrDetected = false := by decide

theorem witness_WordLoadFromOddAddressCompletes :
    minimumState.place .word (.postInc .r0) = .memory 0 1 ∧ isOdd 1 = true ∧
    minimumState.place .word (.abs16 0xFFFF) = .memory 0 0xFFFF ∧ isOdd 0xFFFF = true := by decide

theorem witness_AddWritesTheSum :
    Ea.takesSize (.abs16 0xFF7E) .word = true ∧ minimumState.operandReadable .word (.abs16 0xFF7E) = true ∧
    minimumState.operandAccepted .word (.abs16 0xFF7E) = true ∧ minimumState.addrErrDetected = false := by decide

theorem witness_DivideByNonzeroCompletes :
    Ea.takesSize (.imm8 1) .byte = true ∧ minimumState.operandReadable .byte (.imm8 1) = true ∧
    cut .byte (minimumState.operandValue .byte (.imm8 1)) ≠ 0 ∧ minimumState.addrErrDetected = false ∧
    Ea.takesSize (.abs16 0xFF80) .byte = true ∧ minimumState.operandAccepted .byte (.abs16 0xFF80) = true ∧
    minimumState.operandAccepted .word (.abs16 0xFFFE) = true ∧
    singleChipState.operandAccepted .word (.abs16 0x7FFE) = true := by decide

theorem witness_TheDivisorIsWhatReadingGives :
    readOperand .byte (.imm8 1) minimumState = .next ⟨some 1, minimumState⟩ ∧ cut .byte 1 ≠ 0 :=
  ⟨rfl, by decide⟩

theorem witness_DivideByZeroTraps :
    Ea.takesSize (.abs16 0x9000) .word = true ∧ minimumState.operandReadable .word (.abs16 0x9000) = true ∧
    cut .word (minimumState.operandValue .word (.abs16 0x9000)) = 0 ∧ Reg.r5 ≠ .r7 ∧
    (Size.word = .word → pairOf .r5 ≠ .r7) ∧ Memory.wf minimumState.mem = true ∧
    (minimumState.modify .word (.abs16 0x9000)).stackReady = true ∧ minimumState.vectorReady 3 = true ∧
    minimumState.addrErrDetected = false := by decide

theorem witness_DivideFrame :
    isNext (exec (divxuRow .byte (.imm8 1) .r7) minimumState) = true ∧ Ea.takesSize (.imm8 1) .byte = true ∧
    answers (exec (divxuRow .byte (.imm8 0) .r1) minimumState) (fun t => t.rame == minimumState.rame) = true := by
  decide

theorem witness_RegisterDestinationFrame :
    isNext (exec (movLoadRow .word (.postInc .r7) .r0) minimumState) = true ∧
    isNext (exec (addRow .word (.abs16 1) .r0) minimumState) = true ∧
    Ea.takesSize (.postInc .r7) .word = true ∧ Ea.takesSize (.abs16 1) .word = true := by decide

theorem witness_StoreFrame :
    (minimumState.place .word (.abs16 0xFF7E) = .memory 0 0xFF7E ∧ minimumState.busAddress 0 0xFF7E = 0xFF7E ∧
     minimumState.busAddress 0 0xFF7F = 0xFF7F ∧
     isNext (exec (.movRsAbs16 .word 0xFF7E .r0) minimumState) = true) ∧
    movStoreRow .word (.abs16 0xFF80) .r0 = some (.movRsAbs16 .word 0xFF80 .r0) ∧
    isNext (exec (.movRsAbs16 .word 0xFF80 .r0) minimumState) = true ∧
    minimumState.place .word (.abs16 0xFF80) = .memory 0 0xFF80 ∧
    movStoreRow .byte (.reg .r1) .r0 = some (.movRsRn .byte .r1 .r0) ∧
    isNext (exec (.movRsRn .byte .r1 .r0) minimumState) = true ∧
    minimumState.place .byte (.reg .r1) = .register .r1 := by decide

theorem witness_LoadControlWritesTheControlRegister :
    ControlReg.fits .sr .word = true ∧ Ea.takesSize (.imm16 0xFFFF) .word = true ∧
    minimumState.operandReadable .word (.imm16 0xFFFF) = true ∧ ControlReg.fits .ccr .byte = true ∧
    Ea.takesSize (.reg .r0) .byte = true ∧ minimumState.operandReadable .byte (.reg .r0) = true ∧
    minimumState.operandAccepted .word (.imm16 0xFFFF) = true ∧
    minimumState.operandAccepted .byte (.reg .r0) = true := by decide

theorem witness_ControlLogicCombinesWithTheImmediate :
    ControlReg.fits .ccr .byte = true ∧ ControlReg.fits .tp .byte = true ∧ ControlReg.fits .sr .word = true := by
  decide

theorem witness_ControlInstructionFrame :
    Instr.control (.ldcPostInc .word .r7 .sr) = some (.sr, .word) ∧
    Instr.wellFormed (.ldcPostInc .word .r7 .sr) = true ∧
    isNext (exec (.ldcPostInc .word .r7 .sr) minimumState) = true := by decide

theorem witness_TrapaTakesItsVector :
    Memory.wf maximumState.mem = true ∧ maximumState.stackReady = true ∧
    maximumState.vectorReady (16 + (15 : BitVec 4).setWidth 6) = true ∧ maximumState.addrErrDetected = false := by
  decide

theorem witness_TrapVsTrapsOnOverflowAlone :
    (let s : State := { minimumState with sr := 2 }
     overflowOf s.sr = true ∧ Memory.wf s.mem = true ∧ s.stackReady = true ∧ s.vectorReady 4 = true ∧
     s.addrErrDetected = false) ∧
    overflowOf minimumState.sr = false ∧ minimumState.addrErrDetected = false := by decide

theorem witness_RteRestoresFromTheFrame :
    (minimumState.frameReady = true ∧ minimumState.mode.cpu = .minimum) ∧
    (maximumState.frameReady = true ∧ maximumState.mode.cpu = .maximum) := by decide

theorem witness_RteUndoesASequence :
    Memory.wf minimumState.mem = true ∧ asSr minimumState.sr = minimumState.sr ∧ minimumState.stackReady = true ∧
    minimumState.vectorReady 9 = true ∧ isNext (exceptionSequence 9 0x1000 0 none minimumState) = true := by decide

theorem witness_RteFrame : isNext (exec .rte minimumState) = true ∧ isNext (exec .rte maximumState) = true := by
  decide

theorem witness_NopOnlyAdvances : minimumState.addrErrDetected = false := by decide

end Sys2Proof.Tests
end

section
/-! The parameters and the operating mode over one step: what the outside world does keeps both, every action
but the reset sequence keeps both, and the reset sequence keeps the parameters. -/

namespace Sys2Proof.Machine

/-- Two states have the parameters of the chip and the operating mode in common. -/
structure SameSetup (s t : State) : Prop where
  cfg : t.cfg = s.cfg
  mode : t.mode = s.mode

theorem SameSetup.refl (s : State) : SameSetup s s := ⟨rfl, rfl⟩

theorem SameSetup.trans {s t u : State} (h : SameSetup s t) (h' : SameSetup t u) : SameSetup s u :=
  ⟨h'.cfg.trans h.cfg, h'.mode.trans h.mode⟩

theorem Between.sameSetup {s t : State} (h : Between s t) : SameSetup s t := ⟨h.cfg, h.mode⟩

/-! ### The outside world -/

theorem State.applyEvent_sameSetup (s : State) (e : EnvEvent) : SameSetup s (s.applyEvent e) := by
  cases e with
  | request src => cases src <;> exact ⟨rfl, rfl⟩
  | withdraw src => cases src <;> exact ⟨rfl, rfl⟩
  | resLow => exact ⟨rfl, rfl⟩
  | resHigh => exact ⟨rfl, rfl⟩
  | modePins v => exact ⟨rfl, rfl⟩

theorem foldl_applyEvent_sameSetup (es : List EnvEvent) (s : State) :
    SameSetup s (es.foldl State.applyEvent s) := by
  induction es generalizing s with
  | nil => exact .refl s
  | cons e es ih => exact (s.applyEvent_sameSetup e).trans (ih _)

/-- Setting the mode pins is not yet a change of the operating mode: only a reset latches them (R201). -/
theorem State.applyEnvironment_sameSetup (s : State) : SameSetup s s.applyEnvironment := by
  unfold State.applyEnvironment
  split
  · exact .refl s
  · next now later _ =>
    have h : SameSetup s { s with env := later } := ⟨rfl, rfl⟩
    exact h.trans (foldl_applyEvent_sameSetup now _)

/-! ### The actions -/

theorem exceptionSequence_sameSetup {index : BitVec 6} {pc : Word} {cp : Byte} {m : Option (BitVec 3)}
    {s t u : State} (h : exceptionSequence index pc cp m t = .next u) (hs : SameSetup s t) : SameSetup s u :=
  hs.trans (exceptionSequence_between h).sameSetup

theorem acceptRequest_sameSetup {src : Source} {s t : State} (h : acceptRequest src s = .next t) :
    SameSetup s t := by
  unfold acceptRequest at h
  split at h
  · exact exceptionSequence_sameSetup h ⟨rfl, rfl⟩
  · split at h
    · cases h
      exact ⟨rfl, rfl⟩
    · exact exceptionSequence_sameSetup h ⟨rfl, rfl⟩

/-- The one action that may change the mode leaves the parameters alone (R7). -/
theorem resetSequence_cfg {s t : State} (h : resetSequence s = .next t) : t.cfg = s.cfg := by
  obtain ⟨u, hu, h⟩ := andThen_eq_next.mp h
  obtain ⟨n, pc, cp, rfl, -⟩ := loadVector_kept hu
  cases h
  rfl

theorem perform_sameSetup {a : Action} {s t : State} (ha : a ≠ .reset) (h : perform a s = .next t) :
    SameSetup s t := by
  cases a with
  | halted => cases h; exact .refl s
  | reset => exact absurd rfl ha
  | dtc k => obtain ⟨c, rfl, -⟩ := State.dtcCycle_change h; exact ⟨rfl, rfl⟩
  | abandonDtc k => obtain ⟨c, rfl, -⟩ := State.abandonDtc_change h; exact ⟨rfl, rfl⟩
  | addressError => exact exceptionSequence_sameSetup h ⟨rfl, rfl⟩
  | trace => exact exceptionSequence_sameSetup h (.refl s)
  | accept src => exact acceptRequest_sameSetup h
  | instruction => exact (instructionStep_kept h).1.sameSetup

theorem perform_cfg {a : Action} {s t : State} (h : perform a s = .next t) : t.cfg = s.cfg := by
  by_cases ha : a = .reset
  · subst ha
    exact resetSequence_cfg h
  · exact (perform_sameSetup ha h).cfg

/-- Settles O10: the outside world keeps parameters and mode, and so does every action but the reset sequence,
which keeps the parameters. -/
theorem modeIsFixedBetweenResets : Obligations.ModeIsFixedBetweenResets := by
  intro s t h
  have henv := s.applyEnvironment_sameSetup
  exact ⟨(perform_cfg h).trans henv.cfg, fun ha => (henv.trans (perform_sameSetup ha h)).mode⟩

end Sys2Proof.Machine
end

section
/-! The outside world before a step, and reset: requests and pins, RES going Low with and without a data transfer
cycle under way, and what the reset sequence leaves. -/

namespace Sys2Proof.Machine

/-! ### Acts of the outside world -/

/-- What acts of the outside world can do: set pins and requests, and enter the reset state, which abandons an
address error (R200). -/
structure Acted (s t : State) : Prop where
  change : ∃ nmi p ae ad ir rh mp, t = { s with
    nmiPending := nmi, pending := p, addrErrPending := ae, addrErrDetected := ad
    inReset := ir, resHigh := rh, modePins := mp }
  detected : s.addrErrDetected = false → t.addrErrDetected = false
  halted : (s.inReset = true → s.addrErrPending = false) → t.inReset = true → t.addrErrPending = false

theorem Acted.refl (s : State) : Acted s s := ⟨⟨_, _, _, _, _, _, _, rfl⟩, id, id⟩

theorem Acted.trans {s t u : State} (h : Acted s t) (h' : Acted t u) : Acted s u := by
  obtain ⟨⟨_, _, _, _, _, _, _, rfl⟩, hd, hr⟩ := h
  obtain ⟨⟨_, _, _, _, _, _, _, rfl⟩, hd', hr'⟩ := h'
  exact ⟨⟨_, _, _, _, _, _, _, rfl⟩, hd' ∘ hd, hr' ∘ hr⟩

theorem State.applyEvent_acted (s : State) (e : EnvEvent) : Acted s (s.applyEvent e) := by
  cases e with
  | request src => cases src <;> exact ⟨⟨_, _, _, _, _, _, _, rfl⟩, id, id⟩
  | withdraw src => cases src <;> exact ⟨⟨_, _, _, _, _, _, _, rfl⟩, id, id⟩
  | resLow => exact ⟨⟨_, _, _, _, _, _, _, rfl⟩, fun _ => rfl, fun _ _ => rfl⟩
  | resHigh => exact ⟨⟨_, _, _, _, _, _, _, rfl⟩, id, id⟩
  | modePins v => exact ⟨⟨_, _, _, _, _, _, _, rfl⟩, id, id⟩

theorem foldl_applyEvent_acted (es : List EnvEvent) (s : State) : Acted s (es.foldl State.applyEvent s) := by
  induction es generalizing s with
  | nil => exact .refl s
  | cons e es ih => exact (s.applyEvent_acted e).trans (ih _)

theorem State.applyEnvironment_nil {s : State} (h : s.env = []) : s.applyEnvironment = s := by
  rw [State.applyEnvironment, h]

theorem State.applyEnvironment_cons {s : State} {now : List EnvEvent} {later : List (List EnvEvent)}
    (h : s.env = now :: later) : s.applyEnvironment = now.foldl State.applyEvent { s with env := later } := by
  rw [State.applyEnvironment, h]

theorem State.applyEnvironment_acted (s : State) : ∃ env, Acted { s with env := env } s.applyEnvironment := by
  cases h : s.env with
  | nil => exact ⟨s.env, by rw [State.applyEnvironment_nil h]; exact .refl s⟩
  | cons now later => exact ⟨later, by rw [State.applyEnvironment_cons h]; exact foldl_applyEvent_acted now _⟩

theorem getVector_set_same {α : Type} {n : Nat} (v : Vector α n) (k : Fin n) (x : α) : (v.set k x).get k = x := by
  simp [Vector.get_eq_getElem]

theorem getVector_set_other {α : Type} {n : Nat} (v : Vector α n) {j k : Fin n} (x : α) (h : j ≠ k) :
    (v.set k x).get j = v.get j := by
  simp [Vector.get_eq_getElem, Fin.val_inj, h.symm]

/-! ### The reset state -/

/-- The action in the reset state (R32, R200): what is left of a data transfer cycle is abandoned; with none under
way the machine waits for RES, and then runs the reset sequence. -/
theorem State.nextAction_inReset {s : State} (h : s.inReset = true) :
    (∃ k, s.dtcActive = some k ∧ s.nextAction = .abandonDtc k) ∨
    (s.dtcActive = none ∧ s.resHigh = true ∧ s.nextAction = .reset) ∨
    (s.dtcActive = none ∧ s.resHigh = false ∧ s.nextAction = .halted) := by
  unfold State.nextAction
  rw [if_pos h]
  cases s.dtcActive with
  | some k => exact .inl ⟨k, rfl, rfl⟩
  | none =>
    cases s.resHigh with
    | true => exact .inr (.inl ⟨rfl, rfl, rfl⟩)
    | false => exact .inr (.inr ⟨rfl, rfl, rfl⟩)

/-- While RES is Low and no data transfer cycle is left to abandon, no agent steps (R32, R200). -/
theorem step_halted {s : State} (h : s.applyEnvironment.inReset = true) (hr : s.applyEnvironment.resHigh = false)
    (hd : s.applyEnvironment.dtcActive = none) : step s = .next s.applyEnvironment := by
  have ha : s.applyEnvironment.nextAction = .halted := by simp only [State.nextAction, h, hd, hr]; rfl
  rw [step, ha]
  rfl

theorem step_halted_nil {s : State} (he : s.env = []) (h : s.inReset = true) (hr : s.resHigh = false)
    (hd : s.dtcActive = none) : step s = .next s := by
  have := State.applyEnvironment_nil he
  rw [step_halted (by rwa [this]) (by rwa [this]) (by rwa [this]), this]

/-- RES going Low last of all before a step: the reset state, with no address error, and all but pins and
requests as it was (R200). -/
theorem State.applyEnvironment_resLow {s : State} {before : List EnvEvent} {later : List (List EnvEvent)}
    (h : s.env = (before ++ [.resLow]) :: later) :
    ∃ nmi p mp, s.applyEnvironment = { s with
        nmiPending := nmi, pending := p, modePins := mp, env := later
        inReset := true, resHigh := false, addrErrPending := false, addrErrDetected := false } ∧
      (before = [] → p = s.pending ∧ nmi = s.nmiPending) := by
  rw [State.applyEnvironment_cons h, List.foldl_append]
  cases before with
  | nil => exact ⟨_, _, _, rfl, fun _ => ⟨rfl, rfl⟩⟩
  | cons e es =>
    obtain ⟨nmi, p, ae, ad, ir, rh, mp, he⟩ := (foldl_applyEvent_acted (e :: es) { s with env := later }).change
    exact ⟨nmi, p, mp, by rw [he]; rfl, nofun⟩

/-- The step that a reset begins with, with a data transfer cycle under way (R200, D27). -/
theorem step_abandonDtc {s : State} {k : Fin 21} (h : s.applyEnvironment.inReset = true)
    (hd : s.applyEnvironment.dtcActive = some k) : step s = s.applyEnvironment.abandonDtc k := by
  have ha : s.applyEnvironment.nextAction = .abandonDtc k := by simp only [State.nextAction, h, hd]; rfl
  rw [step, ha]
  rfl

/-- An abandoned cycle has made its accesses up to the open count. -/
theorem State.abandonDtc_made {s t : State} {k : Fin 21} (h : s.abandonDtc k = .next t) :
    AccessesMade ((Config.dtcCycle k s).accesses.take (Config.dtcDone s.draws)) s t := by
  obtain ⟨u, hu, h⟩ := andThen_eq_next.mp h
  cases h
  obtain ⟨rame, level, dte, mds, bytes⟩ := (busAccesses_made hu).from (s := s) rfl rfl rfl rfl rfl rfl rfl
  exact ⟨rame, level, dte, mds, bytes⟩

theorem State.abandonDtc_answers {s : State} {k : Fin 21}
    (h : ∀ a ∈ (Config.dtcCycle k s).accesses.take (Config.dtcDone s.draws), s.admits a) :
    ∃ t, s.abandonDtc k = .next t := by
  obtain ⟨u, hu⟩ := busAccesses_answers (s := s.tick) fun a ha => (State.admits_congr rfl rfl a).mpr (h a ha)
  exact ⟨_, andThen_eq_next.mpr ⟨u, hu, rfl⟩⟩

/-- RES going Low with no data transfer cycle under way. -/
theorem step_resLow {s : State} {before : List EnvEvent} {later : List (List EnvEvent)}
    (h : s.env = (before ++ [.resLow]) :: later) (hd : s.dtcActive = none) :
    ∃ t, step s = .next t ∧ t.inReset = true ∧ t.resHigh = false ∧ t.addrErrPending = false ∧ t.dtcActive = none ∧
      t.env = later ∧ t.regs = s.regs ∧ t.pc = s.pc ∧ t.cp = s.cp ∧ t.sr = s.sr ∧ t.mem = s.mem ∧
      (before = [] → t.pending = s.pending ∧ t.nmiPending = s.nmiPending) ∧ (later = [] → step t = .next t) := by
  obtain ⟨nmi, p, mp, e, hb⟩ := State.applyEnvironment_resLow h
  have hstep := step_halted (s := s) (by rw [e]) (by rw [e]) (by rw [e]; exact hd)
  rw [e] at hstep
  exact ⟨_, hstep, rfl, rfl, rfl, hd, rfl, rfl, rfl, rfl, rfl, rfl, hb, fun hl => step_halted_nil hl rfl rfl hd⟩

/-- RES going Low with a data transfer cycle under way, once the step answers. -/
theorem step_resLow_dtc {s t : State} {before : List EnvEvent} {later : List (List EnvEvent)} {k : Fin 21}
    (h : s.env = (before ++ [.resLow]) :: later) (hd : s.dtcActive = some k) (ht : step s = .next t) :
    AccessesMade ((Config.dtcCycle k s.applyEnvironment).accesses.take (Config.dtcDone s.draws)) s t ∧
      t.inReset = true ∧ t.resHigh = false ∧ t.addrErrPending = false ∧ t.dtcActive = none ∧ t.env = later ∧
      t.regs = s.regs ∧ t.pc = s.pc ∧ t.cp = s.cp ∧ t.sr = s.sr ∧
      (before = [] → t.pending = s.pending ∧ t.nmiPending = s.nmiPending) ∧ (later = [] → step t = .next t) := by
  obtain ⟨nmi, p, mp, e, hb⟩ := State.applyEnvironment_resLow h
  rw [step_abandonDtc (k := k) (by rw [e]) (by rw [e]; exact hd), e] at ht
  have hm := State.abandonDtc_made ht
  obtain ⟨c, rfl, -⟩ := State.abandonDtc_change ht
  rw [e]
  exact ⟨hm.from rfl rfl rfl rfl rfl rfl rfl, rfl, rfl, rfl, rfl, rfl, rfl, rfl, rfl, rfl, hb,
    fun hl => step_halted_nil hl rfl rfl rfl⟩

/-- A step abandons a cycle whose accesses the model admits. -/
theorem step_resLow_answers {s : State} {before : List EnvEvent} {later : List (List EnvEvent)} {k : Fin 21}
    (h : s.env = (before ++ [.resLow]) :: later) (hd : s.dtcActive = some k)
    (ha : ∀ a ∈ (Config.dtcCycle k s.applyEnvironment).accesses.take (Config.dtcDone s.draws), s.admits a) :
    ∃ t, step s = .next t := by
  obtain ⟨nmi, p, mp, e, -⟩ := State.applyEnvironment_resLow h
  rw [step_abandonDtc (k := k) (by rw [e]) (by rw [e]; exact hd)]
  refine State.abandonDtc_answers fun a hmem => ?_
  rw [e] at ha hmem ⊢
  exact (State.admits_congr rfl rfl a).mpr (ha a hmem)

/-! ### The reset sequence -/

/-- What the reset sequence leaves: storage as it was, the reserved bits of SR 0, no error, not in reset. -/
theorem resetSequence_leaves {s t : State} (h : resetSequence s = .next t) :
    t.mem = s.mem ∧ asSr t.sr = t.sr ∧ t.addrErrDetected = false ∧ t.inReset = false := by
  obtain ⟨u, hu, h⟩ := andThen_eq_next.mp h
  obtain ⟨n, pc, cp, rfl, -⟩ := loadVector_kept hu
  cases h
  exact ⟨rfl, asSr_withMask _ (asSr_withTrace false (asSr_asSr _)), rfl, rfl⟩

theorem resetSequence_inReset {s t : State} (h : resetSequence s = .next t) : t.inReset = false := by
  obtain ⟨-, -, -, hr⟩ := resetSequence_leaves h
  exact hr

/-! ### The obligations -/

/-- Settles O35: a vector fetch writes no storage, and nothing else of the reset does. -/
theorem memorySurvivesReset : Obligations.MemorySurvivesReset :=
  ⟨fun _ => rfl, fun _ _ h => by cases h; rfl, fun _ _ h => (resetSequence_leaves h).1⟩

/-- Settles O36: each act by its definition, then RES going Low with and without a cycle to abandon. -/
theorem theOutsideWorldChangesRequestsAndPins : Obligations.TheOutsideWorldChangesRequestsAndPins := by
  refine ⟨fun s now later h => ?_, fun s => ⟨rfl, rfl, rfl, fun _ => rfl⟩, fun s k => ?_,
    fun s before later h hd => step_resLow h hd,
    fun s before later k h hd => ⟨step_resLow_answers h hd, fun t => step_resLow_dtc h hd⟩,
    fun s => step_halted⟩
  · rw [step, State.applyEnvironment_cons h]
  · exact ⟨⟨_, rfl, getVector_set_same _ k true, fun _ => getVector_set_other _ true⟩,
      ⟨_, rfl, getVector_set_same _ k false, fun _ => getVector_set_other _ false⟩⟩

/-- Settles O37: the fields of `State.reset`, and its vector read from an empty memory. -/
theorem resetStateHasTheStatedValues : Obligations.ResetStateHasTheStatedValues := by
  unfold Obligations.ResetStateHasTheStatedValues
  decide

end Sys2Proof.Machine
end

section
/-! The invariant over one step. `State.Sound` is what holds of every state on the way through a step; the word
of the invariant about the reset state is kept apart, since RES going Low leaves a data transfer cycle under way
for the action that follows to abandon. -/

namespace Sys2Proof.Machine

/-- The invariant but for what it says of the reset state. -/
structure State.Sound (s : State) : Prop where
  memory : Memory.wf s.mem = true
  registerField : Memory.noRegisterField s.mem
  status : asSr s.sr = s.sr
  detected : s.addrErrDetected = false
  parameters : s.cfg.legal

theorem State.Sound.inv {s : State} (h : s.Sound)
    (hr : s.inReset = true → s.addrErrPending = false ∧ s.dtcActive = none) : s.Inv :=
  ⟨h.memory, h.registerField, h.status, h.detected, hr, h.parameters⟩

theorem State.Sound.between {s t : State} (h : s.Sound) (hb : Between s t) (hd : t.addrErrDetected = false) :
    t.Sound where
  memory := hb.storage.wf h.memory
  registerField := hb.storage.registerField h.registerField
  status := hb.status h.status
  detected := hd
  parameters := hb.cfg ▸ h.parameters

theorem Config.standard_legal : Config.standard.legal := ⟨by decide, by decide, by decide⟩

/-- Settles O9: each part is read off the fixed state, whose memory is empty. -/
theorem resetStateMeetsTheInvariant : Obligations.ResetStateMeetsTheInvariant where
  memory := rfl
  registerField := fun _ _ _ => rfl
  status := by decide
  detected := rfl
  halted := fun h => by cases h
  parameters := Config.standard_legal

/-! ### The outside world -/

/-- What the outside world does keeps the invariant but for a data transfer cycle under way as reset begins. -/
theorem State.applyEnvironment_sound {s : State} (h : s.Inv) :
    s.applyEnvironment.Sound ∧ (s.applyEnvironment.inReset = true → s.applyEnvironment.addrErrPending = false) := by
  obtain ⟨env, hchange, hd, hr⟩ := s.applyEnvironment_acted
  have hdet := hd h.detected
  refine ⟨?_, hr fun hin => (h.halted hin).1⟩
  obtain ⟨_, _, _, _, _, _, _, e⟩ := hchange
  rw [e] at hdet ⊢
  exact ⟨h.memory, h.registerField, h.status, hdet, h.parameters⟩

/-! ### The actions -/

theorem exceptionSequence_sound {index : BitVec 6} {pc : Word} {cp : Byte} {m : Option (BitVec 3)} {s t : State}
    (h : exceptionSequence index pc cp m s = .next t) (hs : s.Sound) : t.Sound := by
  refine hs.between (exceptionSequence_between h) ?_
  obtain ⟨c, sp, pc', cp', rfl, -⟩ := exceptionSequence_kept h
  exact hs.detected

/-- Accepting a request takes it out of the pending set and starts the DTC or takes a sequence (R156 to R158). -/
theorem acceptRequest_cases {src : Source} {s t : State} (h : acceptRequest src s = .next t) :
    ∃ nmi p, (∃ k, t = { s with nmiPending := nmi, pending := p, dtcActive := some k }) ∨
      ∃ index m, exceptionSequence index s.pc s.cp m { s with nmiPending := nmi, pending := p } = .next t := by
  cases src with
  | nmi => exact ⟨false, s.pending, .inr ⟨11, some 7, h⟩⟩
  | maskable k =>
    refine ⟨s.nmiPending, s.pending.set k false, ?_⟩
    simp only [acceptRequest] at h
    split at h
    · cases h
      exact .inl ⟨k, rfl⟩
    · exact .inr ⟨s.vectorOf k, some (s.level.get k), h⟩

theorem acceptRequest_sound {src : Source} {s t : State} (h : acceptRequest src s = .next t) (hs : s.Sound) :
    t.Sound := by
  obtain ⟨nmi, p, ⟨k, rfl⟩ | ⟨index, m, h⟩⟩ := acceptRequest_cases h
  · exact ⟨hs.memory, hs.registerField, hs.status, hs.detected, hs.parameters⟩
  · exact exceptionSequence_sound h ⟨hs.memory, hs.registerField, hs.status, hs.detected, hs.parameters⟩

theorem resetSequence_sound {s t : State} (h : resetSequence s = .next t) (hs : s.Sound) : t.Sound := by
  obtain ⟨hm, hsr, hd, -⟩ := resetSequence_leaves h
  exact ⟨hm ▸ hs.memory, hm ▸ hs.registerField, hsr, hd, resetSequence_cfg h ▸ hs.parameters⟩

theorem perform_sound {a : Action} {s t : State} (h : perform a s = .next t) (hs : s.Sound) : t.Sound := by
  cases a with
  | halted => cases h; exact hs
  | reset => exact resetSequence_sound h hs
  | dtc k =>
    obtain ⟨c, rfl, hk⟩ := State.dtcCycle_change h
    exact ⟨hk.wf hs.memory, hk.registerField hs.registerField, hs.status, hs.detected, hs.parameters⟩
  | abandonDtc k =>
    obtain ⟨c, rfl, hk⟩ := State.abandonDtc_change h
    exact ⟨hk.wf hs.memory, hk.registerField hs.registerField, hs.status, hs.detected, hs.parameters⟩
  | addressError =>
    exact exceptionSequence_sound h ⟨hs.memory, hs.registerField, hs.status, hs.detected, hs.parameters⟩
  | trace => exact exceptionSequence_sound h hs
  | accept src => exact acceptRequest_sound h hs
  | instruction =>
    obtain ⟨hb, hd⟩ := instructionStep_kept h
    exact hs.between hb (hd hs.detected)

/-! ### The reset state -/

theorem exceptionSequence_inReset {index : BitVec 6} {pc : Word} {cp : Byte} {m : Option (BitVec 3)} {s t : State}
    (h : exceptionSequence index pc cp m s = .next t) : t.inReset = s.inReset := (exceptionSequence_between h).inReset

/-- Nothing the machine does by itself takes it into the reset state. -/
theorem perform_inReset {a : Action} {s t : State} (h : perform a s = .next t) (hs : s.inReset = false) :
    t.inReset = false := by
  cases a with
  | halted => cases h; exact hs
  | reset => exact resetSequence_inReset h
  | dtc k => obtain ⟨c, rfl, -⟩ := State.dtcCycle_change h; exact hs
  | abandonDtc k => obtain ⟨c, rfl, -⟩ := State.abandonDtc_change h; exact hs
  | addressError => exact (exceptionSequence_inReset h).trans hs
  | trace => exact (exceptionSequence_inReset h).trans hs
  | accept src =>
    obtain ⟨nmi, p, ⟨k, rfl⟩ | ⟨index, m, h⟩⟩ := acceptRequest_cases h
    · exact hs
    · exact (exceptionSequence_inReset h).trans hs
  | instruction => exact (instructionStep_kept h).1.inReset.trans hs

/-- A step that ends in the reset state ends with no pending address error and no data transfer cycle (R200). -/
theorem perform_halted {s t : State} (h : perform s.nextAction s = .next t)
    (hs : s.inReset = true → s.addrErrPending = false) (ht : t.inReset = true) :
    t.addrErrPending = false ∧ t.dtcActive = none := by
  cases hr : s.inReset with
  | false => exact absurd (perform_inReset h hr) (by simp [ht])
  | true =>
    rcases State.nextAction_inReset hr with ⟨k, -, ha⟩ | ⟨-, -, ha⟩ | ⟨hn, -, ha⟩ <;> rw [ha] at h
    · obtain ⟨c, rfl, -⟩ := State.abandonDtc_change h
      exact ⟨hs hr, rfl⟩
    · exact absurd (resetSequence_inReset h) (by simp [ht])
    · cases h
      exact ⟨hs hr, hn⟩

/-- Settles O8: what the outside world does keeps `State.Sound`, and so does every action; the reset state's flags
are those that the action in it leaves. -/
theorem everyStepKeepsTheInvariant : Obligations.EveryStepKeepsTheInvariant := by
  intro s t hs h
  obtain ⟨hsound, hreset⟩ := State.applyEnvironment_sound hs
  exact (perform_sound h hsound).inv (perform_halted h hreset)

end Sys2Proof.Machine
end

section
/-! Each row of the table as one of a few shared operations, so that what holds of every instruction is proved once
for each operation. -/

namespace Sys2Proof.Machine

/-! ### What the rows of one operation execute -/

theorem exec_movLoadRow {sz : Size} {ea : Ea} (d : Reg) (s : State) (h : ea.takesSize sz = true) :
    exec (movLoadRow sz ea d) s = moveToRegister sz ea d s := by
  cases ea <;> cases sz <;> cases h <;> rfl

theorem exec_movStoreRow {sz : Size} {ea : Ea} {r : Reg} {i : Instr} (s : State) (h : movStoreRow sz ea r = some i) :
    exec i s = moveFromRegister sz ea r s := by
  cases ea <;> cases h <;> rfl

theorem exec_addRow {sz : Size} {ea : Ea} (d : Reg) (s : State) (h : ea.takesSize sz = true) :
    exec (addRow sz ea d) s = addToRegister sz ea d s := by
  cases ea <;> cases sz <;> cases h <;> rfl

theorem exec_divxuRow {sz : Size} {ea : Ea} (d : Reg) (s : State) (h : ea.takesSize sz = true) :
    exec (divxuRow sz ea d) s = divideRegister sz ea d s := by
  cases ea <;> cases sz <;> cases h <;> rfl

theorem exec_ldcRow {sz : Size} {ea : Ea} (c : ControlReg) (s : State) (h : ea.takesSize sz = true) :
    exec (ldcRow sz ea c) s = loadControl sz ea c s := by
  cases ea <;> cases sz <;> cases h <;> rfl

/-- An instruction as a row of its operation; the six of ANDC, ORC and XORC as one combination. -/
inductive IsRow : Instr → Prop where
  | load (sz : Size) (ea : Ea) (d : Reg) (h : ea.takesSize sz = true) : IsRow (movLoadRow sz ea d)
  | store {i : Instr} (sz : Size) (ea : Ea) (r : Reg) (h : movStoreRow sz ea r = some i) : IsRow i
  | add (sz : Size) (ea : Ea) (d : Reg) (h : ea.takesSize sz = true) : IsRow (addRow sz ea d)
  | divide (sz : Size) (ea : Ea) (d : Reg) (h : ea.takesSize sz = true) : IsRow (divxuRow sz ea d)
  | ldc (sz : Size) (ea : Ea) (c : ControlReg) (h : ea.takesSize sz = true) : IsRow (ldcRow sz ea c)
  | combine {i : Instr} (sz : Size) (n : Nat) (c : ControlReg) (f : State → Word)
      (h : ∀ s, exec i s = combineControl sz n c (f s) s) (control : i.control = some (c, sz))
      (five : i.isFive = true) : IsRow i
  | trapa (v : BitVec 4) : IsRow (.trapa v)
  | trapVs : IsRow .trapVs
  | rte : IsRow .rte
  | movI (v : Word) (d : Reg) : IsRow (.movI v d)
  | nop : IsRow .nop

theorem isRow (i : Instr) : IsRow i := by
  cases i with
  | movRnRd sz e d => exact .load sz (.reg e) d rfl
  | movIndRd sz e d => exact .load sz (.ind e) d rfl
  | movDisp8Rd sz x e d => exact .load sz (.disp8 x e) d rfl
  | movDisp16Rd sz x e d => exact .load sz (.disp16 x e) d rfl
  | movPreDecRd sz e d => exact .load sz (.preDec e) d rfl
  | movPostIncRd sz e d => exact .load sz (.postInc e) d rfl
  | movAbs8Rd sz a d => exact .load sz (.abs8 a) d rfl
  | movAbs16Rd sz a d => exact .load sz (.abs16 a) d rfl
  | movImm8Rd v d => exact .load .byte (.imm8 v) d rfl
  | movImm16Rd v d => exact .load .word (.imm16 v) d rfl
  | movRsRn sz e r => exact .store sz (.reg e) r rfl
  | movRsInd sz e r => exact .store sz (.ind e) r rfl
  | movRsDisp8 sz x e r => exact .store sz (.disp8 x e) r rfl
  | movRsDisp16 sz x e r => exact .store sz (.disp16 x e) r rfl
  | movRsPreDec sz e r => exact .store sz (.preDec e) r rfl
  | movRsPostInc sz e r => exact .store sz (.postInc e) r rfl
  | movRsAbs8 sz a r => exact .store sz (.abs8 a) r rfl
  | movRsAbs16 sz a r => exact .store sz (.abs16 a) r rfl
  | addRnRd sz e d => exact .add sz (.reg e) d rfl
  | addIndRd sz e d => exact .add sz (.ind e) d rfl
  | addDisp8Rd sz x e d => exact .add sz (.disp8 x e) d rfl
  | addDisp16Rd sz x e d => exact .add sz (.disp16 x e) d rfl
  | addPreDecRd sz e d => exact .add sz (.preDec e) d rfl
  | addPostIncRd sz e d => exact .add sz (.postInc e) d rfl
  | addAbs8Rd sz a d => exact .add sz (.abs8 a) d rfl
  | addAbs16Rd sz a d => exact .add sz (.abs16 a) d rfl
  | addImm8Rd v d => exact .add .byte (.imm8 v) d rfl
  | addImm16Rd v d => exact .add .word (.imm16 v) d rfl
  | divxuRnRd sz e d => exact .divide sz (.reg e) d rfl
  | divxuIndRd sz e d => exact .divide sz (.ind e) d rfl
  | divxuDisp8Rd sz x e d => exact .divide sz (.disp8 x e) d rfl
  | divxuDisp16Rd sz x e d => exact .divide sz (.disp16 x e) d rfl
  | divxuPreDecRd sz e d => exact .divide sz (.preDec e) d rfl
  | divxuPostIncRd sz e d => exact .divide sz (.postInc e) d rfl
  | divxuAbs8Rd sz a d => exact .divide sz (.abs8 a) d rfl
  | divxuAbs16Rd sz a d => exact .divide sz (.abs16 a) d rfl
  | divxuImm8Rd v d => exact .divide .byte (.imm8 v) d rfl
  | divxuImm16Rd v d => exact .divide .word (.imm16 v) d rfl
  | ldcRn sz e c => exact .ldc sz (.reg e) c rfl
  | ldcInd sz e c => exact .ldc sz (.ind e) c rfl
  | ldcDisp8 sz x e c => exact .ldc sz (.disp8 x e) c rfl
  | ldcDisp16 sz x e c => exact .ldc sz (.disp16 x e) c rfl
  | ldcPreDec sz e c => exact .ldc sz (.preDec e) c rfl
  | ldcPostInc sz e c => exact .ldc sz (.postInc e) c rfl
  | ldcAbs8 sz a c => exact .ldc sz (.abs8 a) c rfl
  | ldcAbs16 sz a c => exact .ldc sz (.abs16 a) c rfl
  | ldcImm8 v c => exact .ldc .byte (.imm8 v) c rfl
  | ldcImm16 v c => exact .ldc .word (.imm16 v) c rfl
  | andcB v c => exact .combine .byte 3 c _ (fun _ => rfl) rfl rfl
  | andcW v c => exact .combine .word 4 c _ (fun _ => rfl) rfl rfl
  | orcB v c => exact .combine .byte 3 c _ (fun _ => rfl) rfl rfl
  | orcW v c => exact .combine .word 4 c _ (fun _ => rfl) rfl rfl
  | xorcB v c => exact .combine .byte 3 c _ (fun _ => rfl) rfl rfl
  | xorcW v c => exact .combine .word 4 c _ (fun _ => rfl) rfl rfl
  | trapa v => exact .trapa v
  | trapVs => exact .trapVs
  | rte => exact .rte
  | movI v d => exact .movI v d
  | nop => exact .nop

end Sys2Proof.Machine
end

section
/-! How an instruction ends: the page registers and BR, and an address error newly detected. -/

namespace Sys2Proof.Machine

/-- The one of TP, DP, EP, BR that `c` names may have changed on the way from `s` to `u`, and an address error
newly detected on it is pending. -/
structure Reached (c : Option ControlReg) (s u : State) : Prop where
  tp : c ≠ some .tp → u.tp = s.tp
  dp : c ≠ some .dp → u.dp = s.dp
  ep : c ≠ some .ep → u.ep = s.ep
  br : c ≠ some .br → u.br = s.br
  detected : u.addrErrDetected = true → s.addrErrDetected = true ∨ u.addrErrPending = true

theorem Reached.refl (s : State) : Reached none s s := ⟨fun _ => rfl, fun _ => rfl, fun _ => rfl, fun _ => rfl, .inl⟩

theorem Reached.pages {s u : State} (h : Reached none s u) :
    u.tp = s.tp ∧ u.dp = s.dp ∧ u.ep = s.ep ∧ u.br = s.br :=
  ⟨h.tp nofun, h.dp nofun, h.ep nofun, h.br nofun⟩

theorem Reached.weaken {s u : State} (h : Reached none s u) (c : Option ControlReg) : Reached c s u :=
  ⟨fun _ => h.tp nofun, fun _ => h.dp nofun, fun _ => h.ep nofun, fun _ => h.br nofun, h.detected⟩

/-- Onwards from a state reached, as long as what it does there cannot clear a pending address error. -/
theorem Reached.trans {c : Option ControlReg} {s t u : State} (h : Reached none s t) (h' : Reached c t u)
    (hp : t.addrErrPending = true → u.addrErrPending = true) : Reached c s u where
  tp hc := (h'.tp hc).trans (h.tp nofun)
  dp hc := (h'.dp hc).trans (h.dp nofun)
  ep hc := (h'.ep hc).trans (h.ep nofun)
  br hc := (h'.br hc).trans (h.br nofun)
  detected hd := (h'.detected hd).elim (fun ht => (h.detected ht).imp_right hp) .inr

/-- A change of registers, PC, CP, SR, of the stored bytes and of the count of draws. -/
theorem Reached.then {c : Option ControlReg} {s u : State} (h : Reached c s u) {rf : Regs} {pc sr : Word} {cp : Byte}
    {st : List Nat} {n : Nat} :
    Reached c s { u with regs := rf, pc := pc, cp := cp, sr := sr, stale := st, draws := n } :=
  ⟨h.tp, h.dp, h.ep, h.br, h.detected⟩

theorem ReadKept.reached {s : State} {ea : Ea} {g : Loaded} (h : ReadKept s ea g) : Reached none s g.state := by
  obtain ⟨n, a, d, rf, e, -, hs, hf⟩ := h.change
  rw [e]
  refine ⟨fun _ => rfl, fun _ => rfl, fun _ => rfl, fun _ => rfl, fun hd => ?_⟩
  cases hv : g.value with
  | none => exact .inr (hf hv).1
  | some v => exact .inl ((hs (by rw [hv]; rfl)).2.symm.trans hd)

theorem WriteKept.reached {s : State} {sz : Size} {ea : Ea} {w : Stored} (h : WriteKept s sz ea w) :
    Reached none s w.state := by
  obtain ⟨c, a, d, rf, e, -, -, hs, hf⟩ := h.change
  rw [e]
  refine ⟨fun _ => rfl, fun _ => rfl, fun _ => rfl, fun _ => rfl, fun hd => ?_⟩
  cases hm : w.made with
  | false => exact .inr (hf hm).1
  | true => exact .inl ((hs hm).2.symm.trans hd)

theorem exceptionSequence_reached {index : BitVec 6} {pc : Word} {cp : Byte} {m : Option (BitVec 3)} {s t : State}
    (h : exceptionSequence index pc cp m s = .next t) : Reached none s t := by
  obtain ⟨c, sp, pc', cp', rfl, -⟩ := exceptionSequence_kept h
  exact ⟨fun _ => rfl, fun _ => rfl, fun _ => rfl, fun _ => rfl, .inl⟩

/-- A sequence taken on the way. -/
theorem Reached.sequence {index : BitVec 6} {pc : Word} {cp : Byte} {m : Option (BitVec 3)} {s t u : State}
    (hs : Reached none s t) (h : exceptionSequence index pc cp m t = .next u) : Reached none s u :=
  hs.trans (exceptionSequence_reached h) (exceptionSequence_between h).errorPending

theorem State.setControlReg_reached (s : State) (c : ControlReg) (v : Word) :
    Reached (some c) s (s.setControlReg c v) := by
  refine ⟨?_, ?_, ?_, ?_, by cases c <;> exact .inl⟩ <;> cases c <;> simp [State.setControlReg]

theorem Reached.setControlReg {s u : State} (h : Reached none s u) (c : ControlReg) (v : Word) :
    Reached (some c) s (u.setControlReg c v) :=
  h.trans (u.setControlReg_reached c v) (by cases c <;> exact id)

/-- An instruction has ended: the state it reached, finished as one of the five or not. -/
def Ended (five : Bool) (c : Option ControlReg) (s t : State) : Prop := ∃ u, t = u.finish five ∧ Reached c s u

theorem Reached.ended {c : Option ControlReg} {s u : State} (h : Reached c s u) (five : Bool) :
    Ended five c s (u.finish five) := ⟨u, rfl, h⟩

theorem Reached.completed {c : Option ControlReg} {s u : State} (h : Reached c s u) (five : Bool) (n : Nat) :
    Ended five c s (u.complete five n) := ⟨u.advance n, rfl, h.then⟩

theorem moveToRegister_ended {sz : Size} {ea : Ea} {d : Reg} {s t : State}
    (h : moveToRegister sz ea d s = .next t) : Ended false none s t := by
  obtain ⟨g, hg, h⟩ := andThen_eq_next.mp h
  have hr := (readOperand_kept hg).reached
  split at h <;> cases h
  · exact hr.then.completed false _
  · exact hr.then.completed false _

theorem moveFromRegister_ended {sz : Size} {ea : Ea} {r : Reg} {s t : State}
    (h : moveFromRegister sz ea r s = .next t) : Ended false none s t := by
  obtain ⟨w, hw, h⟩ := andThen_eq_next.mp h
  have hr := (writeOperand_kept hw).reached
  split at h <;> cases h
  · exact hr.then.completed false _
  · exact hr.then.completed false _

theorem addToRegister_ended {sz : Size} {ea : Ea} {d : Reg} {s t : State}
    (h : addToRegister sz ea d s = .next t) : Ended false none s t := by
  obtain ⟨g, hg, h⟩ := andThen_eq_next.mp h
  have hr := (readOperand_kept hg).reached
  split at h <;> cases h
  · exact hr.then.completed false _
  · exact hr.then.completed false _

theorem zeroDivide_ended {sz : Size} {d : Reg} {n : Nat} {s u t : State} (hr : Reached none s u)
    (h : zeroDivide sz d n u = .next t) : Ended false none s t := by
  obtain ⟨v, hv, h⟩ := andThen_eq_next.mp h
  cases h
  obtain ⟨m, rf, e, -⟩ := u.drawDivResult_change sz d
  rw [e] at hv
  exact (hr.then.sequence hv).then.ended false

theorem divideRegister_ended {sz : Size} {ea : Ea} {d : Reg} {s t : State}
    (h : divideRegister sz ea d s = .next t) : Ended false none s t := by
  obtain ⟨g, hg, h⟩ := andThen_eq_next.mp h
  have hr := (readOperand_kept hg).reached
  split at h
  · next v _ =>
    unfold divideBy at h
    split at h
    · exact zeroDivide_ended hr h
    · cases h
      obtain ⟨rf, e, -⟩ := g.state.setDivResult_change sz d (Config.divxu sz (g.state.dividend sz d) (cut sz v))
      rw [e]
      exact hr.then.completed false _
  · unfold divideFailed at h
    split at h
    · exact zeroDivide_ended hr.then h
    · cases h
      obtain ⟨n, rf, e, -⟩ := g.state.tick.drawDivResult_change sz d
      rw [e]
      exact hr.then.completed false _

theorem invalidInstruction_ended {s t : State} (h : invalidInstruction s = .next t) : Ended false none s t := by
  obtain ⟨u, hu, h⟩ := andThen_eq_next.mp h
  cases h
  exact ((Reached.refl s).then.sequence hu).ended false

theorem trap_ended {index : BitVec 6} {n : Nat} {s t : State} (h : trap index n s = .next t) :
    Ended false none s t := by
  obtain ⟨u, hu, h⟩ := andThen_eq_next.mp h
  cases h
  exact ((Reached.refl s).sequence hu).ended false

/-- LDC with a control register that fits is one of the five, and else an invalid instruction. -/
theorem loadControl_ended {sz : Size} {ea : Ea} {c : ControlReg} {s t : State}
    (h : loadControl sz ea c s = .next t) : Ended (c.fits sz) (some c) s t := by
  unfold loadControl at h
  cases hf : c.fits sz with
  | false =>
    rw [hf, if_neg Bool.false_ne_true] at h
    obtain ⟨u, rfl, hr⟩ := invalidInstruction_ended h
    exact (hr.weaken _).ended false
  | true =>
    rw [hf, if_pos rfl] at h
    obtain ⟨g, hg, h⟩ := andThen_eq_next.mp h
    have hr := (readOperand_kept hg).reached
    split at h <;> cases h
    · next v _ => exact (hr.setControlReg c v).completed true _
    · exact (Reached.setControlReg (u := g.state.tick) hr.then c _).completed true _

theorem combineControl_ended {sz : Size} {n : Nat} {c : ControlReg} {f : Word} {s t : State}
    (h : combineControl sz n c f s = .next t) : Ended (c.fits sz) (some c) s t := by
  unfold combineControl at h
  cases hf : c.fits sz with
  | false =>
    rw [hf, if_neg Bool.false_ne_true] at h
    obtain ⟨u, rfl, hr⟩ := invalidInstruction_ended h
    exact (hr.weaken _).ended false
  | true =>
    rw [hf, if_pos rfl] at h
    cases h
    exact ((Reached.refl s).setControlReg c f).completed true n

theorem execTrapVs_ended {s t : State} (h : execTrapVs s = .next t) : Ended false none s t := by
  unfold execTrapVs at h
  split at h
  · exact trap_ended h
  · cases h
    exact (Reached.refl s).completed false 1

theorem execRte_ended {s t : State} (h : execRte s = .next t) : Ended true none s t := by
  obtain ⟨u, hu, h⟩ := andThen_eq_next.mp h
  cases h
  obtain ⟨n, sp, sr, pc, cp, rfl, -⟩ := returnFromException_kept hu
  exact (Reached.refl s).then.ended true

/-! ### Every instruction -/

/-- An instruction ends as one of the five if it is one and legal (R161, R164), and of the control registers only
the one that it names may have changed. -/
def EndsAs (i : Instr) (s t : State) : Prop := Ended (i.isFive && i.wellFormed) (i.control.map (·.1)) s t

theorem endsAs_of_control {i : Instr} {c : ControlReg} {sz : Size} {s t : State} (hc : i.control = some (c, sz))
    (h5 : i.isFive = true) (h : Ended (c.fits sz) (some c) s t) : EndsAs i s t := by
  simpa [EndsAs, Instr.wellFormed, hc, h5] using h

theorem endsAs_of_none {i : Instr} {s t : State} (hc : i.control = none) (h : Ended i.isFive none s t) :
    EndsAs i s t := by
  simpa [EndsAs, Instr.wellFormed, hc] using h

theorem exec_endsAs {i : Instr} {s t : State} (h : exec i s = .next t) : EndsAs i s t := by
  cases isRow i with
  | load sz ea d hz =>
    rw [exec_movLoadRow d s hz] at h
    have := moveToRegister_ended h
    cases ea <;> exact endsAs_of_none rfl this
  | store sz ea r hi =>
    rw [exec_movStoreRow s hi] at h
    have := moveFromRegister_ended h
    cases ea <;> cases hi <;> exact endsAs_of_none rfl this
  | add sz ea d hz =>
    rw [exec_addRow d s hz] at h
    have := addToRegister_ended h
    cases ea <;> exact endsAs_of_none rfl this
  | divide sz ea d hz =>
    rw [exec_divxuRow d s hz] at h
    have := divideRegister_ended h
    cases ea <;> exact endsAs_of_none rfl this
  | ldc sz ea c hz =>
    rw [exec_ldcRow c s hz] at h
    have := loadControl_ended h
    cases ea <;> cases sz <;> cases hz <;> exact endsAs_of_control rfl rfl this
  | combine sz n c f hx hc h5 =>
    rw [hx] at h
    exact endsAs_of_control hc h5 (combineControl_ended h)
  | trapa v => exact endsAs_of_none rfl (trap_ended h)
  | trapVs => exact endsAs_of_none rfl (execTrapVs_ended h)
  | rte => exact endsAs_of_none rfl (execRte_ended h)
  | movI v d => cases h; exact endsAs_of_none rfl ((Reached.refl s).then.completed false 3)
  | nop => cases h; exact endsAs_of_none rfl ((Reached.refl s).completed false 1)

/-! ### The obligations -/

theorem page_kept_or_named {i : Instr} {c : ControlReg} {p q : Byte} (h : i.control.map (·.1) ≠ some c → p = q) :
    p = q ∨ ∃ sz, i.control = some (c, sz) := by
  by_cases hc : i.control.map (·.1) = some c
  · obtain ⟨⟨c', sz⟩, hi, rfl⟩ := Option.map_eq_some_iff.mp hc
    exact .inr ⟨sz, hi⟩
  · exact .inl (h hc)

/-- An attempt to fetch that finds no instruction (R141, R164). -/
theorem instructionStep_pages {s t : State} (h : instructionStep s = .next t) (hi : ∀ i len, s.decoded ≠ .instr i len) :
    t.tp = s.tp ∧ t.dp = s.dp ∧ t.ep = s.ep ∧ t.br = s.br := by
  rcases instructionStep_cases h with ⟨-, rfl⟩ | ⟨i, len, -, hd, -⟩ | ⟨len, -, -, -, h⟩
  · exact ⟨rfl, rfl, rfl, rfl⟩
  · exact absurd hd (hi i len)
  · obtain ⟨u, rfl, hr⟩ := invalidInstruction_ended h
    obtain ⟨n, d, e⟩ := s.fetched_change len
    rw [e] at hr
    exact hr.pages

/-- Sequences, accepted requests and an abandoned data transfer cycle (R124, R158, R200). -/
theorem perform_pages {a : Action} {s t : State} (hi : a ≠ .instruction) (hr : a ≠ .reset) (hd : ∀ k, a ≠ .dtc k)
    (h : perform a s = .next t) : t.tp = s.tp ∧ t.dp = s.dp ∧ t.ep = s.ep ∧ t.br = s.br := by
  cases a with
  | halted => cases h; exact ⟨rfl, rfl, rfl, rfl⟩
  | reset => exact absurd rfl hr
  | dtc k => exact absurd rfl (hd k)
  | abandonDtc k => obtain ⟨c, rfl, -⟩ := State.abandonDtc_change h; exact ⟨rfl, rfl, rfl, rfl⟩
  | addressError => exact (exceptionSequence_reached h).pages
  | trace => exact (exceptionSequence_reached h).pages
  | accept src =>
    obtain ⟨nmi, p, ⟨k, rfl⟩ | ⟨index, m, h⟩⟩ := acceptRequest_cases h
    · exact ⟨rfl, rfl, rfl, rfl⟩
    · exact (exceptionSequence_reached h).pages
  | instruction => exact absurd rfl hi

/-- Settles O11: what every instruction, every other action and a data transfer cycle leave in the four registers. -/
theorem pageRegistersChangeOnlyByControlInstructions : Obligations.PageRegistersChangeOnlyByControlInstructions := by
  refine ⟨fun i s t h => ?_, fun s t => instructionStep_pages, fun a s t => perform_pages, fun k s t h => ?_⟩
  · obtain ⟨u, rfl, hr⟩ := exec_endsAs h
    exact ⟨page_kept_or_named hr.tp, page_kept_or_named hr.dp, page_kept_or_named hr.ep, page_kept_or_named hr.br⟩
  · obtain ⟨c, rfl, -⟩ := State.dtcCycle_change h
    exact ⟨rfl, rfl, rfl, rfl⟩

/-- Settles O13: the end of an instruction sets `defer` by whether it is one of the five, or else by a draw that is
made only after an address error was detected in it, which is then pending. -/
theorem theFiveDeferAndNoOtherDoes : Obligations.TheFiveDeferAndNoOtherDoes := by
  intro i s t h
  obtain ⟨u, rfl, hr⟩ := exec_endsAs h
  refine ⟨fun h5 hw => ?_, fun hn hd hp => ?_, rfl, (exec_kept h).errorPending⟩
  · rw [State.finish_defer, h5, hw]
    rfl
  · have hud : u.addrErrDetected = false := by
      refine Bool.eq_false_iff.mpr fun hu => ?_
      rcases hr.detected hu with hs | hpu
      · exact Bool.eq_false_iff.mp hd hs
      · exact Bool.eq_false_iff.mp hp hpu
    rcases hn with hn | hn <;> simp [State.finish_defer, hn, hud]

end Sys2Proof.Machine
end

section
/-! Accesses to the register field: a load shows the named fields, a store sets them and no storage. -/

namespace Sys2Proof.Machine

/-- The bytes of an access of a size lie in the register field from offset `o` on. -/
structure State.InField (s : State) (sz : Size) (p : Byte) (off : Word) (o : BitVec 7) : Prop where
  first : s.region p off = .register o
  even : sz = .word → isOdd off = false
  second : sz = .word → s.region p (off + 1) = .register (o + 1)

theorem fieldAddress_ofNat {a : Nat} (h1 : 0xFF80 ≤ a) (h2 : a ≤ 0xFFFF) :
    fieldAddress (BitVec.ofNat 7 (a - 0xFF80)) = a := by
  rw [fieldAddress, BitVec.toNat_ofNat, Nat.mod_eq_of_lt (by omega)]
  omega

theorem isOdd_eq_false_iff {off : Word} : isOdd off = false ↔ off.toNat % 2 = 0 := by
  rw [isOdd, BitVec.getLsbD, Nat.testBit_zero, decide_eq_false_iff_not]
  omega

/-- The byte after one at an even address is at the next address. -/
theorem State.busAddress_succ (s : State) (p : Byte) {off : Word} (h : isOdd off = false) :
    s.busAddress p (off + 1) = s.busAddress p off + 1 ∧ s.busAddress p off % 2 = 0 := by
  have he := isOdd_eq_false_iff.mp h
  have hoff := off.isLt
  have hnext : (off + 1).toNat = off.toNat + 1 := by
    rw [BitVec.toNat_add, show (1 : Word).toNat = 1 from rfl, Nat.mod_eq_of_lt (by omega)]
  unfold State.busAddress busAddressIn
  split <;> rw [hnext] <;> omega

/-- An even address of the register field is followed by another one. -/
theorem State.inField_of_address {s : State} {sz : Size} {p : Byte} {off : Word} (he : sz = .word → isOdd off = false)
    (h1 : 0xFF80 ≤ s.busAddress p off) (h2 : s.busAddress p off ≤ 0xFFFF) :
    s.InField sz p off (BitVec.ofNat 7 (s.busAddress p off - 0xFF80)) where
  first := State.region_register.mpr (fieldAddress_ofNat h1 h2).symm
  even := he
  second hw := State.region_register.mpr (by
    obtain ⟨hn, heven⟩ := s.busAddress_succ p (he hw)
    have ho : BitVec.ofNat 7 (s.busAddress p off - 0xFF80) + 1 = BitVec.ofNat 7 (s.busAddress p off + 1 - 0xFF80) := by
      rw [Nat.sub_add_comm h1, BitVec.ofNat_add]
      rfl
    rw [hn, ho, fieldAddress_ofNat (by omega) (by omega)])

theorem loadByte_register {s : State} {p : Byte} {off : Word} {o : BitVec 7} (h : s.region p off = .register o) :
    loadByte p off s = .next ⟨some ((s.registerLoad o).setWidth 16), s.tick⟩ := by
  simp only [loadByte, h]

/-- A load from the register field gives a value that shows the named fields there, and changes nothing. -/
theorem load_register {s : State} {sz : Size} {p : Byte} {off : Word} {o : BitVec 7} (h : s.InField sz p off o) :
    ∃ w n, load sz p off s = .next ⟨some w, { s with draws := n }⟩ ∧ s.valueShows sz o w := by
  cases sz with
  | byte =>
    refine ⟨_, _, loadByte_register h.first, ?_⟩
    rw [State.valueShows, lowerByte_setWidth]
    exact s.byteShows_registerLoad o
  | word =>
    have h2 : s.tick.region p (off + 1) = .register (o + 1) := h.second rfl
    refine ⟨wordOfBytes (s.registerLoad o) (s.tick.registerLoad (o + 1)), s.draws + 1 + 1, ?_, ?_⟩
    · simp only [load, loadWord, h.even rfl, Bool.false_eq_true, if_false, loadByte_register h.first, andThen_next,
        loadByte_register h2, joinLoaded, lowerByte_setWidth]
      rfl
    · rw [State.valueShows, upperByte_wordOfBytes, lowerByte_wordOfBytes]
      exact ⟨s.byteShows_registerLoad o, s.tick.byteShows_registerLoad (o + 1)⟩

/-- The control fields, from `s` to `u`, take the bits of the byte that `stored` puts at their offset, if any;
MDS is only said to change through MDCR (R22). -/
structure FieldsTaken (stored : BitVec 7 → Option Byte) (s u : State) : Prop where
  rame : u.rame = match stored s.cfg.registers.ramcr with
    | some b => b.getLsbD s.cfg.registers.rameBit
    | none => s.rame
  level : ∀ k, u.level.get k = match stored (s.cfg.registers.ipr.get (s.cfg.registers.levelAt.get k).1) with
    | some b => b.extractLsb' (s.cfg.registers.levelAt.get k).2 3
    | none => s.level.get k
  dte : ∀ k, u.dte.get k = match stored (s.cfg.registers.dte.get (s.cfg.registers.dteAt.get k).1) with
    | some b => b.getLsbD (s.cfg.registers.dteAt.get k).2
    | none => s.dte.get k
  mds : stored s.cfg.registers.mdcr = none → u.mds = s.mds

/-- Two stores one after the other: the byte that the second puts at an offset, or else the first. -/
theorem FieldsTaken.trans {f g : BitVec 7 → Option Byte} {s t u : State} (h : FieldsTaken f s t)
    (h' : FieldsTaken g t u) (hc : t.cfg = s.cfg) : FieldsTaken (fun q => (g q).or (f q)) s u := by
  obtain ⟨rame, level, dte, mds⟩ := h'
  simp only [hc] at rame level dte mds
  constructor
  · rw [rame]
    cases g s.cfg.registers.ramcr with
    | some b => rfl
    | none => exact h.rame
  · intro k
    rw [level]
    cases g (s.cfg.registers.ipr.get (s.cfg.registers.levelAt.get k).1) with
    | some b => rfl
    | none => exact h.level k
  · intro k
    rw [dte]
    cases g (s.cfg.registers.dte.get (s.cfg.registers.dteAt.get k).1) with
    | some b => rfl
    | none => exact h.dte k
  · intro hn
    obtain ⟨hg, hf⟩ := Option.or_eq_none_iff.mp hn
    exact (mds hg).trans (h.mds hf)

/-- One byte stored in the register field. -/
theorem storeByte_register {s : State} {p : Byte} {off : Word} {o : BitVec 7} (v : Byte)
    (h : s.region p off = .register o) :
    ∃ c, storeByte p off v s = .next ⟨true, s.changed c⟩ ∧ c.mem = s.mem ∧
      FieldsTaken (fun q => if q = o then some v else none) s (s.changed c) := by
  have hstore : storeByte p off v s = .next ⟨true, (s.registerStore o v).markStored (s.busAddress p off)⟩ := by
    simp only [storeByte, h]
  obtain ⟨rame, level, dte, mds⟩ := storeByte_controls hstore
  simp only [State.region_register.mp h, fieldAddress_inj] at rame level dte mds
  refine ⟨((s.registerStore o v).markStored (s.busAddress p off)).changes, hstore, rfl, ?_, fun k => ?_, fun k => ?_,
    fun hn => mds ?_⟩
  · refine rame.trans ?_
    split_ifs <;> rfl
  · refine (level k).trans ?_
    split_ifs <;> rfl
  · refine (dte k).trans ?_
    split_ifs <;> rfl
  · simpa [fieldAddress_inj] using hn

theorem storedAt_word (o : BitVec 7) (v : Word) :
    storedAt .word o v = fun q =>
      (if q = o + 1 then some (lowerByte v) else none).or (if q = o then some (upperByte v) else none) := by
  funext q
  by_cases h : q = o <;> simp [storedAt, h]

/-- A store to the register field is made, sets the fields that its bytes reach, and no storage. -/
theorem store_register {s : State} {sz : Size} {p : Byte} {off : Word} {o : BitVec 7} (v : Word)
    (h : s.InField sz p off o) :
    ∃ c, store sz p off v s = .next ⟨true, s.changed c⟩ ∧ c.mem = s.mem ∧
      FieldsTaken (storedAt sz o v) s (s.changed c) := by
  cases sz with
  | byte => exact storeByte_register (lowerByte v) h.first
  | word =>
    obtain ⟨c, e, hm, hf⟩ := storeByte_register (upperByte v) h.first
    have h2 : (s.changed c).region p (off + 1) = .register (o + 1) :=
      State.region_register.mpr (State.region_register.mp (h.second rfl) : s.busAddress p (off + 1) = _)
    obtain ⟨c', e', hm', hf'⟩ := storeByte_register (lowerByte v) h2
    refine ⟨c', ?_, hm'.trans hm, ?_⟩
    · simp only [store, storeWord, h.even rfl, Bool.false_eq_true, if_false, e, andThen_next, e', Bool.and_self]
      rfl
    · rw [storedAt_word]
      exact hf.trans hf' rfl

/-! ### The MOV instructions -/

theorem State.complete_advanced {s u : State} (five : Bool) (n : Nat) (hpc : u.pc = s.pc) (hcp : u.cp = s.cp)
    (hm : u.mode = s.mode) : Advanced n s (u.complete five n) where
  pc := by
    rw [State.complete_pc, State.codeAddress, hpc]
    split <;> rfl
  cp := by
    intro h
    rw [State.complete_cp, State.codeAddress, hm, hpc, hcp]
    rcases h with h | h
    · rw [h]
    · split
      · rfl
      · exact if_pos h

/-- What an operand form does to the registers does not depend on what a store or a load changes besides. -/
theorem State.modify_reg_congr {s u : State} (sz : Size) (ea : Ea) (h : u.regs = s.regs) (q : Reg) :
    (u.modify sz ea).reg q = (s.modify sz ea).reg q := by
  have hr : ∀ r, u.reg r = s.reg r := fun r => by rw [State.reg, h]; rfl
  cases ea <;> simp only [State.modify, State.reg_setReg, hr]

theorem movLoad_register {sz : Size} {ea : Ea} {r : Reg} {s : State} {p : Byte} {off : Word} {o : BitVec 7}
    (hp : s.place sz ea = .memory p off) (hf : s.InField (accessSize sz ea) p off o)
    (hd : s.addrErrDetected = false) :
    ∃ t w, exec (movLoadRow sz ea r) s = .next t ∧ s.valueShows (accessSize sz ea) o w ∧
      t.reg r = merge sz ((s.modify sz ea).reg r) (operandOf sz ea w) ∧
      (∀ q, q ≠ r → t.reg q = (s.modify sz ea).reg q) ∧
      Advanced (generalLength ea) s t ∧ t.defer = false ∧ t.mem = s.mem ∧ Untouched s t := by
  have hz : ea.takesSize sz = true := by cases ea <;> cases hp <;> rfl
  obtain ⟨w, n, hl, hw⟩ := load_register hf
  obtain ⟨rf, hm, -⟩ := ({ s with draws := n } : State).modify_change sz ea
  have hreg := State.modify_reg_congr (u := { s with draws := n }) sz ea (rfl : _ = s.regs)
  rw [exec_movLoadRow r s hz, moveToRegister, readOperand, hp]
  simp only [hl, andThen_next]
  refine ⟨_, w, rfl, hw, ?_, fun q hq => ?_, ?_, ?_, ?_, ?_⟩
  · simp [hreg]
  · simp [hreg, hq]
  · rw [hm]
    exact State.complete_advanced false _ rfl rfl rfl
  · rw [hm, State.complete_defer]
    simp [hd]
  · rw [hm]
    rfl
  · rw [hm]
    exact ⟨rfl, rfl, rfl, rfl, rfl, rfl, rfl, rfl, rfl, rfl, rfl, rfl, rfl, rfl, rfl, rfl⟩

theorem movStore_register {sz : Size} {ea : Ea} {r : Reg} {i : Instr} {s : State} {p : Byte} {off : Word}
    {o : BitVec 7} (hi : movStoreRow sz ea r = some i)
    (hp : s.place sz ea = .memory p off) (hf : s.InField (accessSize sz ea) p off o)
    (hd : s.addrErrDetected = false) :
    ∃ t, exec i s = .next t ∧
      FieldsTaken (storedAt (accessSize sz ea) o (s.storedWord sz ea (s.readReg sz r))) s t ∧
      (∀ q, t.reg q = (s.modify sz ea).reg q) ∧ Advanced (generalLength ea) s t ∧ t.defer = false ∧ t.mem = s.mem := by
  obtain ⟨n, hn⟩ := s.tickForStore_change sz ea
  have hf' : (s.tickForStore sz ea).InField (accessSize sz ea) p off o := by
    rw [hn]
    exact ⟨hf.first, hf.even, hf.second⟩
  obtain ⟨c, hs, hmem, ht⟩ := store_register (s.storedWord sz ea (s.readReg sz r)) hf'
  rw [hn] at hs hmem ht
  obtain ⟨rf, hm, -⟩ := (({ s with draws := n } : State).changed c).modify_change sz ea
  have hreg := State.modify_reg_congr (u := ({ s with draws := n } : State).changed c) sz ea (rfl : _ = s.regs)
  rw [exec_movStoreRow s hi, moveFromRegister, writeOperand, hp]
  simp only [hn, hs, andThen_next, if_true]
  refine ⟨_, rfl, ?_, fun q => ?_, ?_, ?_, ?_⟩
  · rw [hm]
    exact ⟨ht.rame, ht.level, ht.dte, ht.mds⟩
  · simp [hreg]
  · rw [hm]
    exact State.complete_advanced false _ rfl rfl rfl
  · rw [hm, State.complete_defer]
    simp only [Bool.false_or, Bool.and_eq_false_iff]
    exact .inl hd
  · rw [hm]
    exact hmem

/-- Settles O21: an access to the register field is made whole, since an even address there is followed by another. -/
theorem registerFieldAccessesReachTheNamedFields : Obligations.RegisterFieldAccessesReachTheNamedFields := by
  intro sz ea r s p off hp he h1 h2 hd
  have hf := State.inField_of_address he h1 h2
  refine ⟨movLoad_register hp hf hd, fun i hi => ?_⟩
  obtain ⟨t, ht, ⟨rame, level, dte, mds⟩, hreg, hadv, hdefer, hmem⟩ := movStore_register hi hp hf hd
  exact ⟨t, ht, rame, level, dte, mds, hreg, hadv, hdefer, hmem⟩

end Sys2Proof.Machine
end

section
/-! Byte and word accesses to storage, the stack, the places of operands, and RAM over a reset. -/

namespace Sys2Proof.Machine

/-! ### Words in storage -/

theorem State.writableFor_word_iff {s : State} {p : Byte} {o : Word} :
    s.writableFor .word p o = true ↔
      isOdd o = false ∧ s.writableAt p o = true ∧ s.writableAt p (o + 1) = true := by
  simp only [State.writableFor, Bool.and_eq_true, Bool.not_eq_true', and_assoc]

theorem State.readableAt_of_writableAt {s : State} {p : Byte} {o : Word} (h : s.writableAt p o = true) :
    s.readableAt p o = true := by
  obtain ⟨k, hk⟩ := State.writableAt_iff.mp h
  exact State.readableAt_iff.mpr ⟨k, .inl hk⟩

/-- The two bytes of a word lie at different addresses, at the top of a page too. -/
theorem State.busAddress_ne_succ (s : State) (p : Byte) (o : Word) : s.busAddress p o ≠ s.busAddress p (o + 1) := by
  rw [ne_eq, State.busAddress_inj]
  bv_omega

/-- A word stored in storage that can be written: each byte in its place, and the rest as it was (R46). -/
structure WordStored (p : Byte) (o v : Word) (s t : State) : Prop where
  stored : storeWord p o v s = .next ⟨true, t⟩
  regs : t.regs = s.regs
  tp : t.tp = s.tp
  readable : t.readableFor .word p o = true
  upper : t.byteAt p o = upperByte v
  lower : t.byteAt p (o + 1) = lowerByte v
  others : ∀ p' o', s.outside .word p o p' o' → t.byteAt p' o' = s.byteAt p' o'

theorem storeWord_stored {s : State} {p : Byte} {o : Word} (v : Word) (hwf : Memory.wf s.mem = true)
    (h : s.writableFor .word p o = true) : ∃ t, WordStored p o v s t := by
  obtain ⟨he, h0, h1⟩ := State.writableFor_word_iff.mp h
  obtain ⟨k, k', -, -, -, hs, hb⟩ := storeWord_ready v hwf h
  refine ⟨_, hs, rfl, rfl, ?_, ?_, ?_, fun p' o' hout => ?_⟩
  · exact State.readableFor_word he (State.readableAt_of_writableAt h0) (State.readableAt_of_writableAt h1)
  · rw [hb, if_neg (s.busAddress_ne_succ p o), if_pos rfl]
  · rw [hb, if_pos rfl]
  · rw [hb, if_neg (hout.2 rfl), if_neg hout.1]

theorem WordStored.wordAt {s t : State} {p : Byte} {o v : Word} (h : WordStored p o v s t) : t.wordAt p o = v := by
  rw [State.wordAt, h.upper, h.lower, wordOfBytes_upper_lower]

theorem State.readableAt_of_readableFor_word {s : State} {p : Byte} {o : Word} (h : s.readableFor .word p o = true) :
    s.readableAt p o = true ∧ s.readableAt p (o + 1) = true := by
  simp only [State.readableFor, Bool.and_eq_true] at h
  exact ⟨h.1.2, h.2⟩

/-- Settles O16: a stored word is read back whole, and each of its bytes by itself. -/
theorem wordsAreStoredUpperByteFirst : Obligations.WordsAreStoredUpperByteFirst := by
  refine ⟨fun s p o h => loadWord_storage h, fun s p o v hwf h => ?_⟩
  obtain ⟨t, ht⟩ := storeWord_stored v hwf h
  obtain ⟨r0, r1⟩ := State.readableAt_of_readableFor_word ht.readable
  refine ⟨t, ht.stored, ht.upper, ht.lower, ?_, ?_, ?_, ht.others⟩
  · rw [loadWord_storage ht.readable, ht.wordAt]
  · rw [loadByte_storage r0, ht.upper]
  · rw [loadByte_storage r1, ht.lower]

/-! ### Odd addresses -/

theorem loadWord_odd {p : Byte} {o : Word} (s : State) (h : isOdd o = true) :
    loadWord p o s = .next ⟨none, s.raiseAddressError⟩ := by rw [loadWord, if_pos h]

theorem storeWord_odd {p : Byte} {o : Word} (v : Word) (s : State) (h : isOdd o = true) :
    storeWord p o v s =
      .next ⟨false, (drawByteAt p (o + 1) (drawByteAt p o s)).raiseAddressError⟩ := by rw [storeWord, if_pos h]

/-- SP stays odd as it moves by 2. -/
theorem pushWord_odd {s : State} (v : Word) (h : isOdd s.sp = true) :
    pushWord v s = .fault .addressErrorInSequence := by
  rw [pushWord, storeWord_odd v _ ((isOdd_sub_two s.sp).trans h)]
  rfl

theorem popWord_odd {s : State} (h : isOdd s.sp = true) : popWord s = .fault .addressErrorInSequence := by
  rw [popWord, loadWord_odd s h]
  rfl

/-- A byte store that is made raises no address error. -/
theorem storeByte_made_errorPending {p : Byte} {o : Word} {v : Byte} {s t : State}
    (h : storeByte p o v s = .next ⟨true, t⟩) : t.addrErrPending = s.addrErrPending := by
  obtain ⟨c, a, d, e, -, hs, -⟩ := (storeByte_kept h).change
  obtain ⟨rfl, rfl⟩ := hs rfl
  rw [show t = _ from e]
  rfl

theorem storeByte_made_byteAt {p : Byte} {o : Word} {v : Byte} {s t : State}
    (h : storeByte p o v s = .next ⟨true, t⟩) (hw : s.writableAt p o = true) (hwf : Memory.wf s.mem = true) :
    t.byteAt p o = v := by
  obtain ⟨k, hk⟩ := State.writableAt_iff.mp hw
  rw [storeByte_storage hk] at h
  cases h
  rw [State.byteAt_writeCell hwf hk, if_pos rfl]

/-- Settles O17: the parity test comes before the region of a word access, and a byte access has no such test. -/
theorem oddWordAccessIsAnAddressError : Obligations.OddWordAccessIsAnAddressError := by
  refine ⟨fun s p o v h => ⟨loadWord_odd s h, _, storeWord_odd v s h, rfl⟩,
    fun s v h => ⟨pushWord_odd v h, popWord_odd h⟩, fun s p o => loadByte_storage, fun s p o h => ?_,
    fun s p o v h => ?_⟩
  · obtain ⟨v, n, e⟩ := loadByte_accepted h
    exact ⟨v, _, e, rfl⟩
  · obtain ⟨t, e⟩ := storeByte_accepted v h
    exact ⟨t, e, storeByte_made_errorPending e, storeByte_made_byteAt e⟩

/-! ### The stack -/

theorem pushWord_stored {s : State} (v : Word) (hwf : Memory.wf s.mem = true)
    (h : s.writableFor .word s.tp (s.sp - 2) = true) :
    ∃ t, pushWord v s = .next t ∧ WordStored s.tp (s.sp - 2) v (s.setReg .r7 (s.sp - 2)) t := by
  obtain ⟨t, ht⟩ := storeWord_stored (s := s.setReg .r7 (s.sp - 2)) v hwf h
  refine ⟨t, ?_, ht⟩
  rw [pushWord, ht.stored]
  rfl

/-- Settles O18: the pushed word is stored below SP, where the pop finds it. -/
theorem pushThenPopGivesTheWordBack : Obligations.PushThenPopGivesTheWordBack := by
  refine ⟨fun s h => ⟨_, popWord_ready h, rfl, rfl, rfl⟩, fun s v hwf h => ?_⟩
  obtain ⟨t, hpush, ht⟩ := pushWord_stored v hwf h
  have hsp : t.sp = s.sp - 2 := by
    rw [State.sp, State.reg, ht.regs]
    rfl
  have htp : t.tp = s.tp := ht.tp
  have hr : t.readableFor .word t.tp t.sp = true := by
    rw [htp, hsp]
    exact ht.readable
  refine ⟨t, hpush, hsp, htp, ht.wordAt, ht.others, t.setReg .r7 (t.sp + 2), ?_, ?_, htp, rfl⟩
  · rw [popWord_ready hr, htp, hsp, ht.wordAt]
  · show t.sp + 2 = s.sp
    rw [hsp]
    bv_omega

/-! ### Operand forms -/

/-- Settles O19: by the size of the access, which is a word for SP alone. -/
theorem stackFormsAlwaysMoveByTwo : Obligations.StackFormsAlwaysMoveByTwo := by
  refine ⟨fun s sz => ⟨rfl, rfl, rfl, rfl⟩, fun s r hr => ?_⟩
  cases r with
  | r7 => exact absurd rfl hr
  | _ => exact ⟨rfl, rfl, rfl, rfl, rfl, rfl⟩

/-- Settles O41: the page is that of the register, and the displacement of `@-Rn` is the size of the access. -/
theorem operandFormsHaveTheirPlaces : Obligations.OperandFormsHaveTheirPlaces := by
  refine ⟨fun s p o => ⟨fun h => ?_, fun h => ?_⟩,
    fun s sz => ⟨fun _ => rfl, fun _ => rfl, rfl, rfl, fun _ => rfl, fun _ => rfl, fun _ => rfl⟩,
    fun s sz r => ⟨s.pageOf r, ?_, ?_, ?_, rfl, rfl, fun _ => rfl, fun _ => rfl, fun hr => ?_, ?_⟩⟩
  · rw [State.busAddress, h]
    rfl
  · rw [State.busAddress, h]
    rfl
  · rintro (rfl | rfl) <;> rfl
  · rintro (rfl | rfl) <;> rfl
  · rintro (rfl | rfl | rfl | rfl) <;> rfl
  · cases r with
    | r7 => exact absurd rfl hr
    | _ => rfl
  · cases r <;> rfl

/-! ### On-chip RAM over a reset -/

/-- Settles O34: going into reset, the reset state and the reset sequence write no memory. -/
theorem onChipRamSurvivesReset : Obligations.OnChipRamSurvivesReset := by
  intro s t k _ _ h
  obtain ⟨hEnter, hHalted, hSequence⟩ := memorySurvivesReset
  have hmem : t.mem = s.mem := by
    rcases h with rfl | rfl | h | h
    · exact hEnter s
    · rfl
    · exact hHalted s t h
    · exact hSequence s t h
  rw [hmem]

end Sys2Proof.Machine
end

section
/-! The stops of an instruction: what can end an access, a sequence, and each operation, said once. -/

namespace Sys2Proof.Machine

/-- A part of an instruction that does not answer stops for the spec's reasons: an access to nothing (R62), an access
to the disabled RAM area (U14), and, only where `sequence` holds, an address error in a sequence or RTE (R133). -/
structure StopsByName {α : Type} (sequence : Prop) (o : Host.Outcome α Fault Refusal) : Prop where
  refusal : ∀ r, o = .refused r → r = .disabledRam
  fault : ∀ f, o = .fault f → f = .absentMemory ∨ (f = .addressErrorInSequence ∧ sequence)

variable {α β : Type} {q : Prop}

theorem StopsByName.next (a : α) : StopsByName q (.next a : Host.Outcome α Fault Refusal) := ⟨nofun, nofun⟩

theorem StopsByName.absentMemory : StopsByName q (.fault .absentMemory : Host.Outcome α Fault Refusal) :=
  ⟨nofun, fun f h => by cases h; exact .inl rfl⟩

theorem StopsByName.disabledRam : StopsByName q (.refused .disabledRam : Host.Outcome α Fault Refusal) :=
  ⟨fun r h => by cases h; rfl, nofun⟩

theorem StopsByName.addressErrorInSequence (hq : q) :
    StopsByName q (.fault .addressErrorInSequence : Host.Outcome α Fault Refusal) :=
  ⟨nofun, fun f h => by cases h; exact .inr ⟨rfl, hq⟩⟩

theorem StopsByName.andThen {o : Host.Outcome α Fault Refusal} {f : α → Host.Outcome β Fault Refusal}
    (ho : StopsByName q o) (hf : ∀ a, StopsByName q (f a)) : StopsByName q (andThen o f) := by
  cases o with
  | next a => exact hf a
  | fault r => exact ⟨nofun, fun r' h => ho.fault r' (by cases h; rfl)⟩
  | refused r => exact ⟨fun r' h => ho.refusal r' (by cases h; rfl), nofun⟩

/-! ### Accesses -/

theorem loadByte_stops (p : Byte) (o : Word) (s : State) : StopsByName q (loadByte p o s) := by
  unfold loadByte
  split
  case h_6 => exact .absentMemory
  case h_7 => exact .disabledRam
  all_goals exact .next _

theorem storeByte_stops (p : Byte) (o : Word) (v : Byte) (s : State) : StopsByName q (storeByte p o v s) := by
  unfold storeByte
  split
  case h_6 => exact .absentMemory
  case h_7 => exact .disabledRam
  all_goals exact .next _

theorem loadWord_stops (p : Byte) (o : Word) (s : State) : StopsByName q (loadWord p o s) := by
  unfold loadWord
  split
  · exact .next _
  · exact (loadByte_stops ..).andThen fun _ => (loadByte_stops ..).andThen fun _ => .next _

theorem storeWord_stops (p : Byte) (o v : Word) (s : State) : StopsByName q (storeWord p o v s) := by
  unfold storeWord
  split
  · exact .next _
  · exact (storeByte_stops ..).andThen fun _ => (storeByte_stops ..).andThen fun _ => .next _

theorem load_stops (sz : Size) (p : Byte) (o : Word) (s : State) : StopsByName q (load sz p o s) := by
  cases sz with
  | byte => exact loadByte_stops p o s
  | word => exact loadWord_stops p o s

theorem store_stops (sz : Size) (p : Byte) (o v : Word) (s : State) : StopsByName q (store sz p o v s) := by
  cases sz with
  | byte => exact storeByte_stops p o (lowerByte v) s
  | word => exact storeWord_stops p o v s

theorem readOperand_stops (sz : Size) (ea : Ea) (s : State) : StopsByName q (readOperand sz ea s) := by
  unfold readOperand
  split
  · exact .next _
  · exact .next _
  · exact (load_stops ..).andThen fun g => by split <;> exact .next _

theorem writeOperand_stops (sz : Size) (ea : Ea) (v : Word) (s : State) : StopsByName q (writeOperand sz ea v s) := by
  unfold writeOperand
  split
  · exact .next _
  · exact .next _
  · exact (store_stops ..).andThen fun w => by split <;> exact .next _

/-! ### Sequences and RTE, in which an address error is a fault (R133) -/

theorem pushWord_stops (hq : q) (v : Word) (s : State) : StopsByName q (pushWord v s) :=
  (storeWord_stops ..).andThen fun w => by
    split
    · exact .next _
    · exact .addressErrorInSequence hq

theorem popWord_stops (hq : q) (s : State) : StopsByName q (popWord s) :=
  (loadWord_stops ..).andThen fun g => by
    split
    · exact .next _
    · exact .addressErrorInSequence hq

theorem saveContext_stops (hq : q) (pc : Word) (cp : Byte) (s : State) : StopsByName q (saveContext pc cp s) := by
  unfold saveContext
  split
  · exact (pushWord_stops hq ..).andThen fun _ => pushWord_stops hq ..
  · exact (pushWord_stops hq ..).andThen fun _ => (pushWord_stops hq ..).andThen fun _ => pushWord_stops hq ..

theorem loadVector_stops (hq : q) (index : BitVec 6) (s : State) : StopsByName q (loadVector index s) := by
  unfold loadVector
  split
  · refine (loadWord_stops ..).andThen fun g => ?_
    split
    · exact .next _
    · exact .addressErrorInSequence hq
  · refine (loadByte_stops ..).andThen fun p => (loadWord_stops ..).andThen fun g => ?_
    split
    · exact .next _
    · exact .addressErrorInSequence hq

theorem exceptionSequence_stops (hq : q) (index : BitVec 6) (pc : Word) (cp : Byte) (m : Option (BitVec 3))
    (s : State) : StopsByName q (exceptionSequence index pc cp m s) :=
  (saveContext_stops hq ..).andThen fun _ => loadVector_stops hq ..

theorem returnFromException_stops (hq : q) (s : State) : StopsByName q (returnFromException s) := by
  unfold returnFromException
  split
  · exact (popWord_stops hq _).andThen fun _ => (popWord_stops hq _).andThen fun _ => .next _
  · exact (popWord_stops hq _).andThen fun _ => (popWord_stops hq _).andThen fun _ =>
      (popWord_stops hq _).andThen fun _ => .next _

theorem invalidInstruction_stops (hq : q) (s : State) : StopsByName q (invalidInstruction s) :=
  (exceptionSequence_stops hq ..).andThen fun _ => .next _

/-! ### The operations of the rows -/

theorem moveToRegister_stops (sz : Size) (ea : Ea) (d : Reg) (s : State) :
    StopsByName q (moveToRegister sz ea d s) :=
  (readOperand_stops ..).andThen fun g => by split <;> exact .next _

theorem moveFromRegister_stops (sz : Size) (ea : Ea) (r : Reg) (s : State) :
    StopsByName q (moveFromRegister sz ea r s) :=
  (writeOperand_stops ..).andThen fun w => by split <;> exact .next _

theorem addToRegister_stops (sz : Size) (ea : Ea) (d : Reg) (s : State) : StopsByName q (addToRegister sz ea d s) :=
  (readOperand_stops ..).andThen fun g => by split <;> exact .next _

theorem zeroDivide_stops (hq : q) (sz : Size) (d : Reg) (n : Nat) (s : State) :
    StopsByName q (zeroDivide sz d n s) :=
  (exceptionSequence_stops hq ..).andThen fun _ => .next _

theorem divideRegister_stops (hq : q) (sz : Size) (ea : Ea) (d : Reg) (s : State) :
    StopsByName q (divideRegister sz ea d s) := by
  refine (readOperand_stops ..).andThen fun g => ?_
  split
  · unfold divideBy
    split
    · exact zeroDivide_stops hq ..
    · exact .next _
  · unfold divideFailed
    split
    · exact zeroDivide_stops hq ..
    · exact .next _

/-- A control register that does not fit makes the instruction an invalid one, which takes a sequence (R80, R164). -/
theorem loadControl_stops {sz : Size} {c : ControlReg} (hq : c.fits sz = false → q) (ea : Ea) (s : State) :
    StopsByName q (loadControl sz ea c s) := by
  unfold loadControl
  split
  · exact (readOperand_stops ..).andThen fun g => by split <;> exact .next _
  · next h => exact invalidInstruction_stops (hq (Bool.eq_false_iff.mpr h)) s

theorem combineControl_stops {sz : Size} {c : ControlReg} (hq : c.fits sz = false → q) (n : Nat) (f : Word)
    (s : State) : StopsByName q (combineControl sz n c f s) := by
  unfold combineControl
  split
  · exact .next _
  · next h => exact invalidInstruction_stops (hq (Bool.eq_false_iff.mpr h)) s

theorem trap_stops (hq : q) (index : BitVec 6) (n : Nat) (s : State) : StopsByName q (trap index n s) :=
  (exceptionSequence_stops hq ..).andThen fun _ => .next _

/-! ### Every instruction -/

/-- An instruction that takes a sequence, whatever the state, or may take one, or is RTE. -/
def MayTakeSequence (i : Instr) : Prop :=
  i.wellFormed = false ∨ i = .rte ∨ i = .trapVs ∨ (∃ v, i = .trapa v) ∨ ∃ sz ea d, i = divxuRow sz ea d

theorem wellFormed_of_control {i : Instr} {c : ControlReg} {sz : Size} (h : i.control = some (c, sz)) :
    i.wellFormed = c.fits sz := by rw [Instr.wellFormed, h]

theorem control_ldcRow {sz : Size} {ea : Ea} (c : ControlReg) (h : ea.takesSize sz = true) :
    (ldcRow sz ea c).control = some (c, sz) := by
  cases ea <;> cases sz <;> cases h <;> rfl

theorem exec_stops (i : Instr) (s : State) : StopsByName (MayTakeSequence i) (exec i s) := by
  have illegal {c : ControlReg} {sz : Size} (hc : i.control = some (c, sz)) (hf : c.fits sz = false) :
      MayTakeSequence i := .inl ((wellFormed_of_control hc).trans hf)
  cases isRow i with
  | load sz ea d hz => rw [exec_movLoadRow d s hz]; exact moveToRegister_stops ..
  | store sz ea r hi => rw [exec_movStoreRow s hi]; exact moveFromRegister_stops ..
  | add sz ea d hz => rw [exec_addRow d s hz]; exact addToRegister_stops ..
  | divide sz ea d hz =>
    rw [exec_divxuRow d s hz]
    exact divideRegister_stops (.inr (.inr (.inr (.inr ⟨sz, ea, d, rfl⟩)))) ..
  | ldc sz ea c hz =>
    rw [exec_ldcRow c s hz]
    exact loadControl_stops (illegal (control_ldcRow c hz)) ..
  | combine sz n c f hx hc _ =>
    rw [hx]
    exact combineControl_stops (illegal hc) ..
  | trapa v => exact trap_stops (.inr (.inr (.inr (.inl ⟨v, rfl⟩)))) ..
  | trapVs =>
    show StopsByName _ (execTrapVs s)
    unfold execTrapVs
    split
    · exact trap_stops (.inr (.inr (.inl rfl))) ..
    · exact .next _
  | rte => exact (returnFromException_stops (.inr (.inl rfl)) s).andThen fun _ => .next _
  | movI v d => exact .next _
  | nop => exact .next _

/-- Settles O15: an access stops for want of memory or in the disabled RAM area, and an address error stops only a
sequence or RTE. -/
theorem instructionsStopOnlyByName : Obligations.InstructionsStopOnlyByName :=
  fun i s => ⟨(exec_stops i s).refusal, (exec_stops i s).fault⟩

end Sys2Proof.Machine
end

section
/-! A data transfer cycle: what it leaves, and the access at which it stops. -/

namespace Sys2Proof.Machine

/-! ### Where the accesses stop -/

theorem busAccesses_append (as bs : List BusAccess) (s : State) :
    busAccesses (as ++ bs) s = andThen (busAccesses as s) (busAccesses bs) := by
  induction as generalizing s with
  | nil => rfl
  | cons a as ih =>
    simp only [List.cons_append, busAccesses]
    cases busAccess a s with
    | next u => exact ih u
    | fault r => rfl
    | refused r => rfl

/-- An access to nothing is stuck (R62). -/
theorem busAccess_absent {a : BusAccess} {s : State} (h : s.accessRegion a = .absent) :
    busAccess a s = .fault .absentMemory := by
  cases a with
  | read p o =>
    have hr : s.region p o = .absent := h
    simp only [busAccess, loadByte, hr, andThen_fault]
  | write p o v =>
    have hr : s.region p o = .absent := h
    simp only [busAccess, storeByte, hr, andThen_fault]

/-- An access to the disabled RAM area is refused (U14). -/
theorem busAccess_disabled {a : BusAccess} {s : State} {k : Nat} (h : s.accessRegion a = .disabled k) :
    busAccess a s = .refused .disabledRam := by
  cases a with
  | read p o =>
    have hr : s.region p o = .disabled k := h
    simp only [busAccess, loadByte, hr, andThen_refused]
  | write p o v =>
    have hr : s.region p o = .disabled k := h
    simp only [busAccess, storeByte, hr, andThen_refused]

/-- Nowhere in the on-chip RAM area is there nothing. -/
theorem State.outsideRam_of_absent {s : State} {p : Byte} {o : Word} (h : s.region p o = .absent) :
    ¬(0xFB80 ≤ s.busAddress p o ∧ s.busAddress p o ≤ 0xFF7F) := by
  rintro ⟨h1, h2⟩
  revert h
  simp only [State.region, regionIn]
  rw [if_neg (by omega), if_neg (by omega), if_pos h1]
  split_ifs <;> nofun

/-- Nothing stays nothing, whatever becomes of RAME. -/
theorem State.accessRegion_absent_congr {s t : State} {a : BusAccess} (hm : t.mode = s.mode) (hc : t.cfg = s.cfg)
    (h : s.accessRegion a = .absent) : t.accessRegion a = .absent := by
  cases a with
  | read p o => exact (State.region_outsideRam hm hc (.inr (State.outsideRam_of_absent h))).trans h
  | write p o v => exact (State.region_outsideRam hm hc (.inr (State.outsideRam_of_absent h))).trans h

theorem State.accessRegion_congr {s t : State} (hm : t.mode = s.mode) (hr : t.rame = s.rame) (hc : t.cfg = s.cfg)
    (a : BusAccess) : t.accessRegion a = s.accessRegion a := by
  cases a with
  | read p o => exact State.region_congr hm hr hc p o
  | write p o v => exact State.region_congr hm hr hc p o

theorem busAccesses_sameSetup {as : List BusAccess} {s t : State} (h : busAccesses as s = .next t) :
    SameSetup s t := by
  obtain ⟨c, b, d, rfl, -⟩ := busAccesses_kept h
  exact ⟨rfl, rfl⟩

theorem busAccesses_stop_absent {before after : List BusAccess} {a : BusAccess} {s : State}
    (hb : ∀ b ∈ before, s.admits b) (ha : s.accessRegion a = .absent) :
    busAccesses (before ++ a :: after) s = .fault .absentMemory := by
  obtain ⟨u, hu⟩ := busAccesses_answers hb
  have hs := busAccesses_sameSetup hu
  rw [busAccesses_append, hu, andThen_next, busAccesses,
    busAccess_absent (State.accessRegion_absent_congr hs.mode hs.cfg ha), andThen_fault]

theorem busAccesses_stop_disabled {before after : List BusAccess} {a : BusAccess} {s : State} {k : Nat}
    (hb : ∀ b ∈ before, s.admits b) (ha : s.accessRegion a = .disabled k)
    (hw : s.lastWrite before (fieldAddress s.cfg.registers.ramcr) = none) :
    busAccesses (before ++ a :: after) s = .refused .disabledRam := by
  obtain ⟨u, hu⟩ := busAccesses_answers hb
  have hs := busAccesses_sameSetup hu
  have hrame : u.rame = s.rame := by rw [(busAccesses_made hu).rame, hw]
  rw [busAccesses_append, hu, andThen_next, busAccesses,
    busAccess_disabled ((State.accessRegion_congr hs.mode hrame hs.cfg a).trans ha), andThen_refused]

/-! ### The cycle -/

theorem step_dtc {s : State} {k : Fin 21} (he : s.env = []) (hr : s.inReset = false) (hd : s.dtcActive = some k) :
    step s = s.dtcCycle k := by
  have ha : s.nextAction = .dtc k := by rw [State.nextAction, hr, hd]; rfl
  rw [step, State.applyEnvironment_nil he, ha]
  rfl

theorem State.dtcCycle_answers {s : State} {k : Fin 21} (h : ∀ a ∈ (Config.dtcCycle k s).accesses, s.admits a) :
    ∃ t, s.dtcCycle k = .next t := by
  obtain ⟨u, hu⟩ := busAccesses_answers (s := s.tick) fun a ha => (State.admits_congr rfl rfl a).mpr (h a ha)
  exact ⟨_, andThen_eq_next.mpr ⟨u, hu, rfl⟩⟩

/-- A cycle that is made has made its accesses. -/
theorem State.dtcCycle_made {s t : State} {k : Fin 21} (h : s.dtcCycle k = .next t) :
    AccessesMade (Config.dtcCycle k s).accesses s t := by
  obtain ⟨u, hu, h⟩ := andThen_eq_next.mp h
  cases h
  obtain ⟨rame, level, dte, mds, bytes⟩ := (busAccesses_made hu).from (s := s) rfl rfl rfl rfl rfl rfl rfl
  exact ⟨rame, level, dte, mds, bytes⟩

/-- While `defer` is set an instruction is what comes next (R160, R163). -/
theorem State.nextAction_deferred {s : State} (hr : s.inReset = false) (hd : s.dtcActive = none)
    (hdefer : s.defer = true) : s.nextAction = .instruction := by
  rw [State.nextAction, hr, hd, hdefer]
  rfl

/-- Settles O32: the cycle is its accesses and the registers of `DtcCycle`; each access before the first that is not
admitted is made, and leaves what lies at the address of that one. -/
theorem dtcCycleEndsDeferred : Obligations.DtcCycleEndsDeferred := by
  refine ⟨fun s k he hr hd => ?_, fun s before after a hb =>
    ⟨busAccesses_stop_absent hb, fun k => busAccesses_stop_disabled hb⟩⟩
  rw [step_dtc he hr hd]
  refine ⟨State.dtcCycle_answers, fun f hf => ?_, fun r hf => ?_, fun t ht => ⟨State.dtcCycle_made ht, ?_⟩⟩
  · rw [State.dtcCycle, hf]
    rfl
  · rw [State.dtcCycle, hf]
    rfl
  · obtain ⟨c, rfl, -⟩ := State.dtcCycle_change ht
    exact ⟨rfl, rfl, rfl, State.nextAction_deferred hr rfl rfl, rfl, rfl, rfl, rfl, rfl, rfl, rfl, rfl, rfl, rfl, rfl,
      rfl, rfl⟩

end Sys2Proof.Machine
end

section
/-! Decoding and encoding are inverse: the code of an instruction, with any bytes after it, is read back as it, and
bytes that decode to an instruction begin with its code (R79 to R81). -/

namespace Sys2Proof

/-! ### The fields of a byte -/

@[simp] theorem Reg.ofCode_code (r : Reg) : Reg.ofCode r.code = r := by cases r <;> rfl

@[simp] theorem Reg.code_ofCode (b : BitVec 3) : (Reg.ofCode b).code = b := by revert b; decide

@[simp] theorem ControlReg.ofCode_code (c : ControlReg) : ControlReg.ofCode c.code = c := by cases c <;> rfl

@[simp] theorem ControlReg.code_ofCode (b : BitVec 3) : (ControlReg.ofCode b).code = b := by revert b; decide

@[simp] theorem Size.code_ofCode (b : BitVec 1) : (Size.ofCode b).code = b := by revert b; decide

@[simp] theorem opByte_code (code : BitVec 5) (n : BitVec 3) : (opByte code n).extractLsb' 3 5 = code :=
  extractLsb'_append_high code n

@[simp] theorem opByte_number (code : BitVec 5) (n : BitVec 3) : (opByte code n).extractLsb' 0 3 = n :=
  extractLsb'_append_low code n

/-- An operation-code byte is made of its two parts (R80). -/
theorem opByte_eq {op : Byte} {code : BitVec 5} (h : op.extractLsb' 3 5 = code) :
    opByte code (op.extractLsb' 0 3) = op := h ▸ append_extractLsb' (m := 5) (n := 3) op

/-- The first byte of an operand form is made of its three parts (R79). -/
theorem append_fields (b : Byte) : b.extractLsb' 4 4 ++ b.extractLsb' 3 1 ++ b.extractLsb' 0 3 = b := by
  have upper : b.extractLsb' 4 4 ++ b.extractLsb' 3 1 = b.extractLsb' 3 5 :=
    BitVec.extractLsb'_append_extractLsb'_eq_extractLsb' rfl
  rw [upper]
  exact append_extractLsb' (m := 5) (n := 3) b

/-! ### The code of a row -/

theorem encode_movLoadRow {sz : Size} {ea : Ea} (r : Reg) (h : ea.takesSize sz = true) :
    encode (movLoadRow sz ea r) = encodeMovLoad sz ea r := by cases ea <;> cases sz <;> cases h <;> rfl

theorem encode_movStoreRow {sz : Size} {ea : Ea} {r : Reg} {i : Instr} (h : movStoreRow sz ea r = some i) :
    encode i = encodeMovStore sz ea r := by cases ea <;> cases h <;> rfl

theorem encode_addRow {sz : Size} {ea : Ea} (r : Reg) (h : ea.takesSize sz = true) :
    encode (addRow sz ea r) = encodeAdd sz ea r := by cases ea <;> cases sz <;> cases h <;> rfl

theorem encode_divxuRow {sz : Size} {ea : Ea} (r : Reg) (h : ea.takesSize sz = true) :
    encode (divxuRow sz ea r) = encodeDivxu sz ea r := by cases ea <;> cases sz <;> cases h <;> rfl

theorem encode_ldcRow {sz : Size} {ea : Ea} (c : ControlReg) (h : ea.takesSize sz = true) :
    encode (ldcRow sz ea c) = encodeLdc sz ea c := by cases ea <;> cases sz <;> cases h <;> rfl

theorem encode_andcRow {sz : Size} {ea : Ea} {c : ControlReg} {i : Instr} (h : ea.takesSize sz = true)
    (hi : andcRow ea c = some i) : encode i = encodeEa sz ea ++ [opByte 0b01011 c.code] := by
  cases ea <;> cases sz <;> cases h <;> cases hi <;> rfl

theorem encode_orcRow {sz : Size} {ea : Ea} {c : ControlReg} {i : Instr} (h : ea.takesSize sz = true)
    (hi : orcRow ea c = some i) : encode i = encodeEa sz ea ++ [opByte 0b01001 c.code] := by
  cases ea <;> cases sz <;> cases h <;> cases hi <;> rfl

theorem encode_xorcRow {sz : Size} {ea : Ea} {c : ControlReg} {i : Instr} (h : ea.takesSize sz = true)
    (hi : xorcRow ea c = some i) : encode i = encodeEa sz ea ++ [opByte 0b01101 c.code] := by
  cases ea <;> cases sz <;> cases h <;> cases hi <;> rfl

/-- The row of an operand form and an operation-code byte has the code of the form, then that byte (R80). -/
theorem encode_generalRow {sz : Size} {ea : Ea} {op : Byte} {i : Instr} (h : ea.takesSize sz = true)
    (hi : generalRow sz ea op = some i) : encode i = encodeEa sz ea ++ [op] := by
  have last {code : BitVec 5} (hc : op.extractLsb' 3 5 = code) :
      encodeEa sz ea ++ [opByte code (op.extractLsb' 0 3)] = encodeEa sz ea ++ [op] := by rw [opByte_eq hc]
  unfold generalRow at hi
  simp only at hi
  split_ifs at hi with h1 h2 h3 h4 h5 h6 h7 h8
  · cases hi
    rw [encode_movLoadRow _ h, encodeMovLoad, Reg.code_ofCode]
    exact last h1
  · rw [encode_movStoreRow hi, encodeMovStore, Reg.code_ofCode]
    exact last h2
  · cases hi
    rw [encode_addRow _ h, encodeAdd, Reg.code_ofCode]
    exact last h3
  · cases hi
    rw [encode_divxuRow _ h, encodeDivxu, Reg.code_ofCode]
    exact last h4
  · cases hi
    rw [encode_ldcRow _ h, encodeLdc, ControlReg.code_ofCode]
    exact last h5
  · rw [encode_andcRow h hi, ControlReg.code_ofCode]
    exact last h6
  · rw [encode_orcRow h hi, ControlReg.code_ofCode]
    exact last h7
  · rw [encode_xorcRow h hi, ControlReg.code_ofCode]
    exact last h8

/-! ### Decoding a code -/

/-- The operand form is read from its code (R79). -/
theorem decode_encodeEa {sz : Size} {ea : Ea} (h : ea.takesSize sz = true) (bs : List Byte) :
    decode (encodeEa sz ea ++ bs) = decodeOperation sz ea bs := by
  have word {w : Word} {f : Word → Ea} (hd : decode (encodeEa sz (f w) ++ bs) =
      decodeOperation sz (f (wordOfBytes (upperByte w) (lowerByte w))) bs) :
      decode (encodeEa sz (f w) ++ bs) = decodeOperation sz (f w) bs := by rwa [wordOfBytes_upper_lower] at hd
  cases ea with
  | reg r => cases sz <;> cases r <;> rfl
  | ind r => cases sz <;> cases r <;> rfl
  | disp8 d r => cases sz <;> cases r <;> rfl
  | disp16 d r => exact word (f := fun d => .disp16 d r) (by cases sz <;> cases r <;> rfl)
  | preDec r => cases sz <;> cases r <;> rfl
  | postInc r => cases sz <;> cases r <;> rfl
  | abs8 a => cases sz <;> rfl
  | abs16 a => exact word (f := .abs16) (by cases sz <;> rfl)
  | imm8 v => cases sz <;> cases h; rfl
  | imm16 v => exact word (f := .imm16) (by cases sz <;> cases h; rfl)

/-- The code of an instruction of the general format (R78). -/
theorem decode_general {sz : Size} {ea : Ea} {op : Byte} {i : Instr} (rest : List Byte) (h : ea.takesSize sz = true)
    (hi : generalRow sz ea op = some i) : decode (encodeEa sz ea ++ [op] ++ rest) = .instr i := by
  rw [List.append_assoc, decode_encodeEa h]
  simp only [List.singleton_append, decodeOperation, hi]

/-- The code of an instruction is read back as it, whatever follows. -/
theorem decode_encode_append (i : Instr) (rest : List Byte) : decode (encode i ++ rest) = .instr i := by
  cases i
  case trapa v =>
    have hv : (0b0001#4 ++ v).extractLsb' 4 4 = 0b0001#4 := extractLsb'_append_high _ v
    have hl : (0b0001#4 ++ v).extractLsb' 0 4 = v := extractLsb'_append_low _ v
    show (if (0b0001#4 ++ v).extractLsb' 4 4 = 0b0001#4 then
      Decoded.instr (.trapa ((0b0001#4 ++ v).extractLsb' 0 4)) else .unknown) = _
    rw [if_pos hv, hl]
  case trapVs => rfl
  case rte => rfl
  case nop => rfl
  case movI v d =>
    have : decode (encode (.movI v d) ++ rest) = .instr (.movI (wordOfBytes (upperByte v) (lowerByte v)) d) := by
      cases d <;> rfl
    rw [this, wordOfBytes_upper_lower]
  all_goals exact decode_general rest rfl (by
    simp [generalRow, movLoadRow, movStoreRow, addRow, divxuRow, ldcRow, andcRow, orcRow, xorcRow])

/-! ### What decodes is a code -/

/-- What the first byte of a code is, by what is read from it (R79, R81). -/
def FirstByte.ReadFrom (b : Byte) : FirstByte → Prop
  | .ea0 sz ea => ea.takesSize sz = true ∧ encodeEa sz ea = [b]
  | .ea1 sz ea => ∀ x, (ea x).takesSize sz = true ∧ encodeEa sz (ea x) = [b, x]
  | .ea2 sz ea => ∀ w, (ea w).takesSize sz = true ∧ encodeEa sz (ea w) = [b, upperByte w, lowerByte w]
  | .trapa => b = 0b00001000#8
  | .trapVs => encode .trapVs = [b]
  | .rte => encode .rte = [b]
  | .movI d => b = 0b01011#5 ++ d.code
  | .nop => encode .nop = [b]
  | .none => True

theorem firstByte_readFrom (b : Byte) : (firstByte b).ReadFrom b := by
  have form {k : BitVec 4} (h : b.extractLsb' 4 4 = k) :
      k ++ (Size.ofCode (b.extractLsb' 3 1)).code ++ (Reg.ofCode (b.extractLsb' 0 3)).code = b := by
    rw [Size.code_ofCode, Reg.code_ofCode, ← h, append_fields]
  have absolute {k : BitVec 4} (h : b.extractLsb' 4 4 = k ∧ b.extractLsb' 0 3 = 0b101#3) :
      k ++ (Size.ofCode (b.extractLsb' 3 1)).code ++ 0b101#3 = b := by
    rw [Size.code_ofCode, ← h.1, ← h.2, append_fields]
  have row {c : Prop} [Decidable c] {x y : FirstByte} (hx : c → x.ReadFrom b) (hy : y.ReadFrom b) :
      (if c then x else y).ReadFrom b := iteInduction hx fun _ => hy
  unfold firstByte
  refine row (fun h => ⟨rfl, ?reg⟩) <| row (fun h => ⟨rfl, ?ind⟩) <| row (fun h x => ⟨rfl, ?disp8⟩) <|
    row (fun h w => ⟨rfl, ?disp16⟩) <| row (fun h => ⟨rfl, ?preDec⟩) <| row (fun h => ⟨rfl, ?postInc⟩) <|
    row (fun h x => ⟨rfl, ?abs8⟩) <| row (fun h w => ⟨rfl, ?abs16⟩) <| row (fun h x => ⟨rfl, ?imm8⟩) <|
    row (fun h w => ⟨rfl, ?imm16⟩) <| row (fun h => h) <| row (fun h => h ▸ rfl) <| row (fun h => h ▸ rfl) <|
    row (fun h => ?movI) <| row (fun h => h ▸ rfl) trivial
  case abs8 => rw [encodeEa, absolute h]
  case abs16 => rw [encodeEa, absolute h]
  case imm8 => rw [encodeEa, h]
  case imm16 => rw [encodeEa, h]
  case movI =>
    show b = 0b01011#5 ++ (Reg.ofCode (b.extractLsb' 0 3)).code
    rw [Reg.code_ofCode, ← h]
    exact (append_extractLsb' (m := 5) (n := 3) b).symm
  all_goals rw [encodeEa, form h]

/-- The bytes of an operand form, which `decode` has read, and what is decoded after them. -/
theorem decodeOperation_eq_instr {sz : Size} {ea : Ea} {form bs : List Byte} {i : Instr}
    (h : ea.takesSize sz = true ∧ encodeEa sz ea = form) (hd : decodeOperation sz ea bs = .instr i) :
    ∃ rest, form ++ bs = encode i ++ rest := by
  obtain ⟨hz, rfl⟩ := h
  cases bs with
  | nil => cases hd
  | cons op rest =>
    simp only [decodeOperation] at hd
    split at hd <;> cases hd
    next hi => exact ⟨rest, by rw [encode_generalRow hz hi, List.append_assoc]; rfl⟩

/-- Bytes that decode to an instruction begin with its code. -/
theorem encode_of_decode {bs : List Byte} {i : Instr} (h : decode bs = .instr i) : ∃ rest, bs = encode i ++ rest := by
  cases bs with
  | nil => cases h
  | cons b bs =>
    have hb := firstByte_readFrom b
    simp only [decode] at h
    cases hf : firstByte b with
    | ea0 sz ea =>
      rw [hf] at hb h
      exact decodeOperation_eq_instr hb h
    | ea1 sz ea =>
      rw [hf] at hb h
      cases bs with
      | nil => cases h
      | cons x bs => exact decodeOperation_eq_instr (hb x) h
    | ea2 sz ea =>
      rw [hf] at hb h
      rcases bs with _ | ⟨x, _ | ⟨y, bs⟩⟩
      · cases h
      · cases h
      · have hw := hb (wordOfBytes x y)
        rw [upperByte_wordOfBytes, lowerByte_wordOfBytes] at hw
        exact decodeOperation_eq_instr hw h
    | trapa =>
      rw [hf] at hb h
      cases bs with
      | nil => cases h
      | cons x bs =>
        simp only at h
        split at h <;> cases h
        next hx =>
          refine ⟨bs, ?_⟩
          rw [encode, ← hx, append_extractLsb' (m := 4) (n := 4) x, hb]
          rfl
    | movI d =>
      rw [hf] at hb h
      rcases bs with _ | ⟨x, _ | ⟨y, bs⟩⟩
      · cases h
      · cases h
      · cases h
        refine ⟨bs, ?_⟩
        rw [encode, upperByte_wordOfBytes, lowerByte_wordOfBytes, hb]
        rfl
    | trapVs | rte | nop =>
      rw [hf] at hb h
      cases h
      exact ⟨bs, by rw [hb]; rfl⟩
    | none => rw [hf] at h; cases h

/-- Bytes that agree with decoded ones as far as the instruction goes decode to it too. -/
theorem decode_congr {bs bs' : List Byte} {i : Instr} (h : decode bs = .instr i)
    (hb : ∀ n, n < i.length → bs'[n]? = bs[n]?) : decode bs' = .instr i := by
  obtain ⟨rest, rfl⟩ := encode_of_decode h
  have hp : encode i <+: bs' := List.prefix_iff_getElem?.mpr fun n hn => by
    rw [hb n hn, List.getElem?_append_left hn, List.getElem?_eq_getElem hn]
  obtain ⟨rest', rfl⟩ := hp
  exact decode_encode_append i rest'

end Sys2Proof
end

section
/-! Code of which a byte was stored to (R60): when the fetch refuses it, what `Decode` gives where it does not, and
which bytes a store, a sequence, RTE and a reset leave stored to. -/

namespace Sys2Proof

/-! ### What `Decode` gives, and how far it looks -/

/-- `Decode` gives an instruction, or `Invalid`, of `len` bytes. -/
def Lookup.Gives (l : Lookup) (len : Nat) : Prop := (∃ i, l = .instr i len) ∨ l = .invalid len

theorem Lookup.Gives.ne_short {l : Lookup} {len : Nat} (h : Lookup.Gives l len) : l ≠ .short := by
  rcases h with ⟨i, h⟩ | h <;> rw [h] <;> nofun

theorem le_foldl_codeLength (rows : List Config.CodeRow) (n : Nat) :
    n ≤ rows.foldl (fun n r => max n r.code.length) n := by
  induction rows generalizing n with
  | nil => exact Nat.le_refl n
  | cons r rows ih => exact (Nat.le_max_left n r.code.length).trans (ih _)

/-- A fetch looks at no fewer bytes than the longest instruction of the table has. -/
theorem maxLength_le_longestCode (rows : List Config.CodeRow) : maxLength ≤ longestCode rows := le_foldl_codeLength rows _

/-! ### Given rows that a stored byte keeps from being taken -/

/-- A row that agrees with the bytes but for uncertain ones is contested, unless the bytes end inside a row. -/
theorem contested_of_agrees {u : Nat → Bool} {before after : List Config.CodeRow} {r : Config.CodeRow}
    {bs : List Byte} (hshort : lookup (before ++ r :: after) bs ≠ .short) (hr : r.code ≠ [])
    (hn : ∀ q, q = r ∨ q ∈ before → q.code ≠ [] → ¬ q.code <+: bs) (ha : agrees u r.code bs 0 = true) :
    contested u (before ++ r :: after) bs = true := by
  induction before with
  | nil =>
    have hp := hn r (.inl rfl) hr
    rw [← List.isPrefixOf_iff_prefix] at hp
    rw [List.nil_append, lookup_cons, if_neg hr, if_neg hp] at hshort
    have hq : ¬ bs.isPrefixOf r.code = true := fun h => hshort (if_pos h)
    rw [List.nil_append, contested, if_neg hr, if_neg (by simp [hp, hq]), ha, Bool.true_or]
  | cons q before ih =>
    have hn' : ∀ q, q = r ∨ q ∈ before → q.code ≠ [] → ¬ q.code <+: bs := fun q hq =>
      hn q (hq.imp_right (List.mem_cons_of_mem _))
    rw [List.cons_append, lookup_cons] at hshort
    rw [List.cons_append, contested]
    by_cases hq : q.code = []
    · rw [if_pos hq] at hshort ⊢
      exact ih hshort hn'
    · have hp := hn q (.inr List.mem_cons_self) hq
      rw [← List.isPrefixOf_iff_prefix] at hp
      rw [if_neg hq, if_neg hp] at hshort
      have hb : ¬ bs.isPrefixOf q.code = true := fun h => hshort (if_pos h)
      rw [if_neg hb] at hshort
      rw [if_neg hq, if_neg (by simp [hp, hb]), ih hshort hn', Bool.or_true]

end Sys2Proof

namespace Sys2Proof.Machine

/-! ### The refusal -/

theorem step_instruction {s : State} (he : s.env = []) (ha : s.nextAction = .instruction) :
    step s = instructionStep s := by
  rw [step, State.applyEnvironment_nil he, ha]
  rfl

theorem step_stale {s : State} {len : Nat} (he : s.env = []) (ha : s.nextAction = .instruction)
    (hm : s.mayFetch = true) (hd : Lookup.Gives s.decoded len) (hs : s.staleWithin len = true) :
    step s = .refused .storeIntoPrefetchedCode := by
  rw [step_instruction he ha]
  rcases hd with ⟨i, hd⟩ | hd <;>
    simp only [instructionStep, fetch, hm, hd, hs, if_true, andThen_refused]

theorem State.staleWithin_of_byte {s : State} {len : Nat}
    (h : ∃ n, n < len ∧ s.byteKey (s.codeAddress n).1 (s.codeAddress n).2 ∈ s.stale) : s.staleWithin len = true := by
  obtain ⟨n, hn, hk⟩ := h
  rw [State.staleWithin, Bool.or_eq_true, List.any_eq_true]
  exact .inl ⟨n, List.mem_range.mpr hn, State.staleAt_iff.mpr hk⟩

theorem State.staleWithin_of_row {s : State} {len : Nat} {before after : List Config.CodeRow} {r : Config.CodeRow}
    (hd : Lookup.Gives s.decoded len) (hrows : s.cfg.codes = before ++ r :: after) (hr : r.code ≠ [])
    (hn : ∀ q, q = r ∨ q ∈ before → q.code ≠ [] → ¬ q.code <+: s.codeBytes)
    (ha : ∀ n c b, r.code[n]? = some c → s.codeBytes[n]? = some b →
      c = b ∨ s.byteKey (s.codeAddress n).1 (s.codeAddress n).2 ∈ s.stale) : s.staleWithin len = true := by
  have hshort := hd.ne_short
  rw [State.decoded, hrows] at hshort
  have hagrees : agrees s.staleAt r.code s.codeBytes 0 = true := agrees_iff.mpr fun n c b hc hb => by
    rw [Nat.zero_add, State.staleAt_iff]
    exact ha n c b hc hb
  rw [State.staleWithin, hrows, contested_of_agrees hshort hr hn hagrees, Bool.or_true]

/-! ### The encoding of an instruction in storage -/

/-- Bytes that can be fetched one by one are the first of those that a fetch looks at. -/
theorem fetchBytes_prefix {s : State} {bs : List Byte} {count n : Nat} (hc : bs.length ≤ count)
    (h : ∀ k (hk : k < bs.length), fetchByte s (n + k) = .next bs[k]) : bs <+: fetchBytes s count n := by
  induction bs generalizing count n with
  | nil => exact List.nil_prefix
  | cons b bs ih =>
    obtain ⟨count, rfl⟩ : ∃ c, count = c + 1 := ⟨count - 1, by simp only [List.length_cons] at hc; omega⟩
    have h0 : fetchByte s n = .next b := h 0 (Nat.zero_lt_succ _)
    have hrest : bs <+: fetchBytes s count (n + 1) := ih (Nat.le_of_succ_le_succ hc) fun k hk => by
      have := h (k + 1) (Nat.succ_lt_succ hk)
      rwa [Nat.add_assoc, Nat.add_comm 1 k]
    simp only [fetchBytes, h0]
    exact (List.prefix_cons_inj b).mpr hrest

theorem fetchByte_holdsCode {s : State} {bs : List Byte} (h : s.holdsCode bs) {n : Nat} (hn : n < bs.length) :
    fetchByte s n = .next bs[n] := by
  obtain ⟨k, hr, hb⟩ := h n hn
  rw [← hb]
  rcases hr with hr | hr <;> simp only [fetchByte, hr]

theorem State.codeBytes_prefix {s : State} {bs : List Byte} (h : s.holdsCode bs) (hl : bs.length ≤ maxLength) :
    bs <+: s.codeBytes :=
  fetchBytes_prefix (hl.trans (maxLength_le_longestCode _)) fun k hk => by
    rw [Nat.zero_add]
    exact fetchByte_holdsCode h hk

theorem State.mayFetch_of_holdsCode {s : State} {bs : List Byte} (h : s.holdsCode bs) (hl : 0 < bs.length) :
    s.mayFetch = true := by
  obtain ⟨k, hr, -⟩ := h 0 hl
  rw [State.codeRegion_zero] at hr
  rcases hr with hr | hr <;> simp only [State.mayFetch, hr]

/-- Where no given row speaks of an encoding in storage at CP:PC, `Decode` gives the instruction. -/
theorem State.decoded_of_holdsCode {s : State} {i : Instr} (h : s.holdsCode (encode i))
    (hl : Config.CodeRow.leaves s.cfg.codes (encode i)) : s.decoded = .instr i i.length := by
  obtain ⟨rest, hr⟩ := State.codeBytes_prefix h i.length_le
  rw [State.decoded, ← hr, lookup_of_leaves hl, decode_encode_append]
  rfl

/-! ### `Decode` whatever the stored bytes held -/

theorem State.decoded_certain {s : State} {len : Nat} {bs : List Byte} (hd : Lookup.Gives s.decoded len)
    (hs : s.staleWithin len = false)
    (hb : ∀ n, s.byteKey (s.codeAddress n).1 (s.codeAddress n).2 ∉ s.stale → bs[n]? = s.codeBytes[n]?) :
    lookup s.cfg.codes bs = s.decoded := by
  obtain ⟨hcertain, hcontested⟩ := State.staleWithin_eq_false.mp hs
  have hb' : ∀ n, s.staleAt n = false → bs[n]? = s.codeBytes[n]? := fun n hn =>
    hb n fun hk => Bool.eq_false_iff.mp hn (State.staleAt_iff.mpr hk)
  rcases lookup_certain hb' hcontested hd hcertain with h | ⟨h, h'⟩
  · exact h
  · have hr : Lookup.Gives (decode s.codeBytes).result len := h ▸ hd
    rw [h', State.decoded, h]
    rcases hr with ⟨i, hi⟩ | hi
    · cases hdec : decode s.codeBytes with
      | instr j =>
        rw [hdec] at hi
        cases hi
        rw [decode_congr hdec fun n hn => hb' n (hcertain n hn)]
      | unknown => rw [hdec] at hi; cases hi
      | short => rw [hdec] at hi; cases hi
    · exact absurd hi (Decoded.result_ne_invalid _ _)

/-! ### What a store leaves stored to -/

theorem State.byteKey_congr {s t : State} {p : Byte} {o : Word} (hm : t.mode = s.mode)
    (hr : t.region p o = s.region p o) : t.byteKey p o = s.byteKey p o := by
  simp only [State.byteKey, hr, State.busAddress_congr hm]

/-- A store of either size, made or not, marks the bytes at its addresses and no other. -/
theorem store_stale {sz : Size} {p : Byte} {o v : Word} {s : State} {w : Stored} {k : Nat}
    (h : store sz p o v s = .next w) :
    k ∈ w.state.stale ↔ k ∈ s.stale ∨ k = s.byteKey p o ∨ (sz = .word ∧ k = s.byteKey p (o + 1)) := by
  cases sz with
  | byte =>
    rw [storeByte_stale h]
    simp [or_comm]
  | word =>
    simp only [store, storeWord] at h
    split at h
    · cases h
      have hkey : (drawByteAt p o s).byteKey p (o + 1) = s.byteKey p (o + 1) := by
        obtain ⟨c, e, -⟩ := drawByteAt_kept p o s
        exact State.byteKey_congr (by rw [e]; rfl)
          (State.region_next (by rw [e]; rfl) (by rw [e]; rfl) drawByteAt_rame)
      rw [State.raiseAddressError_stale, drawByteAt_stale, drawByteAt_stale, hkey]
      tauto
    · obtain ⟨hi, e1, h⟩ := andThen_eq_next.mp h
      obtain ⟨lo, e2, h⟩ := andThen_eq_next.mp h
      cases h
      have hkey : hi.state.byteKey p (o + 1) = s.byteKey p (o + 1) := by
        obtain ⟨c, a, d, e, -⟩ := (storeByte_kept e1).change
        exact State.byteKey_congr (by rw [e]; rfl)
          (State.region_next (by rw [e]; rfl) (by rw [e]; rfl) (storeByte_rame e1))
      rw [storeByte_stale e2, storeByte_stale e1, hkey]
      tauto

theorem State.modify_stale (s : State) (sz : Size) (ea : Ea) : (s.modify sz ea).stale = s.stale := by
  obtain ⟨rf, e, -⟩ := s.modify_change sz ea
  rw [e]

theorem State.modifyFailed_stale (s : State) (ea : Ea) : (s.modifyFailed ea).stale = s.stale := by
  obtain ⟨n, rf, e, -⟩ := s.modifyFailed_change ea
  rw [e]

theorem writeOperand_stale {sz : Size} {ea : Ea} {v : Word} {s : State} {w : Stored} {p : Byte} {o : Word} {k : Nat}
    (hp : s.place sz ea = .memory p o) (h : writeOperand sz ea v s = .next w) :
    k ∈ w.state.stale ↔ k ∈ s.stale ∨ k = s.byteKey p o ∨ (accessSize sz ea = .word ∧ k = s.byteKey p (o + 1)) := by
  rw [writeOperand, hp] at h
  obtain ⟨u, hu, h⟩ := andThen_eq_next.mp h
  have hw : w.state.stale = u.state.stale := by
    split at h <;> cases h
    · exact State.modify_stale ..
    · exact State.modifyFailed_stale ..
  obtain ⟨n, e⟩ := s.tickForStore_change sz ea
  rw [e] at hu
  rw [hw, store_stale hu]
  rfl

theorem moveFromRegister_stale {sz : Size} {ea : Ea} {r : Reg} {s t : State} {p : Byte} {o : Word} {k : Nat}
    (hp : s.place sz ea = .memory p o) (h : moveFromRegister sz ea r s = .next t) :
    k ∈ t.stale ↔ k ∈ s.stale ∨ k = s.byteKey p o ∨ (accessSize sz ea = .word ∧ k = s.byteKey p (o + 1)) := by
  obtain ⟨w, hw, h⟩ := andThen_eq_next.mp h
  have ht : t.stale = w.state.stale := by split at h <;> cases h <;> rfl
  rw [ht, writeOperand_stale hp hw]

/-! ### What changes the flow of control leaves none -/

theorem exceptionSequence_stale {index : BitVec 6} {pc : Word} {cp : Byte} {m : Option (BitVec 3)} {s t : State}
    (h : exceptionSequence index pc cp m s = .next t) : t.stale = [] := by
  obtain ⟨c, sp, pc', cp', rfl, -, hc, -⟩ := exceptionSequence_kept h
  exact hc

theorem execRte_stale {s t : State} (h : execRte s = .next t) : t.stale = [] := by
  obtain ⟨u, hu, h⟩ := andThen_eq_next.mp h
  obtain ⟨n, sp, sr, pc, cp, rfl, -⟩ := returnFromException_kept hu
  cases h
  rfl

theorem resetSequence_stale {s t : State} (h : resetSequence s = .next t) : t.stale = [] := by
  obtain ⟨u, hu, h⟩ := andThen_eq_next.mp h
  obtain ⟨n, pc, cp, rfl, -⟩ := loadVector_kept hu
  cases h
  rfl

/-- Settles O7: a stored byte of the code, or one that a given row before it turns on, makes the fetch refuse; where
it does not, `Decode` looks at no stored byte that could change its answer. -/
theorem storeIntoFetchedCodeIsRefused : Obligations.StoreIntoFetchedCodeIsRefused := by
  refine ⟨fun s len he ha hm hd hk => step_stale he ha hm hd (State.staleWithin_of_byte hk),
    fun s i he ha hl hc hk => ?_,
    fun s len before after r he ha hm hd hrows hr hn hagree =>
      step_stale he ha hm hd (State.staleWithin_of_row hd hrows hr hn hagree),
    fun s len bs hd hs _ hb => State.decoded_certain hd hs hb, fun sz ea r i s t page off hi h hp k => ?_,
    fun index pc cp m s t => exceptionSequence_stale, fun s t => execRte_stale, fun s t => resetSequence_stale⟩
  · exact step_stale he ha (State.mayFetch_of_holdsCode hc i.length_pos)
      (.inl ⟨i, State.decoded_of_holdsCode hc hl⟩) (State.staleWithin_of_byte hk)
  · rw [exec_movStoreRow s hi] at h
    exact moveFromRegister_stale hp h

end Sys2Proof.Machine
end

section
/-! What `Decode` gives for an encoding, for bytes that no row speaks of, and for bytes of which a fetch sees only
the first; and the step that runs what it gives (R70, R83, R177). -/

namespace Sys2Proof

/-- Settles O1: an operand form is read back from its first byte, and the rest of the code from its last. -/
theorem decodeReadsBackEncode : Obligations.DecodeReadsBackEncode := decode_encode_append

/-- Settles O2: every byte of a code is made of the fields that are read from it. -/
theorem decodedBytesAreTheEncoding : Obligations.DecodedBytesAreTheEncoding := fun _ _ => encode_of_decode

/-- Settles O3: each word by evaluation. -/
theorem specExampleWordsDecode : Obligations.SpecExampleWordsDecode := by
  unfold Obligations.SpecExampleWordsDecode
  decide

/-! ### Where `Invalid` comes from -/

/-- `Invalid` is the result of a given row that the bytes begin with. -/
theorem row_of_lookup_invalid {rows : List Config.CodeRow} {bs : List Byte} {len : Nat}
    (h : lookup rows bs = .invalid len) : ∃ r ∈ rows, r.code ≠ [] ∧ r.code <+: bs ∧ r.result = .invalid len := by
  induction rows with
  | nil => exact absurd h (Decoded.result_ne_invalid _ _)
  | cons r rows ih =>
    have later (h : lookup rows bs = .invalid len) :
        ∃ q ∈ r :: rows, q.code ≠ [] ∧ q.code <+: bs ∧ q.result = .invalid len := by
      obtain ⟨q, hq, hrow⟩ := ih h
      exact ⟨q, List.mem_cons_of_mem _ hq, hrow⟩
    rw [lookup_cons] at h
    split_ifs at h with hnil hpre
    · exact later h
    · exact ⟨r, List.mem_cons_self, hnil, List.isPrefixOf_iff_prefix.mp hpre, h⟩
    · exact later h

theorem Config.CodeRow.result_eq_invalid {r : Config.CodeRow} {len : Nat} (h : r.result = .invalid len) :
    r.code.length = len ∧ ∀ i, r.means = some i → i.wellFormed = false := by
  rcases r.result_cases with ⟨i, -, -, hr⟩ | ⟨hi, hr⟩ <;> rw [hr] at h <;> cases h
  exact ⟨rfl, hi⟩

/-! ### How far `Decode` looks -/

theorem length_le_longestCode {rows : List Config.CodeRow} {r : Config.CodeRow} (h : r ∈ rows) :
    r.code.length ≤ longestCode rows := by
  suffices H : ∀ n, r.code.length ≤ rows.foldl (fun n r => max n r.code.length) n from H maxLength
  induction rows with
  | nil => cases h
  | cons q rows ih =>
    intro n
    rcases List.mem_cons.mp h with rfl | h
    · exact (Nat.le_max_right n _).trans (le_foldl_codeLength rows _)
    · exact ih h _

/-- The empty sequence of bytes is short, whatever the given rows. -/
theorem lookup_of_no_bytes (rows : List Config.CodeRow) : lookup rows [] = .short := by
  induction rows with
  | nil => rfl
  | cons r rows ih =>
    rw [lookup_cons]
    split_ifs with hnil hpre
    · exact ih
    · exact absurd (List.prefix_nil.mp (List.isPrefixOf_iff_prefix.mp hpre)) hnil
    · rfl
    · exact ih

/-- A code of at most `n` bytes that differs from some bytes before either ends also differs from all that begin
with their first `n`. -/
theorem apart_of_take_prefix {code bs bs' : List Byte} {n : Nat} (hn : code.length ≤ n) (hp : bs.take n <+: bs')
    (h : ¬ code <+: bs) (h' : ¬ bs <+: code) : ¬ code <+: bs' ∧ ¬ bs' <+: code := by
  have hfirst : ¬ code <+: bs.take n := fun hc => h (hc.trans (List.take_prefix _ _))
  have hlast : ¬ bs.take n <+: code := fun hc => by
    rcases Nat.le_total bs.length n with hl | hl
    · exact h' (by rwa [List.take_of_length_le hl] at hc)
    · exact hfirst (hc.eq_of_length_le (by rw [List.length_take]; omega) ▸ List.prefix_rfl)
  exact ⟨fun hc => (List.prefix_or_prefix_of_prefix hc hp).elim hfirst hlast, fun hc => hlast (hp.trans hc)⟩

/-- `Decode` gives an instruction by the first bytes alone, no more of them than the longest code has. -/
theorem lookup_of_take_prefix {rows : List Config.CodeRow} {bs bs' : List Byte} {i : Instr} {len n : Nat}
    (h : lookup rows bs = .instr i len) (hrows : ∀ r ∈ rows, r.code.length ≤ n) (hn : maxLength ≤ n)
    (hp : bs.take n <+: bs') : lookup rows bs' = .instr i len := by
  have begins {code : List Byte} (hc : code <+: bs) (hl : code.length ≤ n) : code <+: bs' :=
    (List.prefix_take_iff.mpr ⟨hc, hl⟩).trans hp
  induction rows with
  | nil =>
    cases hd : decode bs with
    | instr j =>
      obtain ⟨rest, rfl⟩ := encode_of_decode hd
      obtain ⟨rest', rfl⟩ := begins (List.prefix_append _ _) (j.length_le.trans hn)
      rwa [lookup_nil, decode_encode_append, ← decode_encode_append j rest, ← lookup_nil]
    | unknown => rw [lookup_nil, hd] at h; cases h
    | short => rw [lookup_nil, hd] at h; cases h
  | cons r rows ih =>
    have ih := fun h => ih h fun q hq => hrows q (List.mem_cons_of_mem _ hq)
    have hl := hrows r List.mem_cons_self
    simp only [lookup_cons, List.isPrefixOf_iff_prefix] at h ⊢
    split_ifs at h with hnil hpre hshort
    · rw [if_pos hnil]
      exact ih h
    · rw [if_neg hnil, if_pos (begins hpre hl)]
      exact h
    · obtain ⟨hpre', hshort'⟩ := apart_of_take_prefix hl hp hpre hshort
      rw [if_neg hnil, if_neg hpre', if_neg hshort']
      exact ih h

/-! ### Rows that do not speak of a code -/

/-- A row that agrees with some bytes wherever a code of certain bytes stands begins with the code, or the code
with it. -/
theorem prefix_or_prefix_of_agrees {u : Nat → Bool} {code row rest : List Byte}
    (hu : ∀ n, n < code.length → u n = false) (h : agrees u row (code ++ rest) 0 = true) :
    row <+: code ∨ code <+: row := by
  have same : ∀ k c b, row[k]? = some c → code[k]? = some b → c = b := fun k c b hc hb => by
    have hk := (List.getElem?_eq_some_iff.mp hb).1
    have hsame := agrees_iff.mp h k c b hc (by rw [List.getElem?_append_left hk, hb])
    simpa [hu k hk] using hsame
  rcases Nat.le_total row.length code.length with hl | hl
  · refine .inl (List.prefix_iff_getElem?.mpr fun n hn => ?_)
    have hn' : n < code.length := hn.trans_le hl
    rw [List.getElem?_eq_getElem hn', same n _ _ (List.getElem?_eq_getElem hn) (List.getElem?_eq_getElem hn')]
  · refine .inr (List.prefix_iff_getElem?.mpr fun n hn => ?_)
    have hn' : n < row.length := hn.trans_le hl
    rw [List.getElem?_eq_getElem hn', same n _ _ (List.getElem?_eq_getElem hn') (List.getElem?_eq_getElem hn)]

/-- No given row is contested where none speaks of a code of certain bytes. -/
theorem contested_of_leaves {u : Nat → Bool} {rows : List Config.CodeRow} {code : List Byte}
    (h : Machine.Config.CodeRow.leaves rows code) (hu : ∀ n, n < code.length → u n = false) (rest : List Byte) :
    contested u rows (code ++ rest) = false := by
  induction rows with
  | nil => rfl
  | cons r rows ih =>
    have hrows := ih fun q hq => h q (List.mem_cons_of_mem _ hq)
    rw [contested]
    split_ifs with hnil hpre
    · exact hrows
    · rfl
    · have hr : agrees u r.code (code ++ rest) 0 = false := Bool.eq_false_iff.mpr fun ha => by
        rcases prefix_or_prefix_of_agrees hu ha with ⟨q, hq⟩ | ⟨q, hq⟩
        · exact h r List.mem_cons_self hnil [] ⟨q, by rw [hq, List.append_nil]⟩
        · exact h r List.mem_cons_self hnil q ⟨[], by rw [hq, List.append_nil]⟩
      rw [hr, hrows]
      rfl

end Sys2Proof

namespace Sys2Proof.Machine

/-! ### The step that a fetch leads to -/

theorem step_unknown {s : State} (he : s.env = []) (ha : s.nextAction = .instruction) (hm : s.mayFetch = true)
    (hd : s.decoded = .unknown) : step s = .refused .unknownCode := by
  rw [step_instruction he ha]
  simp only [instructionStep, fetch, hm, hd, if_true, andThen_refused]

theorem step_run {s : State} {i : Instr} {len : Nat} (he : s.env = []) (ha : s.nextAction = .instruction)
    (hm : s.mayFetch = true) (hd : s.decoded = .instr i len) (hs : s.staleWithin len = false) :
    step s = exec i (s.executing i len) := by
  rw [step_instruction he ha, instructionStep_run hm hd hs]

theorem step_invalid {s : State} {len : Nat} (he : s.env = []) (ha : s.nextAction = .instruction)
    (hm : s.mayFetch = true) (hd : s.decoded = .invalid len) (hs : s.staleWithin len = false) :
    step s = invalidInstruction (s.fetched len) := by
  rw [step_instruction he ha, instructionStep_invalid hm hd hs]

theorem State.executing_eq_fetched (s : State) (i : Instr) : s.executing i i.length = s.fetched i.length := if_pos rfl

/-- Settles O4: a fetch of unknown bytes refuses; where no given row speaks the spec's rows decide; and of all rows
only a given one says `Invalid`. -/
theorem unknownBytesAreRefused : Obligations.UnknownBytesAreRefused := by
  refine ⟨fun s => step_unknown, fun rows bs hl => ?_, fun rows bs len h => ?_⟩
  · have hspec : lookup rows bs = (decode bs).result := by simpa only [List.append_nil] using lookup_of_leaves hl []
    exact ⟨fun hd => by rw [hspec, hd]; rfl, fun i hd => by rw [hspec, hd]; rfl⟩
  · obtain ⟨r, hr, hnil, hpre, hres⟩ := row_of_lookup_invalid h
    exact ⟨r, hr, hnil, hpre, Config.CodeRow.result_eq_invalid hres⟩

/-- Settles O5: the state to execute in differs from that before in the count of draws, the two address-error flags
and, for a given row of another length than the spec's, CP:PC. -/
theorem stepRunsTheDecodedInstruction : Obligations.StepRunsTheDecodedInstruction := by
  intro s i len he ha hm hd hs
  refine ⟨step_run he ha hm hd hs, s.codeAddress_executing i len, ?_⟩
  have hsame (hlen : len = i.length) (hp : s.prefetchError len = false) (hdrawn : s.drawnWithin len = false)
      (herr : s.addrErrDetected = false) : s.executing i len = s := by
    rw [hlen] at hp hdrawn ⊢
    rw [s.executing_eq_fetched, State.fetched_eq hdrawn hp herr]
  obtain ⟨n, d, pc, cp, e, hplace⟩ := s.executing_change i len
  rw [e] at hsame ⊢
  refine ⟨rfl, rfl, rfl, ?untouched, rfl, rfl, rfl, rfl, rfl, fun hlen => ?own⟩
  case untouched => constructor <;> rfl
  case own =>
    obtain ⟨hpc, hcp⟩ := hplace hlen
    exact ⟨hpc, hcp, hsame hlen⟩

/-! ### Code in storage -/

/-- The fetch sees the bytes in storage at CP:PC, as many as `Decode` may look at. -/
theorem State.codeBytes_take_prefix {s : State} {bs : List Byte} (h : s.holdsCode bs) :
    bs.take (longestCode s.cfg.codes) <+: s.codeBytes :=
  fetchBytes_prefix (List.length_take_le _ _) fun k hk => by
    rw [Nat.zero_add, List.getElem_take]
    exact fetchByte_holdsCode h (by rw [List.length_take] at hk; omega)

/-- What `Decode` gives for bytes in storage at CP:PC it gives in the fetch. -/
theorem State.decoded_of_lookup {s : State} {bs : List Byte} {i : Instr} {len : Nat} (h : s.holdsCode bs)
    (hd : lookup s.cfg.codes bs = .instr i len) : s.decoded = .instr i len :=
  lookup_of_take_prefix hd (fun _ => length_le_longestCode) (maxLength_le_longestCode _) (State.codeBytes_take_prefix h)

theorem State.staleWithin_of_leaves {s : State} {i : Instr} (h : s.holdsCode (encode i))
    (hl : Config.CodeRow.leaves s.cfg.codes (encode i)) (hs : ∀ n, n < i.length → s.staleAt n = false) :
    s.staleWithin i.length = false := by
  obtain ⟨rest, hr⟩ := State.codeBytes_prefix h i.length_le
  exact State.staleWithin_eq_false.mpr ⟨hs, by rw [← hr]; exact contested_of_leaves hl hs rest⟩

/-- Settles O6: the fetch sees enough of the bytes in storage to give what `Decode` gives for all of them. -/
theorem stepRunsTheEncodedInstruction : Obligations.StepRunsTheEncodedInstruction := by
  refine ⟨fun s bs i len he ha hd hc hs => ?_, fun s i he ha hl hc hs => ?_⟩
  · have hpos : 0 < bs.length := List.length_pos_iff.mpr fun hnil => by
      rw [hnil, lookup_of_no_bytes] at hd
      cases hd
    exact step_run he ha (State.mayFetch_of_holdsCode hc hpos) (State.decoded_of_lookup hc hd) hs
  · rw [← s.executing_eq_fetched]
    exact step_run he ha (State.mayFetch_of_holdsCode hc i.length_pos) (State.decoded_of_holdsCode hc hl)
      (State.staleWithin_of_leaves hc hl hs)

end Sys2Proof.Machine
end

section
/-! The exception sequence from a ready stack and a ready vector entry: it completes, and what it leaves (R124 to
R131); and the sequence of an invalid instruction (R164, R172). -/

namespace Sys2Proof.Machine

/-! ### What a sequence leaves alone -/

theorem Untouched.trans {s t u : State} (h : Untouched s t) (h' : Untouched t u) : Untouched s u where
  tp := h'.tp.trans h.tp
  dp := h'.dp.trans h.dp
  ep := h'.ep.trans h.ep
  br := h'.br.trans h.br
  mds := h'.mds.trans h.mds
  rame := h'.rame.trans h.rame
  level := h'.level.trans h.level
  dte := h'.dte.trans h.dte
  mode := h'.mode.trans h.mode
  nmiPending := h'.nmiPending.trans h.nmiPending
  pending := h'.pending.trans h.pending
  dtcActive := h'.dtcActive.trans h.dtcActive
  inReset := h'.inReset.trans h.inReset
  resHigh := h'.resHigh.trans h.resHigh
  modePins := h'.modePins.trans h.modePins
  cfg := h'.cfg.trans h.cfg

theorem Untouched.region {s t : State} (h : Untouched s t) (p : Byte) (o : Word) : t.region p o = s.region p o :=
  State.region_congr h.mode h.rame h.cfg p o

theorem Untouched.busAddress {s t : State} (h : Untouched s t) (p : Byte) (o : Word) :
    t.busAddress p o = s.busAddress p o := State.busAddress_congr h.mode p o

theorem Untouched.readableAt {s t : State} (h : Untouched s t) (p : Byte) (o : Word) :
    t.readableAt p o = s.readableAt p o := by rw [State.readableAt, State.readableAt, h.region]

theorem Untouched.writableFor {s t : State} (h : Untouched s t) (sz : Size) (p : Byte) (o : Word) :
    t.writableFor sz p o = s.writableFor sz p o := by
  have hat (o : Word) : t.writableAt p o = s.writableAt p o := by rw [State.writableAt, State.writableAt, h.region]
  simp only [State.writableFor, hat]

theorem Untouched.vectorAddress {s t : State} (h : Untouched s t) (index : BitVec 6) :
    t.vectorAddress index = s.vectorAddress index := by rw [State.vectorAddress, State.vectorAddress, h.mode]

theorem Untouched.vectorReady {s t : State} (h : Untouched s t) (index : BitVec 6) :
    t.vectorReady index = s.vectorReady index := by
  simp only [State.vectorReady, State.readableFor, h.readableAt, h.vectorAddress, h.mode]

/-! ### Pushing onto a stack -/

/-- After pushes of `n` bytes: SP is `n` lower, the bytes from there up to the old SP may have changed, and all that
a sequence leaves alone is as it was. -/
structure Pushed (n : Nat) (s t : State) : Prop where
  sp : t.sp = s.sp - BitVec.ofNat 16 n
  registers : ∀ r, r ≠ .r7 → t.reg r = s.reg r
  sr : t.sr = s.sr
  cp : t.cp = s.cp
  untouched : Untouched s t
  wf : Memory.wf t.mem = true
  others : ∀ p o, (∀ k, k < n → s.busAddress p o ≠ s.busAddress s.tp (s.sp - BitVec.ofNat 16 (k + 1))) →
    t.byteAt p o = s.byteAt p o

theorem Pushed.refl {s : State} (hwf : Memory.wf s.mem = true) : Pushed 0 s s where
  sp := (BitVec.sub_zero s.sp).symm
  registers _ _ := rfl
  sr := rfl
  cp := rfl
  untouched := by constructor <;> rfl
  wf := hwf
  others _ _ _ := rfl

theorem Pushed.tick {n : Nat} {s t : State} (h : Pushed n s t) : Pushed n s t.tick where
  sp := h.sp
  registers := h.registers
  sr := h.sr
  cp := h.cp
  untouched := h.untouched.trans (by constructor <;> rfl)
  wf := h.wf
  others := h.others

theorem Pushed.sp_sub {n : Nat} {s t : State} (h : Pushed n s t) (k : Nat) :
    t.sp - BitVec.ofNat 16 k = s.sp - BitVec.ofNat 16 (n + k) := by
  rw [h.sp]
  bv_omega

theorem Pushed.trans {n m : Nat} {s t u : State} (h : Pushed n s t) (h' : Pushed m t u) : Pushed (n + m) s u where
  sp := h'.sp.trans (h.sp_sub m)
  registers r hr := (h'.registers r hr).trans (h.registers r hr)
  sr := h'.sr.trans h.sr
  cp := h'.cp.trans h.cp
  untouched := h.untouched.trans h'.untouched
  wf := h'.wf
  others p o hout := by
    rw [h'.others p o fun k hk => ?_, h.others p o fun k hk => hout k (by omega)]
    rw [h.untouched.busAddress, h.untouched.busAddress, h.untouched.tp, h.sp_sub]
    exact hout (n + k) (by omega)

/-- A byte at the old SP or above, as far as the page goes around, is none of those pushed. -/
theorem Pushed.byteAt_above {n : Nat} {s t : State} (h : Pushed n s t) (k : Nat) (hk : n + k < 65536) :
    t.byteAt t.tp (t.sp + BitVec.ofNat 16 (n + k)) = s.byteAt s.tp (s.sp + BitVec.ofNat 16 k) := by
  have hsp : t.sp + BitVec.ofNat 16 (n + k) = s.sp + BitVec.ofNat 16 k := by
    rw [h.sp]
    bv_omega
  rw [hsp, h.untouched.tp]
  refine h.others _ _ fun j hj => ?_
  rw [ne_eq, State.busAddress_inj]
  bv_omega

theorem Pushed.wordAt_above {n : Nat} {s t : State} (h : Pushed n s t) (k : Nat) (hk : n + k + 1 < 65536) :
    t.wordAt t.tp (t.sp + BitVec.ofNat 16 (n + k)) = s.wordAt s.tp (s.sp + BitVec.ofNat 16 k) := by
  have hnext (sp : Word) (k : Nat) : sp + BitVec.ofNat 16 k + 1 = sp + BitVec.ofNat 16 (k + 1) := by bv_omega
  rw [State.wordAt, State.wordAt, hnext, hnext, h.byteAt_above k (by omega), Nat.add_assoc, h.byteAt_above (k + 1) hk]

/-- A word stored in storage that can be written is two bytes written there, and no other change. -/
theorem WordStored.eq_writeCells {p : Byte} {o v : Word} {s t : State} (h : WordStored p o v s t)
    (hwf : Memory.wf s.mem = true) (hw : s.writableFor .word p o = true) :
    ∃ k k', t = (s.writeCell k (upperByte v)).writeCell k' (lowerByte v) := by
  obtain ⟨k, k', -, -, -, hs, -⟩ := storeWord_ready v hwf hw
  rw [h.stored] at hs
  cases hs
  exact ⟨k, k', rfl⟩

/-- A push onto a stack that can be written there. -/
theorem pushWord_pushed {s : State} (v : Word) (hwf : Memory.wf s.mem = true)
    (h : s.writableFor .word s.tp (s.sp - 2) = true) :
    ∃ t, pushWord v s = .next t ∧ Pushed 2 s t ∧ t.wordAt t.tp t.sp = v := by
  obtain ⟨t, hpush, ht⟩ := pushWord_stored v hwf h
  obtain ⟨k, k', e⟩ := ht.eq_writeCells hwf h
  have hothers : ∀ p o, (∀ k, k < 2 → s.busAddress p o ≠ s.busAddress s.tp (s.sp - BitVec.ofNat 16 (k + 1))) →
      t.byteAt p o = s.byteAt p o := fun p o hout => by
    have hlow : s.sp - BitVec.ofNat 16 (0 + 1) = s.sp - 2 + 1 := by bv_omega
    exact ht.others p o ⟨hout 1 (by omega), fun _ => hlow ▸ hout 0 (by omega)⟩
  have hword := ht.wordAt
  refine ⟨t, hpush, ⟨?sp, ?registers, ?sr, ?cp, ?untouched, ?wf, hothers⟩, ?_⟩
  all_goals subst e
  case registers => exact fun r hr => Regs.get_set_other _ _ hr
  case untouched => constructor <;> rfl
  case wf => exact memWrite_wf _ _ (memWrite_wf _ _ hwf)
  case sp | sr | cp => rfl
  exact hword

/-- A word of the frame of a ready stack can be written. -/
theorem State.writableFor_of_stackReady {s : State} (h : s.stackReady = true) {n : Nat} (hn : 2 * n + 2 ≤ s.frameBytes) :
    s.writableFor .word s.tp (s.sp - BitVec.ofNat 16 (2 * n + 2)) = true := by
  simp only [State.stackReady, Bool.and_eq_true, Bool.not_eq_true', List.all_eq_true, List.mem_range] at h
  obtain ⟨heven, hbytes⟩ := h
  refine State.writableFor_word_iff.mpr ⟨?_, hbytes (2 * n + 1) (by omega), ?_⟩
  · rw [isOdd_eq_false_iff] at heven ⊢
    bv_omega
  · rw [show s.sp - BitVec.ofNat 16 (2 * n + 2) + 1 = s.sp - BitVec.ofNat 16 (2 * n + 1) by bv_omega]
    exact hbytes (2 * n) (by omega)

/-- The next push of a sequence from a ready stack, of which `n` words are pushed already. -/
theorem Pushed.push {n : Nat} {s t : State} (h : Pushed (2 * n) s t) (hready : s.stackReady = true)
    (hn : 2 * n + 2 ≤ s.frameBytes) (v : Word) :
    ∃ u, pushWord v t = .next u ∧ Pushed 2 t u ∧ u.wordAt u.tp u.sp = v := by
  refine pushWord_pushed v h.wf ?_
  rw [h.untouched.writableFor, h.untouched.tp, show t.sp - 2 = _ from h.sp_sub 2]
  exact State.writableFor_of_stackReady hready hn

/-! ### The parts of a sequence -/

/-- Saving the context on a ready stack completes and leaves the frame (R125). -/
theorem saveContext_framed {s : State} (pc : Word) (cp : Byte) (hwf : Memory.wf s.mem = true)
    (hready : s.stackReady = true) :
    ∃ t, saveContext pc cp s = .next t ∧ Pushed s.frameBytes s t ∧ Framed pc cp s.sr s t := by
  have h0 : Pushed 0 s s := .refl hwf
  cases hcpu : s.mode.cpu with
  | minimum =>
    have hbytes : s.frameBytes = 4 := by rw [State.frameBytes, hcpu]
    obtain ⟨t1, e1, p1, w1⟩ := h0.push (n := 0) hready (by omega) pc
    obtain ⟨t2, e2, p2, w2⟩ := p1.push (n := 1) hready (by omega) s.sr
    have hall : Pushed 4 s t2 := p1.trans p2
    refine ⟨t2, ?_, hbytes ▸ hall, fun _ => ?_, fun h => ?_⟩
    · simp only [saveContext, hcpu, e1, andThen_next, e2]
    · rw [← hall.untouched.tp]
      refine ⟨hall.sp, w2, (p2.wordAt_above 0 (by omega)).trans ?_⟩
      rwa [BitVec.add_zero]
    · rw [hcpu] at h
      cases h
  | maximum =>
    have hbytes : s.frameBytes = 6 := by rw [State.frameBytes, hcpu]
    obtain ⟨t1, e1, p1, w1⟩ := h0.push (n := 0) hready (by omega) pc
    have w1 : t1.tick.wordAt t1.tick.tp t1.tick.sp = pc := w1
    obtain ⟨t2, e2, p2, w2⟩ := p1.tick.push (n := 1) hready (by omega) (lowerByte (t1.drawn .dontCare) ++ cp)
    have hframe2 : Pushed 4 s t2 := p1.tick.trans p2
    obtain ⟨t3, e3, p3, w3⟩ := hframe2.push (n := 2) hready (by omega) s.sr
    have hall : Pushed 6 s t3 := hframe2.trans p3
    have hcp : t2.byteAt t2.tp (t2.sp + 1) = cp := by
      have := congrArg lowerByte w2
      rwa [State.wordAt, lowerByte_wordOfBytes, lowerByte, extractLsb'_append_low] at this
    refine ⟨t3, ?_, hbytes ▸ hall, fun h => ?_, fun _ => ?_⟩
    · simp only [saveContext, hcpu, e1, andThen_next, e2, e3]
    · rw [hcpu] at h
      cases h
    · rw [← hall.untouched.tp]
      refine ⟨hall.sp, w3, (p3.byteAt_above 1 (by omega)).trans hcp,
        ((p2.trans p3).wordAt_above 0 (by omega)).trans ?_⟩
      rwa [BitVec.add_zero]

/-- T is cleared, the mask level is as given or as before, and every other bit is as it was (R126). -/
theorem masked_enterSr (newMask : Option (BitVec 3)) (sr : Word) : Masked newMask sr (enterSr newMask sr) := by
  cases newMask with
  | none =>
    refine ⟨traceOf_withTrace sr false, maskOf_withTrace sr false, fun i h15 _ _ _ => ?_⟩
    rw [enterSr, getLsbD_withTrace, if_neg h15]
  | some level =>
    refine ⟨?_, maskOf_withMask _ level, fun i h15 h8 h9 h10 => ?_⟩
    · rw [enterSr, traceOf_withMask, traceOf_withTrace]
    · rw [enterSr, getLsbD_withMask, if_neg (by omega), getLsbD_withTrace, if_neg h15]

/-- From a ready stack and a ready vector entry the sequence completes, and this is all that it does (R124 to
R131). -/
theorem exceptionSequence_entered {s : State} {index : BitVec 6} (pc : Word) (cp : Byte) (newMask : Option (BitVec 3))
    (hwf : Memory.wf s.mem = true) (hstack : s.stackReady = true) (hvector : s.vectorReady index = true) :
    ∃ t, exceptionSequence index pc cp newMask s = .next t ∧ Entered index pc cp newMask s t := by
  obtain ⟨u, hu, hp, hf⟩ := saveContext_framed pc cp hwf hstack
  have hready : (u.setSr (enterSr newMask u.sr)).vectorReady index = true :=
    (hp.untouched.vectorReady index).trans hvector
  obtain ⟨pc', cp', hv, hmin, hmax⟩ := loadVector_ready hready
  refine ⟨_, andThen_eq_next.mpr ⟨u, hu, hv⟩, ⟨hf.minimum, hf.maximum⟩, ⟨fun h => ?_, fun h => ?_⟩, ?_, hp.registers,
    hp.others, hp.untouched.trans (by constructor <;> rfl)⟩
  · obtain ⟨hpc, hcp⟩ := hmin ((congrArg (·.cpu) hp.untouched.mode).trans h)
    rw [← hp.untouched.vectorAddress, ← hp.cp]
    exact ⟨hpc, hcp⟩
  · rw [← hp.untouched.vectorAddress]
    exact hmax ((congrArg (·.cpu) hp.untouched.mode).trans h)
  · rw [← hp.sr]
    exact masked_enterSr newMask u.sr

/-! ### The sequence of an invalid instruction -/

/-- A sequence does not look at the count of draws or the address-error flags, nor does the end of the instruction
change what it left. -/
theorem Entered.finish {index : BitVec 6} {pc : Word} {cp : Byte} {m : Option (BitVec 3)} {s t : State} {n : Nat}
    {pending detected : Bool} (h : Entered index pc cp m (({ s with draws := n } : State).withErrors pending detected) t)
    (five : Bool) : Entered index pc cp m s (t.finish five) where
  frame := ⟨h.frame.minimum, h.frame.maximum⟩
  vector := ⟨h.vector.minimum, h.vector.maximum⟩
  status := h.status
  registers := h.registers
  memory := h.memory
  untouched := Untouched.trans (by constructor <;> rfl) (h.untouched.trans (by constructor <;> rfl))

/-- The invalid-instruction sequence, in a state that may differ from that before the fetch in the count of draws and
the address-error flags (R164, R172). -/
theorem invalidInstruction_entered {s : State} {n : Nat} {pending detected : Bool} (hwf : Memory.wf s.mem = true)
    (hstack : s.stackReady = true) (hvector : s.vectorReady 2 = true) :
    ∃ t pc, invalidInstruction (({ s with draws := n } : State).withErrors pending detected) = .next t ∧
      Entered 2 pc s.cp none s t ∧ t.lastWasInstruction = true ∧ t.addrErrPending = pending ∧
      (detected = false → t.defer = false) := by
  obtain ⟨t, ht, he⟩ := exceptionSequence_entered
    (s := ({ s with draws := n + 1 } : State).withErrors pending detected)
    ((({ s with draws := n } : State).withErrors pending detected).drawn .invalidPc) s.cp none hwf hstack hvector
  obtain ⟨c, sp, pc', cp', e, -⟩ := exceptionSequence_kept ht
  refine ⟨t.finish false, _, andThen_eq_next.mpr ⟨t, ht, rfl⟩, he.finish false, rfl, ?_, fun hd => ?_⟩
  · rw [e]
    rfl
  · rw [State.finish_defer, e, hd]
    rfl

/-- An instruction with an illegal control register is the invalid-instruction sequence and nothing else (R80). -/
theorem exec_of_not_wellFormed {i : Instr} (h : i.wellFormed = false) (s : State) : exec i s = invalidInstruction s := by
  have noControl (hc : i.control = none) : exec i s = invalidInstruction s := by
    rw [Instr.wellFormed, hc] at h
    cases h
  have illegal {c : ControlReg} {sz : Size} (hc : i.control = some (c, sz)) : ¬ c.fits sz = true := by
    rw [← wellFormed_of_control hc, h]
    exact Bool.false_ne_true
  cases isRow i with
  | load sz ea d hz => exact noControl (by cases ea <;> rfl)
  | store sz ea r hi => exact noControl (by cases ea <;> cases hi <;> rfl)
  | add sz ea d hz => exact noControl (by cases ea <;> rfl)
  | divide sz ea d hz => exact noControl (by cases ea <;> rfl)
  | ldc sz ea c hz => rw [exec_ldcRow c s hz, loadControl, if_neg (illegal (control_ldcRow c hz))]
  | combine sz n c f hx hc _ => rw [hx, combineControl, if_neg (illegal hc)]
  | trapa v => exact noControl rfl
  | trapVs => exact noControl rfl
  | rte => exact noControl rfl
  | movI v d => exact noControl rfl
  | nop => exact noControl rfl

theorem State.fetched_addrErrDetected (s : State) (len : Nat) : (s.fetched len).addrErrDetected = s.prefetchError len := by
  unfold State.fetched
  cases s.prefetchError len <;> rfl

/-- Settles O40: an illegal instruction is the sequence in the state as it stands, an `Invalid` code in the state that
the fetch leaves. -/
theorem invalidInstructionTakesItsVector : Obligations.InvalidInstructionTakesItsVector := by
  refine ⟨fun i s hi hwf hstack hvector hdet => ?_, fun s len henv ha hm hd hs hwf hstack hvector => ?_⟩
  · rw [exec_of_not_wellFormed hi]
    obtain ⟨t, pc, ht, he, -, hpend, hdefer⟩ := invalidInstruction_entered (n := s.draws) (pending := s.addrErrPending)
      (detected := s.addrErrDetected) hwf hstack hvector
    exact ⟨t, pc, ht, he, hdefer hdet, hpend⟩
  · obtain ⟨n, d, e⟩ := s.fetched_change len
    have hdet : d = s.prefetchError len := by
      rw [← s.fetched_addrErrDetected, e]
      rfl
    obtain ⟨t, pc, ht, he, hlast, hpend, hdefer⟩ := invalidInstruction_entered (n := n)
      (pending := s.prefetchError len || s.addrErrPending) (detected := d) hwf hstack hvector
    refine ⟨t, pc, ?_, he, hlast, fun hp => ⟨hdefer (hdet.trans hp), ?_⟩⟩
    · rw [step_invalid henv ha hm hd hs, e, ht]
    · rw [hpend, hp, Bool.false_or]

end Sys2Proof.Machine
end

section
/-! The instruction exceptions that take their sequence whatever the operands: TRAPA, and TRAP/VS by V (R90, R91). -/

namespace Sys2Proof.Machine

/-- In both modes the offset of the next instruction address is PC plus the length (R170). -/
theorem State.codeAddress_snd (s : State) (n : Nat) : (s.codeAddress n).2 = s.pc + BitVec.ofNat 16 n := by
  unfold State.codeAddress
  split <;> rfl

/-- A trap from a ready stack and a ready vector entry is its sequence, pushing the next instruction address. -/
theorem trap_entered {s : State} {index : BitVec 6} (n : Nat) (hwf : Memory.wf s.mem = true)
    (hstack : s.stackReady = true) (hvector : s.vectorReady index = true) (hdet : s.addrErrDetected = false) :
    ∃ t, trap index n s = .next t ∧
      Entered index (s.pc + BitVec.ofNat 16 n) (s.codeAddress n).1 none s t ∧ t.defer = false ∧
      t.addrErrPending = s.addrErrPending := by
  obtain ⟨t, ht, he⟩ := exceptionSequence_entered (s.codeAddress n).2 (s.codeAddress n).1 none hwf hstack hvector
  obtain ⟨c, sp, pc, cp, e, -⟩ := exceptionSequence_kept ht
  refine ⟨t.finish false, andThen_eq_next.mpr ⟨t, ht, rfl⟩, ?_, ?_, ?_⟩
  · rw [← s.codeAddress_snd]
    exact Entered.finish (n := s.draws) (pending := s.addrErrPending) (detected := s.addrErrDetected) he false
  · rw [State.finish_defer, show t.addrErrDetected = false by rw [e]; exact hdet]
    rfl
  · rw [e]
    rfl

/-- Settles O55: TRAPA is a trap of two bytes. -/
theorem trapaTakesItsVector : Obligations.TrapaTakesItsVector :=
  fun _ _ hwf hstack hvector hdet => trap_entered 2 hwf hstack hvector hdet

/-- Settles O56: with V = 1 a trap of one byte, whose sequence leaves V, and with V = 0 no more than its end. -/
theorem trapVsTrapsOnOverflowAlone : Obligations.TrapVsTrapsOnOverflowAlone := by
  refine ⟨fun s hv hwf hstack hvector hdet => ?_, fun s hv hdet => ?_⟩
  · obtain ⟨t, ht, he, hdefer, hpend⟩ := trap_entered 1 hwf hstack hvector hdet
    refine ⟨t, (if_pos hv).trans ht, he, ?_, hdefer, hpend⟩
    exact (he.status.rest 1 (by omega) (by omega) (by omega) (by omega)).trans hv
  · refine ⟨s.complete false 1, if_neg (by rw [hv]; exact Bool.false_ne_true),
      State.complete_advanced false 1 rfl rfl rfl, rfl, rfl, rfl, ?_, rfl, rfl, by constructor <;> rfl⟩
    rw [State.complete_defer, hdet]
    rfl

end Sys2Proof.Machine
end

section
/-! The bytes that a sequence may change, wherever its stack lies (R124): also where a frame in the register field
turns RAME, by which the on-chip RAM area is one memory or another. -/

namespace Sys2Proof.Machine

/-- From `s` to `t` stores were made to some addresses: RAME can have changed only if RAMCR is one of them, and if it
is as it was, so is every byte of memory at other addresses. -/
structure StoresWithin (addresses : Set Nat) (s t : State) : Prop where
  mode : t.mode = s.mode
  cfg : t.cfg = s.cfg
  rame : fieldAddress s.cfg.registers.ramcr ∉ addresses → t.rame = s.rame
  bytes : t.rame = s.rame → ∀ p o, s.busAddress p o ∉ addresses → t.byteAt p o = s.byteAt p o

theorem StoresWithin.refl (s : State) : StoresWithin ∅ s s := ⟨rfl, rfl, fun _ => rfl, fun _ _ _ _ => rfl⟩

/-- No address is stored to twice, so RAMCR is not, and RAME that is the same in the end was the same between. -/
theorem StoresWithin.trans {A B : Set Nat} {s t u : State} (h : StoresWithin A s t) (h' : StoresWithin B t u)
    (hd : Disjoint A B) : StoresWithin (A ∪ B) s u where
  mode := h'.mode.trans h.mode
  cfg := h'.cfg.trans h.cfg
  rame hn := by
    rw [Set.mem_union, not_or] at hn
    exact (h'.rame (h.cfg ▸ hn.2)).trans (h.rame hn.1)
  bytes hr p o hn := by
    have ht : t.rame = s.rame := by
      by_cases hB : fieldAddress s.cfg.registers.ramcr ∈ B
      · exact h.rame (hd.notMem_of_mem_right hB)
      · exact (h'.rame (h.cfg ▸ hB)).symm.trans hr
    rw [Set.mem_union, not_or] at hn
    exact (h'.bytes (hr.trans ht.symm) p o (State.busAddress_congr h.mode p o ▸ hn.2)).trans (h.bytes ht p o hn.1)

theorem storeByte_within {p : Byte} {o : Word} {v : Byte} {s : State} {w : Stored}
    (h : storeByte p o v s = .next w) : StoresWithin {s.busAddress p o} s w.state := by
  obtain ⟨c, a, d, e, -⟩ := (storeByte_kept h).change
  have hm : w.state.mode = s.mode := by rw [e]; rfl
  have hc : w.state.cfg = s.cfg := by rw [e]; rfl
  have hwrite : busAccess (.write p o v) s = .next w.state := andThen_eq_next.mpr ⟨w, h, rfl⟩
  refine ⟨hm, hc, fun hn => ?_, fun hr p' o' hn => ?_⟩
  · rw [(storeByte_controls h).1, if_neg (Ne.symm hn)]
  · exact (busAccess_byteAt hwrite (State.region_congr hm hr hc p' o')).1 (if_neg (Ne.symm hn))

theorem storeWord_within {p : Byte} {o v : Word} {s : State} {w : Stored} (h : storeWord p o v s = .next w)
    (hm : w.made = true) : StoresWithin {s.busAddress p o, s.busAddress p (o + 1)} s w.state := by
  unfold storeWord at h
  split at h
  · cases h
    cases hm
  · obtain ⟨hi, h1, h⟩ := andThen_eq_next.mp h
    obtain ⟨lo, h2, h⟩ := andThen_eq_next.mp h
    cases h
    have w1 := storeByte_within h1
    have w2 := storeByte_within h2
    rw [State.busAddress_congr w1.mode] at w2
    exact w1.trans w2 (Set.disjoint_singleton.mpr (s.busAddress_ne_succ p o))

/-! ### Pushes -/

/-- The addresses of the bytes below SP, from the `i`-th up to but not including the `j`-th. -/
def State.stackBytes (s : State) (i j : Nat) : Set Nat :=
  {a | ∃ k, i ≤ k ∧ k < j ∧ a = s.busAddress s.tp (s.sp - BitVec.ofNat 16 (k + 1))}

theorem State.stackBytes_union (s : State) {i j k : Nat} (hij : i ≤ j) (hjk : j ≤ k) :
    s.stackBytes i j ∪ s.stackBytes j k = s.stackBytes i k := by
  ext a
  constructor
  · rintro (⟨n, h1, h2, e⟩ | ⟨n, h1, h2, e⟩)
    · exact ⟨n, h1, by omega, e⟩
    · exact ⟨n, by omega, h2, e⟩
  · rintro ⟨n, h1, h2, e⟩
    by_cases hn : n < j
    · exact .inl ⟨n, h1, hn, e⟩
    · exact .inr ⟨n, by omega, h2, e⟩

/-- The bytes below SP lie at different addresses, as far as the page goes around. -/
theorem State.stackBytes_disjoint (s : State) {i j k : Nat} (hk : k ≤ 65536) :
    Disjoint (s.stackBytes i j) (s.stackBytes j k) := by
  refine Set.disjoint_left.mpr ?_
  rintro _ ⟨n, -, h1, rfl⟩ ⟨m, h2, h3, e⟩
  rw [State.busAddress_inj] at e
  bv_omega

/-- Two bytes below SP are those of a word. -/
theorem State.stackBytes_word (s : State) (n : Nat) :
    s.stackBytes n (n + 2) = {s.busAddress s.tp (s.sp - BitVec.ofNat 16 (n + 2)),
      s.busAddress s.tp (s.sp - BitVec.ofNat 16 (n + 2) + 1)} := by
  rw [show s.sp - BitVec.ofNat 16 (n + 2) + 1 = s.sp - BitVec.ofNat 16 (n + 1) by bv_omega]
  ext a
  constructor
  · rintro ⟨k, h1, h2, rfl⟩
    obtain rfl | rfl : k = n ∨ k = n + 1 := by omega
    · exact .inr rfl
    · exact .inl rfl
  · rintro (rfl | rfl)
    · exact ⟨n + 1, by omega, by omega, rfl⟩
    · exact ⟨n, by omega, by omega, rfl⟩

/-- On the way from `s` to `t`, `n` bytes were pushed. -/
structure PushedWithin (n : Nat) (s t : State) : Prop where
  sp : t.sp = s.sp - BitVec.ofNat 16 n
  tp : t.tp = s.tp
  stores : StoresWithin (s.stackBytes 0 n) s t

theorem PushedWithin.refl (s : State) : PushedWithin 0 s s where
  sp := (BitVec.sub_zero s.sp).symm
  tp := rfl
  stores := by
    rw [show s.stackBytes 0 0 = ∅ from Set.eq_empty_of_forall_notMem fun _ ⟨_, _, hk, _⟩ => Nat.not_lt_zero _ hk]
    exact .refl s

theorem PushedWithin.tick {n : Nat} {s t : State} (h : PushedWithin n s t) : PushedWithin n s t.tick :=
  ⟨h.sp, h.tp, h.stores.mode, h.stores.cfg, h.stores.rame, h.stores.bytes⟩

/-- The next push stores to the next two bytes down. -/
theorem PushedWithin.push {n : Nat} {s t u : State} {v : Word} (h : PushedWithin n s t)
    (hpush : pushWord v t = .next u) (hn : n + 2 ≤ 65536) : PushedWithin (n + 2) s u := by
  have hsp : t.sp - 2 = s.sp - BitVec.ofNat 16 (n + 2) := by
    rw [h.sp]
    bv_omega
  obtain ⟨c, e, -⟩ := pushWord_kept hpush
  obtain ⟨w, hw, hmade⟩ := andThen_eq_next.mp hpush
  split at hmade
  case isFalse => cases hmade
  case isTrue hm =>
    cases hmade
    have hstored : StoresWithin {t.busAddress t.tp (t.sp - 2), t.busAddress t.tp (t.sp - 2 + 1)} t w.state := by
      obtain ⟨mode, cfg, rame, bytes⟩ := storeWord_within hw hm
      exact ⟨mode, cfg, rame, bytes⟩
    rw [State.busAddress_congr h.stores.mode, State.busAddress_congr h.stores.mode, h.tp, hsp,
      ← s.stackBytes_word] at hstored
    refine ⟨?_, ?_, ?_⟩
    · rw [e, ← hsp]
      rfl
    · rw [e]
      exact h.tp
    · rw [← s.stackBytes_union (Nat.zero_le n) (Nat.le_add_right n 2)]
      exact h.stores.trans hstored (s.stackBytes_disjoint hn)

theorem saveContext_within {pc : Word} {cp : Byte} {s t : State} (h : saveContext pc cp s = .next t) :
    PushedWithin s.frameBytes s t := by
  cases hcpu : s.mode.cpu with
  | minimum =>
    rw [show s.frameBytes = 4 by rw [State.frameBytes, hcpu]]
    simp only [saveContext, hcpu] at h
    obtain ⟨t1, h1, h⟩ := andThen_eq_next.mp h
    exact ((PushedWithin.refl s).push h1 (by omega)).push h (by omega)
  | maximum =>
    rw [show s.frameBytes = 6 by rw [State.frameBytes, hcpu]]
    simp only [saveContext, hcpu] at h
    obtain ⟨t1, h1, h⟩ := andThen_eq_next.mp h
    obtain ⟨t2, h2, h⟩ := andThen_eq_next.mp h
    exact (((PushedWithin.refl s).push h1 (by omega)).tick.push h2 (by omega)).push h (by omega)

/-- A sequence changes no byte of memory but those of its frame (R124), where RAME is as before. -/
theorem exceptionSequence_byteAt {index : BitVec 6} {pc : Word} {cp : Byte} {m : Option (BitVec 3)} {s t : State}
    (h : exceptionSequence index pc cp m s = .next t) (hr : t.rame = s.rame) {p : Byte} {o : Word}
    (hout : ∀ k, k < s.frameBytes → s.busAddress p o ≠ s.busAddress s.tp (s.sp - BitVec.ofNat 16 (k + 1))) :
    t.byteAt p o = s.byteAt p o := by
  obtain ⟨u, hu, h⟩ := andThen_eq_next.mp h
  obtain ⟨n, pc', cp', rfl, -⟩ := loadVector_kept h
  exact (saveContext_within hu).stores.bytes hr p o fun ⟨k, _, hk, e⟩ => hout k hk e

/-- The frame of a sequence lies from the new SP up. -/
theorem exceptionSequence_byteAt_above {index : BitVec 6} {pc : Word} {cp : Byte} {m : Option (BitVec 3)}
    {s t : State} (h : exceptionSequence index pc cp m s = .next t) (hr : t.rame = s.rame) {p : Byte} {o : Word}
    (hout : ∀ k, k < s.frameBytes → s.busAddress p o ≠ s.busAddress s.tp (t.sp + BitVec.ofNat 16 k)) :
    t.byteAt p o = s.byteAt p o := by
  refine exceptionSequence_byteAt h hr fun k hk => ?_
  have hsp : t.sp = s.sp - BitVec.ofNat 16 s.frameBytes := by
    obtain ⟨c, sp, pc', cp', rfl, -, -, hsp, -⟩ := exceptionSequence_kept h
    exact hsp
  rw [show s.sp - BitVec.ofNat 16 (k + 1) = t.sp + BitVec.ofNat 16 (s.frameBytes - 1 - k) by bv_omega]
  exact hout _ (by omega)

end Sys2Proof.Machine
end

section
/-! DIVXU (R92, R93): the quotient of a nonzero divisor, the sequence of a zero one, and what it leaves unchanged. -/

namespace Sys2Proof.Machine

/-! ### The condition codes -/

@[simp] theorem negativeOf_withFlags (sr : Word) (n z v c : Bool) : negativeOf (withFlags sr n z v c) = n :=
  getLsbD_withFlags sr n z v c Config.negativeBit

@[simp] theorem zeroOf_withFlags (sr : Word) (n z v c : Bool) : zeroOf (withFlags sr n z v c) = z :=
  getLsbD_withFlags sr n z v c Config.zeroBit

@[simp] theorem overflowOf_withFlags (sr : Word) (n z v c : Bool) : overflowOf (withFlags sr n z v c) = v :=
  getLsbD_withFlags sr n z v c Config.overflowBit

@[simp] theorem carryOf_withFlags (sr : Word) (n z v c : Bool) : carryOf (withFlags sr n z v c) = c :=
  getLsbD_withFlags sr n z v c Config.carryBit

/-- Every other bit is as it was. -/
theorem getLsbD_withFlags_above (sr : Word) (n z v c : Bool) {i : Nat} (hi : 4 ≤ i) :
    (withFlags sr n z v c).getLsbD i = sr.getLsbD i := by
  rw [getLsbD_withFlags, if_neg (by omega), if_neg (by omega), if_neg (by omega), if_neg (by omega)]

theorem getLsbD_withFlagBits_above (sr : Word) (b : BitVec 4) {i : Nat} (hi : 4 ≤ i) :
    (withFlagBits sr b).getLsbD i = sr.getLsbD i := getLsbD_withFlags_above sr _ _ _ _ hi

@[simp] theorem traceOf_withFlagBits (sr : Word) (b : BitVec 4) : traceOf (withFlagBits sr b) = traceOf sr :=
  getLsbD_withFlagBits_above sr b (by decide)

theorem maskOf_congr {sr sr' : Word} (h : ∀ i, 4 ≤ i → sr'.getLsbD i = sr.getLsbD i) : maskOf sr' = maskOf sr := by
  ext i hi
  simp only [maskOf, Config.maskBit, BitVec.getElem_extractLsb']
  exact h _ (by omega)

@[simp] theorem maskOf_withFlagBits (sr : Word) (b : BitVec 4) : maskOf (withFlagBits sr b) = maskOf sr :=
  maskOf_congr fun _ => getLsbD_withFlagBits_above sr b

/-! ### What the operand form and the result leave of the state -/

section

variable (s : State)

@[simp] theorem State.modify_pc (sz : Size) (ea : Ea) : (s.modify sz ea).pc = s.pc := by
  cases ea <;> rfl
@[simp] theorem State.modify_cp (sz : Size) (ea : Ea) : (s.modify sz ea).cp = s.cp := by
  cases ea <;> rfl
@[simp] theorem State.modify_sr (sz : Size) (ea : Ea) : (s.modify sz ea).sr = s.sr := by
  cases ea <;> rfl
@[simp] theorem State.modify_mode (sz : Size) (ea : Ea) : (s.modify sz ea).mode = s.mode := by
  cases ea <;> rfl
@[simp] theorem State.modify_mem (sz : Size) (ea : Ea) : (s.modify sz ea).mem = s.mem := by
  cases ea <;> rfl
@[simp] theorem State.modify_addrErrPending (sz : Size) (ea : Ea) :
    (s.modify sz ea).addrErrPending = s.addrErrPending := by
  cases ea <;> rfl
@[simp] theorem State.modify_addrErrDetected (sz : Size) (ea : Ea) :
    (s.modify sz ea).addrErrDetected = s.addrErrDetected := by
  cases ea <;> rfl

@[simp] theorem State.setDivResult_pc (sz : Size) (d : Reg) (r : Config.DivResult) :
    (s.setDivResult sz d r).pc = s.pc := by
  cases sz <;> rfl
@[simp] theorem State.setDivResult_cp (sz : Size) (d : Reg) (r : Config.DivResult) :
    (s.setDivResult sz d r).cp = s.cp := by
  cases sz <;> rfl
@[simp] theorem State.setDivResult_sr (sz : Size) (d : Reg) (r : Config.DivResult) :
    (s.setDivResult sz d r).sr = s.sr := by
  cases sz <;> rfl
@[simp] theorem State.setDivResult_mode (sz : Size) (d : Reg) (r : Config.DivResult) :
    (s.setDivResult sz d r).mode = s.mode := by
  cases sz <;> rfl
@[simp] theorem State.setDivResult_mem (sz : Size) (d : Reg) (r : Config.DivResult) :
    (s.setDivResult sz d r).mem = s.mem := by
  cases sz <;> rfl
@[simp] theorem State.setDivResult_addrErrPending (sz : Size) (d : Reg) (r : Config.DivResult) :
    (s.setDivResult sz d r).addrErrPending = s.addrErrPending := by
  cases sz <;> rfl
@[simp] theorem State.setDivResult_addrErrDetected (sz : Size) (d : Reg) (r : Config.DivResult) :
    (s.setDivResult sz d r).addrErrDetected = s.addrErrDetected := by
  cases sz <;> rfl

end

/-! ### The divisor -/

theorem State.modify_draws (s : State) (sz : Size) (ea : Ea) (n : Nat) :
    ({ s with draws := n } : State).modify sz ea = { s.modify sz ea with draws := n } := by
  cases ea <;> rfl

/-- An operand read to a value leaves the form's change of its address register, and values drawn. -/
theorem readOperand_some {sz : Size} {ea : Ea} {s g : State} {v : Word}
    (h : readOperand sz ea s = .next ⟨some v, g⟩) : ∃ n, g = { s.modify sz ea with draws := n } := by
  unfold readOperand at h
  split at h
  · next r hp =>
    cases h
    cases ea <;> cases hp
    exact ⟨s.draws, rfl⟩
  · next w hp =>
    cases h
    cases ea <;> cases hp <;> exact ⟨s.draws, rfl⟩
  · obtain ⟨l, hl, h⟩ := andThen_eq_next.mp h
    obtain ⟨n, a, d, e, hs, -⟩ := (load_kept hl).change
    split at h <;> cases h
    next hw =>
    obtain ⟨rfl, rfl⟩ := hs (by rw [hw]; rfl)
    exact ⟨n, by rw [e]; exact s.modify_draws sz ea n⟩

/-! ### A nonzero divisor -/

theorem State.reg_setDivResult (s : State) (sz : Size) (d : Reg) (r : Config.DivResult) :
    (s.setDivResult sz d r).reg d = r.rd := by
  cases sz <;> simp [State.setDivResult]

theorem State.reg_setDivResult_pair (s : State) {d : Reg} (r : Config.DivResult) (h : pairOf d ≠ d) :
    (s.setDivResult .word d r).reg (pairOf d) = r.rdNext := by
  simp [State.setDivResult, h]

theorem State.reg_setDivResult_other (s : State) {sz : Size} {d q : Reg} (r : Config.DivResult) (h : q ≠ d)
    (h' : sz = .word → q ≠ pairOf d) : (s.setDivResult sz d r).reg q = s.reg q := by
  obtain ⟨rf, e, hrf⟩ := s.setDivResult_change sz d r
  rw [e]
  exact hrf q h h'

/-- A division by a nonzero divisor ends in the result and the condition codes of `Divxu`. -/
theorem divideBy_nonzero {sz : Size} {d : Reg} {n : Nat} {v : Word} {s : State} (hv : cut sz v ≠ 0) :
    divideBy sz d n v s = .next (((s.setDivResult sz d (Config.divxu sz (s.dividend sz d) (cut sz v))).setSr
      (withFlagBits s.sr (Config.divxu sz (s.dividend sz d) (cut sz v)).flags)).complete false n) := if_neg hv

/-- DIVXU by a nonzero divisor that its operand was read to. -/
theorem divxu_divided {sz : Size} {ea : Ea} {d : Reg} {s g : State} {v : Word} (hz : ea.takesSize sz = true)
    (hread : readOperand sz ea s = .next ⟨some v, g⟩) (hv : cut sz v ≠ 0) (hdet : s.addrErrDetected = false) :
    ∃ t, exec (divxuRow sz ea d) s = .next t ∧ Divided sz ea d v s t := by
  have hexec : exec (divxuRow sz ea d) s = divideBy sz d (generalLength ea) v g := by
    rw [exec_divxuRow d s hz, divideRegister, hread, andThen_next]
  obtain ⟨n, rfl⟩ := readOperand_some hread
  refine ⟨_, hexec.trans (divideBy_nonzero hv), State.reg_setDivResult _ sz d _,
    fun hw hp => hw ▸ State.reg_setDivResult_pair _ _ hp, fun r => State.reg_setDivResult_other _ _,
    ⟨negativeOf_withFlags _ _ _ _ _, zeroOf_withFlags _ _ _ _ _, overflowOf_withFlags _ _ _ _ _,
      carryOf_withFlags _ _ _ _ _⟩, fun i hi => ?_, ?_, ?_, ?_, ?_⟩
  · exact (getLsbD_withFlagBits_above _ _ hi).trans (by simp)
  · exact State.complete_advanced false _ (by simp) (by simp) (by simp)
  · simp [State.complete_defer, hdet]
  · simp
  · simp

/-- Settles O47: the divisor is the value that reading the operand gives, which any access without an address
error gives. -/
theorem divideByNonzeroCompletes : Obligations.DivideByNonzeroCompletes := by
  refine ⟨fun sz ea d s hz hread => divxu_divided hz (readOperand_ready hread),
    fun sz ea d s v g => divxu_divided, fun sz ea s h => ?_⟩
  obtain ⟨v, n, hread, hvalue⟩ := readOperand_accepted h
  exact ⟨v, _, hread, hvalue⟩

/-! ### A zero divisor -/

/-- What the zero-divide sequence of an instruction of `n` bytes leaves, `sr` being the SR that it saves (R92, R166). -/
structure ZeroDivided (sz : Size) (d : Reg) (n : Nat) (sr : Word) (s t : State) : Prop where
  frame : Framed (s.pc + BitVec.ofNat 16 n) (s.codeAddress n).1 sr s t
  saved : ∀ i, 4 ≤ i → sr.getLsbD i = s.sr.getLsbD i
  vector : Vectored 3 s t
  trace : traceOf t.sr = false
  mask : maskOf t.sr = maskOf s.sr
  registers : ∀ r, r ≠ d → (sz = .word → r ≠ pairOf d) → r ≠ .r7 → t.reg r = s.reg r
  memory : ∀ p o, (∀ k, k < s.frameBytes → s.busAddress p o ≠ s.busAddress s.tp (s.sp - BitVec.ofNat 16 (k + 1))) →
    t.byteAt p o = s.byteAt p o
  defer : s.addrErrDetected = false → t.defer = false
  errorPending : t.addrErrPending = s.addrErrPending
  untouched : Untouched s t

/-- The zero divide as its sequence, in a state whose destination and condition codes are drawn. -/
theorem zeroDivide_eq (sz : Size) (d : Reg) (n : Nat) (s : State) :
    ∃ m rf sr, zeroDivide sz d n s =
        andThen (exceptionSequence 3 (s.codeAddress n).2 (s.codeAddress n).1 none
          { s with draws := m, regs := rf, sr := sr }) (fun t => .next ((t.drawFlags .flagsAfter).finish false)) ∧
      (∀ r, r ≠ d → (sz = .word → r ≠ pairOf d) → rf.get r = s.regs.get r) ∧
      ∀ i, 4 ≤ i → sr.getLsbD i = s.sr.getLsbD i := by
  obtain ⟨m, rf, e, hrf⟩ := s.drawDivResult_change sz d
  refine ⟨m + 1, rf, _, ?_, hrf, fun i => getLsbD_withFlagBits_above s.sr ((Config.draw .flags m).setWidth 4)⟩
  rw [zeroDivide, e]
  rfl

theorem zeroDivide_traps {sz : Size} {d : Reg} {s : State} (n : Nat) (hd : d ≠ .r7)
    (hpair : sz = .word → pairOf d ≠ .r7) (hwf : Memory.wf s.mem = true) (hstack : s.stackReady = true)
    (hvector : s.vectorReady 3 = true) :
    ∃ t sr, zeroDivide sz d n s = .next t ∧ ZeroDivided sz d n sr s t := by
  obtain ⟨m, rf, sr, e, hrf, hsr⟩ := zeroDivide_eq sz d n s
  have hsp : ({ s with draws := m, regs := rf, sr := sr } : State).sp = s.sp :=
    hrf .r7 hd.symm fun h => (hpair h).symm
  have hready : ({ s with draws := m, regs := rf, sr := sr } : State).stackReady = true := by
    rw [State.stackReady, hsp]
    exact hstack
  obtain ⟨t, ht, he⟩ := exceptionSequence_entered (s := { s with draws := m, regs := rf, sr := sr })
    (s.codeAddress n).2 (s.codeAddress n).1 none hwf hready hvector
  obtain ⟨c, sp, pc', cp', et, -⟩ := exceptionSequence_kept ht
  rw [s.codeAddress_snd] at he
  obtain ⟨⟨fmin, fmax⟩, ⟨vmin, vmax⟩, ⟨htrace, hmask, -⟩, hregs, hmem, hunt⟩ := he
  rw [hsp] at fmin fmax hmem
  refine ⟨(t.drawFlags .flagsAfter).finish false, sr, e.trans (andThen_eq_next.mpr ⟨t, ht, rfl⟩), ⟨fmin, fmax⟩, hsr,
    ⟨vmin, vmax⟩, ?_, ?_, fun r h1 h2 h7 => (hregs r h7).trans (hrf r h1 h2), hmem, fun hdet => ?_, ?_,
    Untouched.trans (by constructor <;> rfl) (hunt.trans (by constructor <;> rfl))⟩
  · exact (traceOf_withFlagBits _ _).trans htrace
  · refine (maskOf_withFlagBits _ _).trans (hmask.trans (maskOf_congr hsr))
  · rw [State.finish_defer, State.drawFlags_addrErrDetected, show t.addrErrDetected = false by rw [et]; exact hdet]
    rfl
  · rw [et]
    rfl

/-- Settles O48: the operand is read to 0, and the zero divide works in the state that the form leaves. -/
theorem divideByZeroTraps : Obligations.DivideByZeroTraps := by
  intro sz ea d s hz hread hv hd hpair hwf hstack hvector hdet
  obtain ⟨rf, em, -⟩ := s.modify_change sz ea
  have hexec : exec (divxuRow sz ea d) s = zeroDivide sz d (generalLength ea) (s.modify sz ea) := by
    rw [exec_divxuRow d s hz, divideRegister, readOperand_ready hread, andThen_next]
    exact if_pos hv
  rw [hexec]
  rw [em] at hstack ⊢
  obtain ⟨t, sr, ht, frame, saved, vector, trace, mask, registers, memory, defer, errorPending, untouched⟩ :=
    zeroDivide_traps (s := { s with regs := rf }) (generalLength ea) hd hpair hwf hstack hvector
  exact ⟨t, sr, ht, frame, saved, ⟨vector.minimum, vector.maximum⟩, trace, mask, registers, memory, defer hdet,
    errorPending, Untouched.trans (by constructor <;> rfl) untouched⟩

/-! ### What DIVXU leaves unchanged -/

/-- What is kept by a division of an operand size into `d`, with `s` the state in which the divisor is known. -/
structure DivideKept (sz : Size) (d : Reg) (s t : State) : Prop where
  registers : ∀ r, r ≠ d → (sz = .word → r ≠ pairOf d) → r ≠ .r7 → t.reg r = s.reg r
  status : ∀ i, 4 ≤ i → i ≠ 15 → t.sr.getLsbD i = s.sr.getLsbD i
  trace : traceOf t.sr = true → traceOf s.sr = true
  memory : t.rame = s.rame → ∀ p o,
    (∀ k, k < s.frameBytes → s.busAddress p o ≠ s.busAddress s.tp (t.sp + BitVec.ofNat 16 k)) →
    t.byteAt p o = s.byteAt p o

/-- The frame lies from the new SP up. -/
theorem zeroDivide_divideKept {sz : Size} {d : Reg} {n : Nat} {s t : State} (h : zeroDivide sz d n s = .next t) :
    DivideKept sz d s t := by
  obtain ⟨m, rf, sr, e, hrf, hsr⟩ := zeroDivide_eq sz d n s
  obtain ⟨u, hu, h⟩ := andThen_eq_next.mp (e.symm.trans h)
  cases h
  obtain ⟨c, sp, pc', cp', eu, -⟩ := exceptionSequence_kept hu
  have husr : ∀ i, 4 ≤ i → ((u.drawFlags .flagsAfter).finish false).sr.getLsbD i = (withTrace sr false).getLsbD i := by
    intro i hi
    rw [eu]
    exact getLsbD_withFlagBits_above _ _ hi
  refine ⟨fun r h1 h2 h7 => ?_, fun i hi h15 => ?_, fun htr => ?_, fun hr p o hout => ?_⟩
  · rw [← show rf.get r = s.reg r from hrf r h1 h2, eu]
    exact Regs.get_set_other _ _ h7
  · rw [husr i hi, getLsbD_withTrace, if_neg h15, hsr i hi]
  · rw [traceOf, Config.traceBit, husr 15 (by omega), getLsbD_withTrace] at htr
    cases htr
  · exact exceptionSequence_byteAt_above hu hr hout

/-- A division that completes leaves memory, and of SR the bits that are not condition codes. -/
theorem DivideKept.of_complete {sz : Size} {d : Reg} {s : State} {n m : Nat} {rf : Regs} {b : BitVec 4}
    (h : ∀ r, r ≠ d → (sz = .word → r ≠ pairOf d) → rf.get r = s.regs.get r) :
    DivideKept sz d s
      (({ s with draws := m, regs := rf, sr := withFlagBits s.sr b } : State).complete false n) where
  registers r h1 h2 _ := h r h1 h2
  status _ hi _ := getLsbD_withFlagBits_above s.sr b hi
  trace ht := (traceOf_withFlagBits s.sr b).symm.trans ht
  memory _ _ _ _ := rfl

theorem divideBy_divideKept {sz : Size} {d : Reg} {n : Nat} {v : Word} {s t : State}
    (h : divideBy sz d n v s = .next t) : DivideKept sz d s t := by
  by_cases hv : cut sz v = 0
  · exact zeroDivide_divideKept ((if_pos hv).symm.trans h)
  · rw [divideBy_nonzero hv] at h
    cases h
    obtain ⟨rf, e, hrf⟩ := s.setDivResult_change sz d (Config.divxu sz (s.dividend sz d) (cut sz v))
    rw [e]
    exact .of_complete hrf

theorem divideFailed_divideKept {sz : Size} {d : Reg} {n : Nat} {s t : State} (h : divideFailed sz d n s = .next t) :
    DivideKept sz d s t := by
  unfold divideFailed at h
  split at h
  · obtain ⟨registers, status, trace, memory⟩ := zeroDivide_divideKept h
    exact ⟨registers, status, trace, memory⟩
  · cases h
    obtain ⟨m, rf, e, hrf⟩ := s.tick.drawDivResult_change sz d
    rw [e]
    exact .of_complete hrf

/-- Settles O49: reading the operand changes the address register alone, and then whatever becomes of the division
keeps the rest. -/
theorem divideFrame : Obligations.DivideFrame := by
  intro sz ea d s t h hz
  rw [exec_divxuRow d s hz] at h
  have hkept := divideRegister_kept h
  obtain ⟨u, rfl, hu⟩ := divideRegister_ended h
  obtain ⟨tp, dp, ep, br⟩ := hu.pages
  obtain ⟨g, hg, h⟩ := andThen_eq_next.mp h
  have hdivide : DivideKept sz d g.state (u.finish false) := by
    split at h
    · exact divideBy_divideKept h
    · exact divideFailed_divideKept h
  obtain ⟨n, a, b, rf, e, hrf, -⟩ := (readOperand_kept hg).change
  rw [e] at hdivide
  obtain ⟨registers, status, trace, memory⟩ := hdivide
  exact ⟨fun r h1 h2 h7 hea => (registers r h1 h2 h7).trans (hrf r hea), status, trace, tp, dp, ep, br, hkept.mode,
    hkept.cfg, hkept.pending, hkept.nmiPending, memory⟩

end Sys2Proof.Machine
end

section
/-! LDC, ANDC, ORC and XORC with a control register of their size (R100 to R103): the register that is loaded, and
what is left unchanged. -/

namespace Sys2Proof.Machine

/-! ### A control register loaded -/

/-- Of SR the lower byte keeps the condition codes alone (R17). -/
theorem setWidth_lowerByte_asSr (v : Word) : (lowerByte (asSr v)).setWidth 16 = v &&& 0x0F := by
  apply BitVec.eq_of_getLsbD_eq
  intro i hi
  simp only [lowerByte, BitVec.getLsbD_setWidth, BitVec.getLsbD_extractLsb', Nat.zero_add, getLsbD_asSr,
    BitVec.getLsbD_and]
  interval_cases i <;> simp

/-- A control register reads as what was loaded into it, as far as it has bits. -/
theorem State.controlReg_setControlReg (s : State) (c : ControlReg) (v : Word) :
    (s.setControlReg c v).controlReg c = controlValue c v := by
  cases c with
  | ccr =>
    show (lowerByte (upperByte s.sr ++ lowerByte (asSr v))).setWidth 16 = v &&& 0x0F
    rw [lowerByte, extractLsb'_append_low, setWidth_lowerByte_asSr]
  | _ => rfl

/-- CCR is the lower byte of SR (R15). -/
theorem State.upperByte_sr_setControlReg (s : State) {c : ControlReg} (v : Word) (h : c ≠ .sr) :
    upperByte (s.setControlReg c v).sr = upperByte s.sr := by
  cases c with
  | sr => exact absurd rfl h
  | ccr => exact extractLsb'_append_high _ _
  | _ => rfl

theorem State.sr_setControlReg (s : State) {c : ControlReg} (v : Word) (h : c ≠ .sr) (h' : c ≠ .ccr) :
    (s.setControlReg c v).sr = s.sr := by
  cases c with
  | sr => exact absurd rfl h
  | ccr => exact absurd rfl h'
  | _ => rfl

theorem State.setControlReg_otherControlKept (s : State) (c : ControlReg) (v : Word) :
    OtherControlKept c s (s.setControlReg c v) := by
  obtain ⟨tp, dp, ep, br, -⟩ := s.setControlReg_reached c v
  have named {d : ControlReg} (h : c ≠ d) : some c ≠ some d := (Option.some_injective _).ne h
  exact ⟨s.upperByte_sr_setControlReg v, s.sr_setControlReg v, br ∘ named, ep ∘ named, dp ∘ named, tp ∘ named⟩

/-- Loading a control register, in one: no other field but the control registers changes, the one named holds the
value, and the others are as they were. -/
theorem State.setControlReg_loaded (s : State) (c : ControlReg) (v : Word) :
    ∃ u, s.setControlReg c v = u ∧
      (∃ sr tp dp ep br, u = { s with sr := sr, tp := tp, dp := dp, ep := ep, br := br }) ∧
      u.controlReg c = controlValue c v ∧ OtherControlKept c s u := by
  obtain ⟨sr, tp, dp, ep, br, e, -⟩ := s.setControlReg_change c v
  exact ⟨_, rfl, ⟨sr, tp, dp, ep, br, e⟩, s.controlReg_setControlReg c v, s.setControlReg_otherControlKept c v⟩

/-- What a load of a control register starts from differs from the state before the instruction in no control
register, and the end of the instruction changes none. -/
theorem OtherControlKept.complete {c : ControlReg} {s u : State} {n : Nat} {rf : Regs} {pending detected : Bool}
    (h : OtherControlKept c (({ s with draws := n, regs := rf } : State).withErrors pending detected) u)
    (five : Bool) (len : Nat) : OtherControlKept c s (u.complete five len) :=
  ⟨h.sr, h.ccr, h.br, h.ep, h.dp, h.tp⟩

/-! ### The instructions -/

theorem loadControl_accepted {sz : Size} {ea : Ea} {c : ControlReg} {s : State} (hc : c.fits sz = true)
    (h : s.operandAccepted sz ea = true) :
    ∃ v rf n, loadControl sz ea c s =
        .next ((({ s with draws := n, regs := rf } : State).setControlReg c v).complete true (generalLength ea)) ∧
      (s.operandReadable sz ea = true → v = s.operandValue sz ea) ∧ ∀ r, rf.get r = (s.modify sz ea).reg r := by
  obtain ⟨v, n, hread, hvalue⟩ := readOperand_accepted h
  obtain ⟨rf, hmodify, -⟩ := s.modify_change sz ea
  refine ⟨v, rf, n, ?_, hvalue, fun r => by rw [hmodify]; rfl⟩
  rw [loadControl, if_pos hc, hread, State.modify_draws, hmodify]
  rfl

/-- Settles O52: the operand is read to a value, which the control register takes. -/
theorem loadControlWritesTheControlRegister : Obligations.LoadControlWritesTheControlRegister := by
  intro sz ea c s hc hz h
  obtain ⟨v, rf, n, hload, hvalue, hregs⟩ := loadControl_accepted hc h
  obtain ⟨u, e, ⟨sr, tp, dp, ep, br, rfl⟩, hresult, hothers⟩ :=
    ({ s with draws := n, regs := rf } : State).setControlReg_loaded c v
  rw [e] at hload
  exact ⟨_, v, (exec_ldcRow c s hz).trans hload, hvalue, hresult, hothers.complete true _, hregs, rfl,
    State.complete_advanced true _ rfl rfl rfl, rfl, rfl⟩

theorem combineControl_combined {sz : Size} {c : ControlReg} (n : Nat) (v : Word) (s : State)
    (hc : c.fits sz = true) : ∃ t, combineControl sz n c v s = .next t ∧ ControlCombined c v n s t := by
  obtain ⟨u, e, ⟨sr, tp, dp, ep, br, rfl⟩, hresult, hothers⟩ := s.setControlReg_loaded c v
  refine ⟨_, if_pos hc, ?_⟩
  rw [e]
  exact {
    result := hresult
    control := hothers.complete true n
    advanced := State.complete_advanced true n rfl rfl rfl
    registers := rfl, memory := rfl, defer := rfl, lastWasInstruction := rfl, errorPending := rfl, mds := rfl
    rame := rfl, level := rfl, dte := rfl, mode := rfl, nmiPending := rfl, pending := rfl, dtcActive := rfl
    inReset := rfl, resHigh := rfl, modePins := rfl, cfg := rfl }

/-- Settles O53: each is a combination of its control register, of three bytes or of four. -/
theorem controlLogicCombinesWithTheImmediate : Obligations.ControlLogicCombinesWithTheImmediate :=
  fun _ s =>
    ⟨fun hc _ => ⟨combineControl_combined 3 _ s hc, combineControl_combined 3 _ s hc,
        combineControl_combined 3 _ s hc⟩,
      fun hc _ => ⟨combineControl_combined 4 _ s hc, combineControl_combined 4 _ s hc,
        combineControl_combined 4 _ s hc⟩⟩

/-! ### What they leave unchanged -/

/-- LDC loads its control register, with the operand or after a failed access with a drawn value. -/
theorem loadControl_loads {sz : Size} {ea : Ea} {c : ControlReg} {s t : State} (hc : c.fits sz = true)
    (h : loadControl sz ea c s = .next t) :
    ∃ n pending detected rf v, t = ((({ s with draws := n, regs := rf } : State).withErrors pending
        detected).setControlReg c v).complete true (generalLength ea) ∧
      ∀ r, Ea.modified ea ≠ some r → rf.get r = s.reg r := by
  rw [loadControl, if_pos hc] at h
  obtain ⟨g, hg, h⟩ := andThen_eq_next.mp h
  obtain ⟨n, a, d, rf, e, hrf, -⟩ := (readOperand_kept hg).change
  rw [e] at h
  split at h <;> cases h
  · exact ⟨n, a, d, rf, _, rfl, hrf⟩
  · exact ⟨n + 1, a, d, rf, _, rfl, hrf⟩

/-- A legal instruction that names a control register loads it, whatever becomes of its access. -/
theorem exec_loads_control {i : Instr} {c : ControlReg} {sz : Size} {s t : State}
    (hi : i.control = some (c, sz)) (hlegal : i.wellFormed = true) (h : exec i s = .next t) :
    ∃ n pending detected rf v len, t = ((({ s with draws := n, regs := rf } : State).withErrors pending
        detected).setControlReg c v).complete true len ∧
      ∀ r, (∀ ea, i = ldcRow sz ea c → Ea.modified ea ≠ some r) → rf.get r = s.reg r := by
  have hc : c.fits sz = true := (wellFormed_of_control hi).symm.trans hlegal
  have names {c' : ControlReg} {sz' : Size} (hi' : i.control = some (c', sz')) : c' = c ∧ sz' = sz := by
    rw [hi', Option.some.injEq, Prod.mk.injEq] at hi
    exact hi
  cases isRow i with
  | load sz ea d hz => cases ea <;> cases hi
  | store sz ea r hrow => cases ea <;> cases hrow <;> cases hi
  | add sz ea d hz => cases ea <;> cases hi
  | divide sz ea d hz => cases ea <;> cases hi
  | ldc sz ea c hz =>
    obtain ⟨rfl, rfl⟩ := names (control_ldcRow c hz)
    rw [exec_ldcRow _ s hz] at h
    obtain ⟨n, a, d, rf, v, e, hrf⟩ := loadControl_loads hc h
    exact ⟨n, a, d, rf, v, _, e, fun r hr => hrf r (hr ea rfl)⟩
  | combine sz len c f hx hi' _ =>
    obtain ⟨rfl, rfl⟩ := names hi'
    rw [hx, combineControl, if_pos hc] at h
    cases h
    exact ⟨s.draws, s.addrErrPending, s.addrErrDetected, s.regs, f s, len, rfl, fun _ _ => rfl⟩
  | trapa v | trapVs | rte | movI v d | nop => cases hi

/-- Settles O54: beside the load of the control register only draws, registers and address errors change. -/
theorem controlInstructionFrame : Obligations.ControlInstructionFrame := by
  intro i c sz s t hi hlegal h
  obtain ⟨n, a, d, rf, v, len, rfl, hrf⟩ := exec_loads_control hi hlegal h
  obtain ⟨u, e, ⟨sr, tp, dp, ep, br, rfl⟩, -, hothers⟩ :=
    (({ s with draws := n, regs := rf } : State).withErrors a d).setControlReg_loaded c v
  rw [e]
  exact ⟨hrf, hothers.complete true len, rfl, fun _ _ => rfl, rfl, rfl, rfl, rfl, rfl, rfl, rfl, rfl⟩

end Sys2Proof.Machine
end

section
/-! RTE (R104): what it takes from a frame that can be read, that it undoes a sequence, and what it leaves
unchanged. -/

namespace Sys2Proof.Machine

/-! ### Popping a frame -/

theorem State.frameBytes_minimum {s : State} (h : s.mode.cpu = .minimum) : s.frameBytes = 4 := by
  rw [State.frameBytes, h]

theorem State.frameBytes_maximum {s : State} (h : s.mode.cpu = .maximum) : s.frameBytes = 6 := by
  rw [State.frameBytes, h]

theorem State.setReg_setReg (s : State) (r : Reg) (v w : Word) : (s.setReg r v).setReg r w = s.setReg r w := by
  cases r <;> rfl

/-- A word of a frame that is ready can be read. -/
theorem State.readableFor_of_frameReady {s : State} (h : s.frameReady = true) {n : Nat}
    (hn : 2 * n + 2 ≤ s.frameBytes) : s.readableFor .word s.tp (s.sp + BitVec.ofNat 16 (2 * n)) = true := by
  simp only [State.frameReady, Bool.and_eq_true, Bool.not_eq_true', List.all_eq_true, List.mem_range] at h
  obtain ⟨heven, hbytes⟩ := h
  refine State.readableFor_word ?_ (hbytes (2 * n) (by omega)) ?_
  · rw [isOdd_eq_false_iff] at heven ⊢
    bv_omega
  · rw [show s.sp + BitVec.ofNat 16 (2 * n) + 1 = s.sp + BitVec.ofNat 16 (2 * n + 1) by bv_omega]
    exact hbytes (2 * n + 1) (by omega)

/-- The state after `n` words were popped. -/
def State.popped (s : State) (n : Nat) : State := s.setReg .r7 (s.sp + BitVec.ofNat 16 (2 * n))

theorem State.popped_zero (s : State) : s.popped 0 = s := by
  rw [State.popped, BitVec.add_zero]
  rfl

/-- The next pop from a frame that is ready, of which `n` words are popped already. -/
theorem popWord_popped {s : State} (h : s.frameReady = true) {n : Nat} (hn : 2 * n + 2 ≤ s.frameBytes) :
    popWord (s.popped n) = .next ⟨s.wordAt s.tp (s.sp + BitVec.ofNat 16 (2 * n)), s.popped (n + 1)⟩ := by
  have hread : (s.popped n).readableFor .word (s.popped n).tp (s.popped n).sp = true :=
    State.readableFor_of_frameReady h hn
  have hsp : (s.popped n).sp + 2 = s.sp + BitVec.ofNat 16 (2 * (n + 1)) := by
    show s.sp + BitVec.ofNat 16 (2 * n) + 2 = _
    bv_omega
  rw [popWord_ready hread, hsp, State.popped, State.setReg_setReg]
  rfl

/-! ### The return -/

/-- What RTE takes from a frame that can be read, from `s` to `t` (R104). -/
structure Returned (s t : State) : Prop where
  sp : t.sp = s.sp + BitVec.ofNat 16 s.frameBytes
  status : t.sr = asSr (s.wordAt s.tp s.sp)
  minimum : s.mode.cpu = .minimum → t.pc = s.wordAt s.tp (s.sp + 2) ∧ t.cp = s.cp
  maximum : s.mode.cpu = .maximum → t.cp = s.byteAt s.tp (s.sp + 3) ∧ t.pc = s.wordAt s.tp (s.sp + 4)

theorem execRte_returned {s : State} (h : s.frameReady = true) : ∃ t, execRte s = .next t ∧ Returned s t := by
  have hstatus : s.wordAt s.tp (s.sp + BitVec.ofNat 16 (2 * 0)) = s.wordAt s.tp s.sp := by rw [BitVec.add_zero]
  have pop := @popWord_popped s h
  cases hcpu : s.mode.cpu with
  | minimum =>
    have hbytes := State.frameBytes_minimum hcpu
    have hpop := pop (n := 0) (by omega)
    rw [s.popped_zero] at hpop
    rw [execRte, returnFromException]
    simp only [hcpu, hpop, pop (n := 1) (by omega), andThen_next]
    refine ⟨_, rfl, ?_, congrArg asSr hstatus, fun _ => ⟨rfl, rfl⟩, fun h => ?_⟩
    · rw [hbytes]
      rfl
    · rw [hcpu] at h
      cases h
  | maximum =>
    have hbytes := State.frameBytes_maximum hcpu
    have hpop := pop (n := 0) (by omega)
    rw [s.popped_zero] at hpop
    rw [execRte, returnFromException]
    simp only [hcpu, hpop, pop (n := 1) (by omega), pop (n := 2) (by omega), andThen_next]
    refine ⟨_, rfl, ?_, congrArg asSr hstatus, fun h => ?_, fun _ => ⟨?_, rfl⟩⟩
    · rw [hbytes]
      rfl
    · rw [hcpu] at h
      cases h
    · show lowerByte (s.wordAt s.tp (s.sp + 2)) = _
      rw [State.wordAt, lowerByte_wordOfBytes, show s.sp + 2 + 1 = s.sp + 3 by bv_omega]

/-- What RTE leaves unchanged (R104), and that it defers (R161). -/
structure ReturnKept (s t : State) : Prop where
  registers : ∀ r, r ≠ .r7 → t.reg r = s.reg r
  mem : t.mem = s.mem
  bytes : ∀ p o, t.byteAt p o = s.byteAt p o
  cp : s.mode.cpu = .minimum → t.cp = s.cp
  errorPending : t.addrErrPending = s.addrErrPending
  untouched : Untouched s t
  defer : t.defer = true

theorem execRte_returnKept {s t : State} (h : execRte s = .next t) : ReturnKept s t := by
  obtain ⟨u, hu, h⟩ := andThen_eq_next.mp h
  cases h
  obtain ⟨n, sp, sr, pc, cp, rfl, -, hcp⟩ := returnFromException_kept hu
  exact ⟨fun r hr => Regs.get_set_other _ _ hr, rfl, fun _ _ => rfl, hcp, rfl, by constructor <;> rfl, rfl⟩

/-- Settles O57: the pops find the words of the frame one after the other. -/
theorem rteRestoresFromTheFrame : Obligations.RteRestoresFromTheFrame := by
  intro s h
  obtain ⟨t, ht, hsp, hstatus, hmin, hmax⟩ := execRte_returned h
  have hkept := execRte_returnKept ht
  refine ⟨t, ht, hstatus, hkept.defer, hkept.errorPending, fun hcpu => ?_, fun hcpu => ?_⟩
  · rw [State.frameBytes_minimum hcpu] at hsp
    exact ⟨(hmin hcpu).1, (hmin hcpu).2, hsp⟩
  · rw [State.frameBytes_maximum hcpu] at hsp
    exact ⟨(hmax hcpu).1, (hmax hcpu).2, hsp⟩

/-- Settles O59: the pops load words and move SP. -/
theorem rteFrame : Obligations.RteFrame := by
  intro s t h
  obtain ⟨registers, mem, bytes, cp, errorPending, untouched, -⟩ := execRte_returnKept h
  exact ⟨registers, mem, bytes, cp, errorPending, untouched⟩

/-! ### After a sequence -/

section

variable {index : BitVec 6} {pc : Word} {cp : Byte} {m : Option (BitVec 3)} {s t : State}

theorem Entered.frameBytes (h : Entered index pc cp m s t) : t.frameBytes = s.frameBytes := by
  rw [State.frameBytes, State.frameBytes, h.untouched.mode]

theorem Entered.sp (h : Entered index pc cp m s t) : t.sp = s.sp - BitVec.ofNat 16 s.frameBytes := by
  cases hcpu : s.mode.cpu with
  | minimum => exact State.frameBytes_minimum hcpu ▸ (h.frame.minimum hcpu).1
  | maximum => exact State.frameBytes_maximum hcpu ▸ (h.frame.maximum hcpu).1

/-- The frame that a sequence leaves can be read, since it could be written. -/
theorem Entered.frameReady (h : Entered index pc cp m s t) (hready : s.stackReady = true) : t.frameReady = true := by
  simp only [State.stackReady, State.frameReady, Bool.and_eq_true, Bool.not_eq_true', List.all_eq_true,
    List.mem_range, isOdd_eq_false_iff] at hready ⊢
  obtain ⟨heven, hbytes⟩ := hready
  have hsp := h.sp
  refine ⟨?_, fun k hk => ?_⟩
  · cases hcpu : s.mode.cpu with
    | minimum =>
      rw [State.frameBytes_minimum hcpu] at hsp
      bv_omega
    | maximum =>
      rw [State.frameBytes_maximum hcpu] at hsp
      bv_omega
  · rw [h.frameBytes] at hk
    rw [h.untouched.readableAt, h.untouched.tp,
      show t.sp + BitVec.ofNat 16 k = s.sp - BitVec.ofNat 16 (s.frameBytes - 1 - k + 1) by bv_omega]
    exact State.readableAt_of_writableAt (hbytes _ (by omega))

/-- RTE takes from the frame of a sequence what the sequence pushed. -/
theorem Returned.undoes {u : State} (hu : Returned t u) (h : Entered index pc cp m s t) :
    u.sr = asSr s.sr ∧ u.sp = s.sp ∧ u.pc = pc ∧ (s.mode.cpu = .maximum → u.cp = cp) ∧
      (s.mode.cpu = .minimum → u.cp = s.cp) := by
  obtain ⟨hsp, hstatus, hmin, hmax⟩ := hu
  rw [h.untouched.tp] at hstatus hmin hmax
  rw [h.untouched.mode] at hmin hmax
  have hback : u.sp = s.sp := by
    rw [hsp, h.frameBytes, h.sp, BitVec.sub_add_cancel]
  cases hcpu : s.mode.cpu with
  | minimum =>
    obtain ⟨-, hsr, hpc⟩ := h.frame.minimum hcpu
    obtain ⟨hupc, hucp⟩ := hmin hcpu
    exact ⟨hstatus.trans (congrArg asSr hsr), hback, hupc.trans hpc, nofun,
      fun _ => hucp.trans (h.vector.minimum hcpu).2⟩
  | maximum =>
    obtain ⟨-, hsr, hcp, hpc⟩ := h.frame.maximum hcpu
    obtain ⟨hucp, hupc⟩ := hmax hcpu
    exact ⟨hstatus.trans (congrArg asSr hsr), hback, hupc.trans hpc, fun _ => hucp.trans hcp, nofun⟩

end

/-- Settles O58: the frame can be read as the sequence left it, and neither touches another register. -/
theorem rteUndoesASequence : Obligations.RteUndoesASequence := by
  intro index pc cp m s t hwf hstatus hstack hvector ht
  obtain ⟨t', ht', he⟩ := exceptionSequence_entered pc cp m hwf hstack hvector
  obtain rfl : t' = t := Host.Outcome.next.inj (ht'.symm.trans ht)
  obtain ⟨u, hexec, hu⟩ := execRte_returned (he.frameReady hstack)
  obtain ⟨hsr, hsp, hpc, hmax, hmin⟩ := hu.undoes he
  refine ⟨u, hexec, hsr.trans hstatus, hsp, hpc, hmax, hmin, fun r => ?_⟩
  by_cases hr : r = .r7
  · exact hr ▸ hsp
  · exact ((execRte_returnKept hexec).registers r hr).trans (he.registers r hr)

end Sys2Proof.Machine
end

section
/-! MOV, ADD and NOP (R110 to R116): the operand that a register takes or gives, and what is left unchanged. -/

namespace Sys2Proof.Machine

/-! ### The condition codes of MOV -/

section

variable (sz : Size) (v sr : Word)

@[simp] theorem negativeOf_moveFlags : negativeOf (moveFlags sz v sr) = signOf sz v := negativeOf_withFlags ..

@[simp] theorem zeroOf_moveFlags : zeroOf (moveFlags sz v sr) = (cut sz v == 0) := zeroOf_withFlags ..

@[simp] theorem overflowOf_moveFlags : overflowOf (moveFlags sz v sr) = false := overflowOf_withFlags ..

@[simp] theorem carryOf_moveFlags : carryOf (moveFlags sz v sr) = carryOf sr := carryOf_withFlags ..

theorem getLsbD_moveFlags_above {i : Nat} (hi : 4 ≤ i) : (moveFlags sz v sr).getLsbD i = sr.getLsbD i :=
  getLsbD_withFlags_above _ _ _ _ _ hi

end

/-! ### Cutting a value to a size -/

theorem cut_byte (v : Word) : cut .byte v = (lowerByte v).setWidth 16 := by
  rw [cut, lowerByte, BitVec.setWidth_eq_extractLsb' (show 8 ≤ 16 by decide)]

@[simp] theorem cut_cut (sz : Size) (v : Word) : cut sz (cut sz v) = cut sz v := by
  cases sz with
  | byte => rw [cut_byte, cut_byte, lowerByte_setWidth]
  | word => rfl

theorem toNat_cut (sz : Size) (v : Word) : (cut sz v).toNat = v.toNat % modulus sz := by
  have := v.isLt
  cases sz with
  | byte => simp only [cut, modulus, BitVec.toNat_setWidth]; omega
  | word => simp only [cut, modulus]; omega

/-- The sum of a size fits the size. -/
theorem toNat_cut_sum (sz : Size) (a b : Word) : (cut sz (sum sz a b)).toNat = exactSum sz a b % modulus sz := by
  rw [toNat_cut, sum, BitVec.toNat_ofNat]
  cases sz <;> simp only [modulus] <;> omega

/-! ### The end of an instruction -/

/-- An instruction that is not one of the five and in which no address error was detected defers nothing (R146,
R161). -/
theorem State.complete_notDeferred {s : State} (n : Nat) (h : s.addrErrDetected = false) :
    (s.complete false n).defer = false := by
  rw [State.complete_defer, h]
  rfl

/-! ### MOV and ADD to a register -/

/-- Reading an operand whose access raises no address error changes the registers as the form does, and draws. -/
theorem readOperand_accepted_regs {sz : Size} {ea : Ea} {s : State} (h : s.operandAccepted sz ea = true) :
    ∃ v n rf, readOperand sz ea s = .next ⟨some v, { s with draws := n, regs := rf }⟩ ∧
      (s.operandReadable sz ea = true → v = s.operandValue sz ea) ∧ ∀ r, rf.get r = (s.modify sz ea).reg r := by
  obtain ⟨v, n, hread, hvalue⟩ := readOperand_accepted h
  obtain ⟨rf, hmodify, -⟩ := s.modify_change sz ea
  refine ⟨v, n, rf, ?_, hvalue, fun r => by rw [hmodify]; rfl⟩
  rw [hread, State.modify_draws, hmodify]

/-- The register `d` holds `v` after the operand form `ea` has changed its address register, PC is advanced, and
nothing is deferred; memory is as it was and no address error was raised. -/
structure RegisterWritten (sz : Size) (ea : Ea) (d : Reg) (v : Word) (s t : State) : Prop where
  result : t.reg d = merge sz ((s.modify sz ea).reg d) v
  others : ∀ r, r ≠ d → t.reg r = (s.modify sz ea).reg r
  advanced : Advanced (generalLength ea) s t
  defer : t.defer = false
  mem : t.mem = s.mem
  errorPending : t.addrErrPending = s.addrErrPending

theorem State.writeReg_registerWritten {sz : Size} {ea : Ea} {s : State} {n : Nat} {rf : Regs}
    (hregs : ∀ r, rf.get r = (s.modify sz ea).reg r) (hdet : s.addrErrDetected = false) (d : Reg) (v sr : Word) :
    RegisterWritten sz ea d v s (((({ s with draws := n, regs := rf } : State).writeReg sz d v).setSr sr).complete false
      (generalLength ea)) where
  result := by
    rw [← hregs]
    exact Regs.get_set_same ..
  others r hr := (Regs.get_set_other _ _ hr).trans (hregs r)
  advanced := State.complete_advanced false _ rfl rfl rfl
  defer := State.complete_notDeferred _ hdet
  mem := rfl
  errorPending := rfl

/-- Settles O42: the operand is read to a value, which the register takes after the form has moved its address
register. -/
theorem moveToRegisterWritesTheOperand : Obligations.MoveToRegisterWritesTheOperand := by
  intro sz ea d s hz h hdet
  obtain ⟨v, n, rf, hread, hvalue, hregs⟩ := readOperand_accepted_regs h
  obtain ⟨result, others, advanced, defer, mem, errorPending⟩ :=
    State.writeReg_registerWritten (n := n) hregs hdet d v (moveFlags sz v s.sr)
  have hexec := exec_movLoadRow d s hz
  rw [moveToRegister, hread, andThen_next] at hexec
  exact ⟨_, v, hexec, hvalue, result, others, negativeOf_moveFlags .., zeroOf_moveFlags .., overflowOf_moveFlags ..,
    carryOf_moveFlags .., fun _ => getLsbD_moveFlags_above sz v s.sr, advanced, defer, mem, errorPending⟩

/-- Settles O46: the operand is read to a value, to which the register is added after the form has moved its address
register. -/
theorem addWritesTheSum : Obligations.AddWritesTheSum := by
  intro sz ea d s hz h hdet
  obtain ⟨b, n, rf, hread, hvalue, hregs⟩ := readOperand_accepted_regs h
  obtain ⟨result, others, advanced, defer, mem, errorPending⟩ :=
    State.writeReg_registerWritten (n := n) hregs hdet d (sum sz ((s.modify sz ea).reg d) b)
      (addFlags sz ((s.modify sz ea).reg d) b s.sr)
  have hexec := exec_addRow d s hz
  have haugend : ({ s with draws := n, regs := rf } : State).reg d = (s.modify sz ea).reg d := hregs d
  rw [addToRegister, hread, andThen_next] at hexec
  simp only [haugend] at hexec
  exact ⟨_, b, hexec, hvalue, ⟨result, toNat_cut_sum sz _ b, negativeOf_withFlags .., zeroOf_withFlags ..,
      carryOf_withFlags .., overflowOf_withFlags ..⟩,
    others, fun _ => getLsbD_withFlags_above _ _ _ _ _, advanced, defer, mem, errorPending⟩

/-! ### What they leave unchanged -/

/-- What an instruction that reads an operand of the form `ea` and writes the register `d` keeps. -/
structure DestinationKept (ea : Ea) (d : Reg) (s t : State) : Prop where
  registers : ∀ r, r ≠ d → Ea.modified ea ≠ some r → t.reg r = s.reg r
  status : ∀ i, 4 ≤ i → t.sr.getLsbD i = s.sr.getLsbD i
  mem : t.mem = s.mem
  bytes : ∀ p o, t.byteAt p o = s.byteAt p o
  untouched : Untouched s t

/-- The end of such an instruction: a register written, the condition codes written, values drawn. -/
theorem ReadKept.destinationKept {s : State} {ea : Ea} {g : Loaded} {d : Reg} {rf : Regs} {sr : Word}
    (h : ReadKept s ea g) (hregs : ∀ r, r ≠ d → rf.get r = g.state.reg r)
    (hsr : ∀ i, 4 ≤ i → sr.getLsbD i = g.state.sr.getLsbD i) (n len : Nat) :
    DestinationKept ea d s (({ g.state with draws := n, regs := rf, sr := sr } : State).complete false len) := by
  obtain ⟨m, pending, detected, rg, e, hrg, -⟩ := h.change
  rw [e] at hregs hsr ⊢
  exact ⟨fun r hd hea => (hregs r hd).trans (hrg r hea), hsr, rfl, fun _ _ => rfl, by constructor <;> rfl⟩

theorem ReadKept.sr {s : State} {ea : Ea} {g : Loaded} (h : ReadKept s ea g) : g.state.sr = s.sr := by
  obtain ⟨n, pending, detected, rf, e, -⟩ := h.change
  rw [e]
  rfl

theorem ReadKept.errorPending {s : State} {ea : Ea} {g : Loaded} (h : ReadKept s ea g) (hv : g.value = none) :
    g.state.addrErrPending = true := by
  obtain ⟨n, pending, detected, rf, e, -, -, hfailed⟩ := h.change
  rw [e]
  exact (hfailed hv).1

theorem moveToRegister_destinationKept {sz : Size} {ea : Ea} {d : Reg} {s t : State}
    (h : moveToRegister sz ea d s = .next t) :
    DestinationKept ea d s t ∧ (t.addrErrPending = false → carryOf t.sr = carryOf s.sr) := by
  obtain ⟨g, hg, h⟩ := andThen_eq_next.mp h
  have hread := readOperand_kept hg
  split at h <;> cases h
  · next v _ =>
    exact ⟨hread.destinationKept (fun _ => Regs.get_set_other _ _) (fun _ => getLsbD_moveFlags_above sz v _) _ _,
      fun _ => (carryOf_moveFlags sz v _).trans (by rw [hread.sr])⟩
  · next hv =>
    exact ⟨hread.destinationKept (fun _ => Regs.get_set_other _ _) (fun _ => getLsbD_withFlagBits_above _ _) _ _,
      fun hp => absurd (hp.symm.trans (hread.errorPending hv)) Bool.false_ne_true⟩

theorem addToRegister_destinationKept {sz : Size} {ea : Ea} {d : Reg} {s t : State}
    (h : addToRegister sz ea d s = .next t) : DestinationKept ea d s t := by
  obtain ⟨g, hg, h⟩ := andThen_eq_next.mp h
  have hread := readOperand_kept hg
  split at h <;> cases h
  · exact hread.destinationKept (fun _ => Regs.get_set_other _ _) (fun _ => getLsbD_withFlags_above _ _ _ _ _) _ _
  · exact hread.destinationKept (fun _ => Regs.get_set_other _ _) (fun _ => getLsbD_withFlagBits_above _ _) _ _

theorem addRow_ne_movLoadRow (sz : Size) (ea : Ea) (d : Reg) : addRow sz ea d ≠ movLoadRow sz ea d := by
  cases ea <;> exact nofun

/-- Settles O50: both read an operand and write a register and condition codes, whatever becomes of the access. -/
theorem registerDestinationFrame : Obligations.RegisterDestinationFrame := by
  rintro sz ea d i s t (rfl | rfl) h hz
  · rw [exec_movLoadRow d s hz] at h
    obtain ⟨⟨registers, status, mem, bytes, untouched⟩, carry⟩ := moveToRegister_destinationKept h
    exact ⟨registers, status, fun _ => carry, mem, bytes, untouched⟩
  · rw [exec_addRow d s hz] at h
    obtain ⟨registers, status, mem, bytes, untouched⟩ := addToRegister_destinationKept h
    exact ⟨registers, status, fun hi => absurd hi (addRow_ne_movLoadRow sz ea d), mem, bytes, untouched⟩

/-! ### MOV from a register -/

/-- A store of a size in storage that can be written: the value in its place, and the rest as it was. -/
theorem store_stored {sz : Size} {p : Byte} {o v : Word} {s : State} {w : Stored} (hwf : Memory.wf s.mem = true)
    (h : s.writableFor sz p o = true) (hstore : store sz p o v s = .next w) :
    w.made = true ∧ w.state.valueAt sz p o = cut sz v ∧
      ∀ p' o', s.outside sz p o p' o' → w.state.byteAt p' o' = s.byteAt p' o' := by
  cases sz with
  | byte =>
    obtain ⟨k, hk⟩ := State.writableAt_iff.mp h
    cases (storeByte_storage hk).symm.trans hstore
    refine ⟨rfl, ?_, fun p' o' hout => ?_⟩
    · rw [cut_byte, State.valueAt, State.byteAt_writeCell hwf hk, if_pos rfl]
    · exact (State.byteAt_writeCell hwf hk).trans (if_neg hout.1)
  | word =>
    obtain ⟨t, ht⟩ := storeWord_stored v hwf h
    cases ht.stored.symm.trans hstore
    exact ⟨rfl, ht.wordAt, ht.others⟩

/-- The word stored for an operand holds the operand, in a byte-size push at the place of its data byte (R113). -/
theorem operandOf_storedWord (sz : Size) (ea : Ea) (v : Word) (s : State) :
    operandOf sz ea (cut (accessSize sz ea) (s.storedWord sz ea v)) = cut sz v := by
  cases sz with
  | word =>
    have hsize : accessSize .word ea = .word := by unfold accessSize; split <;> rfl
    simp only [operandOf, State.storedWord, hsize, cut_cut]
  | byte =>
    cases hsize : accessSize .byte ea with
    | byte => simp only [operandOf, State.storedWord, hsize, cut_cut]
    | word =>
      simp only [operandOf, State.storedWord, hsize, cut_byte]
      split
      · exact congrArg _ (upperByte_wordOfBytes ..)
      · exact congrArg _ (lowerByte_wordOfBytes ..)

theorem State.byteAt_modify (s : State) (sz : Size) (ea : Ea) (p : Byte) (o : Word) :
    (s.modify sz ea).byteAt p o = s.byteAt p o := by
  cases ea <;> rfl

theorem State.valueAt_modify (s : State) (sz sz' : Size) (ea : Ea) (p : Byte) (o : Word) :
    (s.modify sz ea).valueAt sz' p o = s.valueAt sz' p o := by
  cases ea <;> rfl

/-- An operand in storage that can be written reads as what was written to it, and the rest is as it was. -/
theorem writeOperand_stored {sz : Size} {ea : Ea} {v : Word} {s : State} {w : Stored} {p : Byte} {o : Word}
    (hp : s.place sz ea = .memory p o) (hwf : Memory.wf s.mem = true) (h : s.operandWritable sz ea = true)
    (hw : writeOperand sz ea v s = .next w) :
    operandOf sz ea (w.state.valueAt (accessSize sz ea) p o) = cut sz v ∧
      ∀ p' o', s.outside (accessSize sz ea) p o p' o' → w.state.byteAt p' o' = s.byteAt p' o' := by
  rw [State.operandWritable, hp] at h
  rw [writeOperand, hp] at hw
  obtain ⟨u, hu, hw⟩ := andThen_eq_next.mp hw
  obtain ⟨n, hn⟩ := s.tickForStore_change sz ea
  rw [hn] at hu
  obtain ⟨hmade, hvalue, hothers⟩ := store_stored (s := { s with draws := n }) hwf h hu
  cases (if_pos hmade).symm.trans hw
  refine ⟨?_, fun p' o' hout => ?_⟩
  · rw [State.valueAt_modify, hvalue, operandOf_storedWord]
  · exact (State.byteAt_modify ..).trans (hothers p' o' hout)

theorem writeOperand_register {sz : Size} {ea : Ea} {s : State} {e : Reg} (v : Word)
    (he : s.place sz ea = .register e) :
    writeOperand sz ea v s = .next ⟨true, s.writeReg sz e v⟩ := by
  rw [writeOperand, he]

/-- Writing an operand whose access raises no address error changes the registers as the form does, or the register
that is the operand. -/
theorem writeOperand_made {sz : Size} {ea : Ea} (v : Word) {s : State} (h : s.operandAccepted sz ea = true) :
    ∃ u, writeOperand sz ea v s = .next ⟨true, u⟩ ∧
      (∀ p o, s.place sz ea = .memory p o → ∀ q, u.reg q = (s.modify sz ea).reg q) ∧
      ∀ e, s.place sz ea = .register e → u = s.writeReg sz e v := by
  cases hp : s.place sz ea with
  | register e =>
    refine ⟨_, writeOperand_register v hp, nofun, fun e' he => ?_⟩
    rw [Place.register.inj he]
  | immediate x => exact ⟨s, by rw [writeOperand, hp], nofun, nofun⟩
  | memory p o =>
    obtain ⟨c, hw⟩ := writeOperand_accepted v hp h
    exact ⟨_, hw, fun _ _ _ => State.modify_reg_congr (u := s.changed c) sz ea rfl, nofun⟩

theorem State.cut_readReg (s : State) (sz : Size) (r : Reg) : cut sz (s.readReg sz r) = s.readReg sz r := cut_cut ..

/-- Settles O43: the operand is written with the register as it was, and where it lies in storage reads as that. -/
theorem moveFromRegisterWritesTheOperand : Obligations.MoveFromRegisterWritesTheOperand := by
  intro sz ea r i s hi h hdet
  obtain ⟨u, hw, hmemory, hregister⟩ := writeOperand_made (s.readReg sz r) h
  obtain ⟨c, pending, detected, rf, e, -, -, hmade, -⟩ := (writeOperand_kept hw).change
  obtain ⟨rfl, rfl⟩ := hmade rfl
  obtain rfl : u = _ := e
  have hexec := exec_movStoreRow s hi
  rw [moveFromRegister, hw, andThen_next, if_pos rfl] at hexec
  refine ⟨_, hexec, fun p o hp => ⟨fun hwritable hwf => ?_, hmemory p o hp⟩, fun e he => ?_, negativeOf_moveFlags ..,
    ?_, overflowOf_moveFlags .., carryOf_moveFlags .., fun _ => getLsbD_moveFlags_above _ _ s.sr,
    State.complete_advanced false _ rfl rfl rfl, State.complete_notDeferred _ hdet, rfl⟩
  · obtain ⟨hvalue, hothers⟩ := writeOperand_stored hp hwf hwritable hw
    exact ⟨hvalue.trans (s.cut_readReg sz r), hothers⟩
  · rw [hregister e he]
    exact ⟨Regs.get_set_same .., fun q hq => Regs.get_set_other _ _ hq, rfl⟩
  · exact (zeroOf_moveFlags ..).trans (by rw [s.cut_readReg])

/-! ### What a store leaves unchanged -/

theorem Region.key_ne_some_iff {g : Region} {k : Nat} :
    g.key ≠ some k ↔ g ≠ .cell k ∧ g ≠ .rom k ∧ g ≠ .error (some k) ∧ g ≠ .disabled k := by
  cases g <;> simp [Region.key]

/-- Outside its addresses there is no register field. -/
theorem State.region_ne_register {s : State} {p : Byte} {o : Word}
    (h : ¬(0xFF80 ≤ s.busAddress p o ∧ s.busAddress p o ≤ 0xFFFF)) (q : BitVec 7) : s.region p o ≠ .register q := by
  intro hq
  have := q.isLt
  rw [State.region_register, fieldAddress] at hq
  omega

/-- A byte reads as before where the same storage byte lies there, which holds what it held. -/
theorem State.byteAt_congr {s t : State} {p : Byte} {o : Word} (hr : t.region p o = s.region p o)
    (hmem : ∀ k, (s.region p o).key = some k → memRead t.mem k = memRead s.mem k) : t.byteAt p o = s.byteAt p o := by
  rw [State.byteAt, State.byteAt, hr]
  cases hg : s.region p o with
  | cell k | rom k => exact hmem k (by rw [hg]; rfl)
  | register q | vacant | error k | absent | disabled k => rfl

/-- From `s` to `t`, a store of a size at an address reaches no storage byte but those that lie there, and control
fields only if the register field lies there. -/
structure Reaches (sz : Size) (p : Byte) (o : Word) (s t : State) : Prop where
  memory : ∀ k, (s.region p o).key ≠ some k → (sz = .word → (s.region p (o + 1)).key ≠ some k) →
    memRead t.mem k = memRead s.mem k
  controls : (∀ q, s.region p o ≠ .register q) → (sz = .word → ∀ q, s.region p (o + 1) ≠ .register q) →
    ControlsKept s t

theorem Reaches.congr {sz : Size} {p : Byte} {o : Word} {s t u : State} (h : Reaches sz p o s t) (hmem : u.mem = t.mem)
    (hcontrols : ControlsKept t u) : Reaches sz p o s u where
  memory k h1 h2 := by rw [hmem, h.memory k h1 h2]
  controls h1 h2 := (h.controls h1 h2).trans hcontrols

/-- Bytes at other addresses read as before, under the same RAME: no two addresses share a storage byte. -/
theorem Reaches.byteAt {sz : Size} {p p' : Byte} {o o' : Word} {s t : State} (h : Reaches sz p o s t)
    (hm : t.mode = s.mode) (hr : t.rame = s.rame) (hc : t.cfg = s.cfg) (hout : s.outside sz p o p' o') :
    t.byteAt p' o' = s.byteAt p' o' := by
  obtain ⟨hfirst, hsecond⟩ := hout
  exact State.byteAt_congr (State.region_congr hm hr hc p' o') fun k hk => h.memory k
    (fun h1 => hfirst (State.region_key_injective hk h1)) fun hz h2 => hsecond hz (State.region_key_injective hk h2)

theorem writeOperand_reaches {sz : Size} {ea : Ea} {v : Word} {s : State} {w : Stored} {p : Byte} {o : Word}
    (hp : s.place sz ea = .memory p o) (h : writeOperand sz ea v s = .next w) :
    Reaches (accessSize sz ea) p o s w.state := by
  rw [writeOperand, hp] at h
  obtain ⟨u, hu, h⟩ := andThen_eq_next.mp h
  obtain ⟨n, e⟩ := s.tickForStore_change sz ea
  rw [e] at hu
  obtain ⟨memory, controls⟩ := store_reach hu
  have hstored : Reaches (accessSize sz ea) p o s u.state :=
    ⟨memory, fun h1 h2 => (⟨rfl, rfl, rfl, rfl⟩ : ControlsKept s { s with draws := n }).trans (controls h1 h2)⟩
  split at h <;> cases h
  · obtain ⟨rf, em, -⟩ := u.state.modify_change sz ea
    exact hstored.congr (by rw [em]) (by rw [em]; exact ⟨rfl, rfl, rfl, rfl⟩)
  · obtain ⟨m, rf, em, -⟩ := u.state.modifyFailed_change ea
    exact hstored.congr (by rw [em]) (by rw [em]; exact ⟨rfl, rfl, rfl, rfl⟩)

/-- MOV from a register writes its operand, then condition codes, of which C is kept if the access was made. -/
theorem moveFromRegister_writes {sz : Size} {ea : Ea} {r : Reg} {s t : State}
    (h : moveFromRegister sz ea r s = .next t) :
    ∃ w n sr, writeOperand sz ea (s.readReg sz r) s = .next w ∧
      t = ({ w.state with draws := n, sr := sr } : State).complete false (generalLength ea) ∧
      (∀ i, 4 ≤ i → sr.getLsbD i = w.state.sr.getLsbD i) ∧ (w.made = true → carryOf sr = carryOf w.state.sr) := by
  obtain ⟨w, hw, h⟩ := andThen_eq_next.mp h
  split at h <;> cases h
  · exact ⟨w, w.state.draws, _, hw, rfl, fun _ => getLsbD_moveFlags_above _ _ _, fun _ => carryOf_moveFlags ..⟩
  · next hm => exact ⟨w, w.state.draws + 1, _, hw, rfl, fun _ => getLsbD_withFlagBits_above _ _, fun h => absurd h hm⟩

theorem moveFromRegister_reaches {sz : Size} {ea : Ea} {r : Reg} {s t : State} {p : Byte} {o : Word}
    (hp : s.place sz ea = .memory p o) (h : moveFromRegister sz ea r s = .next t) :
    Reaches (accessSize sz ea) p o s t := by
  obtain ⟨w, n, sr, hw, rfl, -⟩ := moveFromRegister_writes h
  exact (writeOperand_reaches hp hw).congr rfl ⟨rfl, rfl, rfl, rfl⟩

/-- Settles O51: the operand is written, whatever becomes of the access, and condition codes. -/
theorem storeFrame : Obligations.StoreFrame := by
  intro sz ea r i s t hi h
  rw [exec_movStoreRow s hi] at h
  have hkept := moveFromRegister_kept h
  obtain ⟨⟨made, u⟩, n, sr, hw, rfl, hsr, hcarry⟩ := moveFromRegister_writes h
  obtain ⟨c, pending, detected, rf, e, -, hregs, -, hfailed⟩ := (writeOperand_kept hw).change
  obtain rfl : u = _ := e
  refine ⟨fun q hq hea => hregs q hea hq, hsr, fun hp => ?_, rfl, rfl, rfl, rfl, rfl, rfl, rfl, rfl, fun e he => ?_,
    fun p o hp => ?_⟩
  · cases made with
    | true => exact hcarry rfl
    | false => exact absurd (hp.symm.trans (hfailed rfl).1) Bool.false_ne_true
  · obtain ⟨-, hu⟩ := Stored.mk.inj (Host.Outcome.next.inj ((writeOperand_register _ he).symm.trans hw))
    rw [← hu]
    exact ⟨rfl, by constructor <;> rfl⟩
  · have hreach := moveFromRegister_reaches hp h
    refine ⟨fun h1 h2 => ?_, fun hr p' o' => hreach.byteAt hkept.mode hr hkept.cfg, fun k hk => ?_⟩
    · obtain ⟨rame, mds, level, dte⟩ := hreach.controls (State.region_ne_register h1) fun hz =>
        State.region_ne_register (h2 hz)
      exact ⟨rame, mds, level, dte⟩
    · exact hreach.memory k (Region.key_ne_some_iff.mpr (hk p o (.inl rfl))) fun hz =>
        Region.key_ne_some_iff.mpr (hk p (o + 1) (.inr ⟨hz, rfl⟩))

/-! ### MOV:I and NOP -/

/-- Settles O44: MOV:I makes no access; it writes the register and SR and ends. -/
theorem moveImmediateWritesTheRegister : Obligations.MoveImmediateWritesTheRegister := by
  intro v d s hdet
  exact ⟨_, rfl, Regs.get_set_same .., fun _ => Regs.get_set_other _ _, negativeOf_moveFlags .., zeroOf_moveFlags ..,
    overflowOf_moveFlags .., carryOf_moveFlags .., fun _ => getLsbD_moveFlags_above .word v s.sr,
    State.complete_advanced false 3 rfl rfl rfl, State.complete_notDeferred 3 hdet, rfl, rfl, rfl,
    by constructor <;> rfl⟩

/-- Settles O60: NOP is the end of an instruction of one byte. -/
theorem nopOnlyAdvances : Obligations.NopOnlyAdvances := by
  intro s hdet
  exact ⟨_, rfl, State.complete_advanced false 1 rfl rfl rfl, rfl, rfl, rfl,
    State.complete_notDeferred 1 hdet, rfl, rfl, by constructor <;> rfl⟩

end Sys2Proof.Machine
end

section
/-! The sequences that the boundary checks lead to (R121 to R151, R160): what a sequence does wherever its stack lies,
that an odd stack faults it, and which sequence is taken when no interrupt is accepted. -/

namespace Sys2Proof.Machine

/-! ### Sequences -/

/-- Settles O22: a sequence that completes leaves `defer` and a pending address error as they were. -/
theorem sequenceSavesAndBranches : Obligations.SequenceSavesAndBranches := by
  intro index pc cp m s hwf hstack hvector
  obtain ⟨t, ht, he⟩ := exceptionSequence_entered pc cp m hwf hstack hvector
  obtain ⟨c, sp, pc', cp', e, -⟩ := exceptionSequence_kept ht
  exact ⟨t, ht, he, by rw [e]; rfl, by rw [e]; rfl⟩

theorem saveContext_odd (pc : Word) (cp : Byte) {s : State} (h : isOdd s.sp = true) :
    saveContext pc cp s = .fault .addressErrorInSequence := by
  unfold saveContext
  split <;> rw [pushWord_odd pc h, andThen_fault]

theorem returnFromException_odd {s : State} (h : isOdd s.sp = true) :
    returnFromException s = .fault .addressErrorInSequence := by
  unfold returnFromException
  split <;> rw [popWord_odd h, andThen_fault]

/-- Settles O23: the first push, or the first pop, is the fault. -/
theorem sequenceAndRteWithOddStackFault : Obligations.SequenceAndRteWithOddStackFault := by
  refine ⟨fun index pc cp m s h => ?_, fun s h => ?_⟩
  · rw [exceptionSequence, saveContext_odd pc cp h, andThen_fault]
  · show andThen (returnFromException s) _ = _
    rw [returnFromException_odd h, andThen_fault]

/-- Settles O24: the pushes store to the frame and move SP, and the rest of a sequence loads SR, PC and CP. -/
theorem sequenceFrame : Obligations.SequenceFrame := by
  intro index pc cp m s t h
  have hbytes := @exceptionSequence_byteAt index pc cp m s t h
  obtain ⟨c, sp, pc', cp', rfl, -, -, rfl, hcp⟩ := exceptionSequence_kept h
  exact ⟨fun r hr => Regs.get_set_other _ _ hr, rfl, masked_enterSr m s.sr, rfl, rfl, rfl, rfl, hcp, rfl, rfl, rfl, rfl,
    fun hr _ _ => hbytes hr⟩

/-! ### The boundary checks -/

theorem step_of_nextAction {s : State} {a : Action} (he : s.env = []) (ha : s.nextAction = a) :
    step s = perform a s := by
  rw [step, State.applyEnvironment_nil he, ha]

/-- Settles O14: with `defer` set the checks are not made. -/
theorem deferralSkipsTheBoundaryChecks : Obligations.DeferralSkipsTheBoundaryChecks := by
  rintro s ⟨he, hr, hd⟩ hdefer
  have ha := State.nextAction_deferred hr hd hdefer
  exact ⟨ha, step_instruction he ha⟩

/-- An address error is looked for first (R121). -/
theorem State.nextAction_addressError {s : State} (h : s.running) (hdefer : s.defer = false)
    (hp : s.addrErrPending = true) : s.nextAction = .addressError := by
  obtain ⟨-, hr, hd⟩ := h
  rw [State.nextAction, hr, hd, hdefer, hp]
  rfl

/-- Then the end of an instruction with T = 1 (R121, R150). -/
theorem State.nextAction_trace {s : State} (h : s.running) (hdefer : s.defer = false)
    (hp : s.addrErrPending = false) (ht : traceOf s.sr = true) (hl : s.lastWasInstruction = true) :
    s.nextAction = .trace := by
  obtain ⟨-, hr, hd⟩ := h
  rw [State.nextAction, hr, hd, hdefer, hp, ht, hl]
  rfl

/-- A sequence does not look at the address-error flags. -/
theorem Entered.of_withErrors {index : BitVec 6} {pc : Word} {cp : Byte} {m : Option (BitVec 3)} {s t : State}
    {pending detected : Bool} (h : Entered index pc cp m (s.withErrors pending detected) t) :
    Entered index pc cp m s t where
  frame := ⟨h.frame.minimum, h.frame.maximum⟩
  vector := ⟨h.vector.minimum, h.vector.maximum⟩
  status := h.status
  registers := h.registers
  memory := h.memory
  untouched := Untouched.trans (by constructor <;> rfl) h.untouched

/-- Settles O25: it is looked for first, and its sequence begins by clearing the pending bit. -/
theorem pendingAddressErrorIsTakenFirst : Obligations.PendingAddressErrorIsTakenFirst := by
  intro s hrun hdefer hp hwf hstack hvector
  obtain ⟨t, ht, he, htdefer, htp⟩ := sequenceSavesAndBranches 8 s.pc s.cp none (s.withErrors false s.addrErrDetected)
    hwf hstack hvector
  have hstep := step_of_nextAction hrun.1 (State.nextAction_addressError hrun hdefer hp)
  exact ⟨t, hstep.trans ht, he.of_withErrors, htp, htdefer.trans hdefer⟩

/-- Settles O26: the trace sequence runs in the state as it stands, whose SR it saves. -/
theorem traceIsTakenAfterAnInstruction : Obligations.TraceIsTakenAfterAnInstruction := by
  intro s hrun hdefer hp htrace hlast hwf hstack hvector
  obtain ⟨t, ht, he, -, htp⟩ := sequenceSavesAndBranches 9 s.pc s.cp none s hwf hstack hvector
  have hstep := step_of_nextAction hrun.1 (State.nextAction_trace hrun hdefer hp htrace hlast)
  exact ⟨t, hstep.trans ht, he, he.untouched.pending, he.untouched.nmiPending, htp.trans hp⟩

end Sys2Proof.Machine
end

section
/-! Interrupts (R153 to R158): which of the pending requests is accepted, and what accepting it does. -/

namespace Sys2Proof.Machine

/-! ### The request that is accepted -/

theorem State.acceptable_iff {s : State} {k : Fin 21} :
    s.acceptable k = true ↔ s.pending.get k = true ∧ maskOf s.sr < s.level.get k := by
  rw [State.acceptable, Bool.and_eq_true, decide_eq_true_iff]

theorem State.firstOf_eq_none {s : State} {l : List (Fin 21)} : s.firstOf l = none ↔ l = [] := by
  cases l with
  | nil => exact ⟨fun _ => rfl, fun _ => rfl⟩
  | cons k ks =>
    refine ⟨fun h => ?_, nofun⟩
    rw [State.firstOf] at h
    split at h
    · cases h
    · split at h <;> cases h

/-- The order of acceptance: by greater level, then by rank, then by number (R155, D18). -/
theorem State.before_iff {s : State} {a b : Fin 21} : s.before a b = true ↔
    (s.level.get b).toNat < (s.level.get a).toNat ∨ ((s.level.get a).toNat = (s.level.get b).toNat ∧
      (s.cfg.rank.get a < s.cfg.rank.get b ∨ (s.cfg.rank.get a = s.cfg.rank.get b ∧ a.val ≤ b.val))) := by
  simp only [State.before, Bool.or_eq_true, Bool.and_eq_true, decide_eq_true_iff, beq_iff_eq, BitVec.lt_def, Fin.le_def,
    BitVec.toNat_inj]

theorem State.before_refl (s : State) (a : Fin 21) : s.before a a = true :=
  State.before_iff.mpr (.inr ⟨rfl, .inr ⟨rfl, Nat.le_refl _⟩⟩)

theorem State.before_trans {s : State} {a b c : Fin 21} (hab : s.before a b = true) (hbc : s.before b c = true) :
    s.before a c = true := by
  rw [State.before_iff] at *
  omega

theorem State.before_of_not {s : State} {a b : Fin 21} (h : ¬ s.before a b = true) : s.before b a = true := by
  rw [State.before_iff] at *
  omega

/-- The first of some sources is one of them, and comes before each of them. -/
theorem State.firstOf_eq_some {s : State} {l : List (Fin 21)} {k : Fin 21} (h : s.firstOf l = some k) :
    k ∈ l ∧ ∀ j ∈ l, s.before k j = true := by
  induction l generalizing k with
  | nil => cases h
  | cons a as ih =>
    rw [State.firstOf] at h
    cases hf : s.firstOf as with
    | none =>
      rw [hf] at h
      cases h
      obtain rfl := State.firstOf_eq_none.mp hf
      exact ⟨List.mem_cons_self, by simpa using s.before_refl _⟩
    | some b =>
      obtain ⟨hmem, hfirst⟩ := ih hf
      simp only [hf] at h
      by_cases hab : s.before a b = true
      · cases (if_pos hab).symm.trans h
        refine ⟨List.mem_cons_self, fun j hj => ?_⟩
        rcases List.mem_cons.mp hj with rfl | hj
        · exact s.before_refl _
        · exact State.before_trans hab (hfirst j hj)
      · cases (if_neg hab).symm.trans h
        refine ⟨List.mem_cons_of_mem a hmem, fun j hj => ?_⟩
        rcases List.mem_cons.mp hj with rfl | hj
        · exact State.before_of_not hab
        · exact hfirst j hj

theorem State.chosen_of_nmi {s : State} (h : s.nmiPending = true) : s.chosen = some .nmi := if_pos h

theorem State.chosen_of_no_nmi {s : State} (h : s.nmiPending = false) :
    s.chosen = (s.firstOf ((List.finRange 21).filter s.acceptable)).map .maskable :=
  if_neg (by rw [h]; exact Bool.false_ne_true)

/-- NMI is accepted before all others (R155). -/
theorem State.chosen_eq_nmi {s : State} : s.chosen = some .nmi ↔ s.nmiPending = true := by
  refine ⟨fun h => ?_, State.chosen_of_nmi⟩
  by_contra hn
  rw [State.chosen_of_no_nmi (Bool.eq_false_iff.mpr hn)] at h
  obtain ⟨k, -, hk⟩ := Option.map_eq_some_iff.mp h
  cases hk

/-- A maskable source that is accepted is acceptable, and comes before all that are. -/
theorem State.chosen_maskable {s : State} {k : Fin 21} (h : s.chosen = some (.maskable k)) :
    s.nmiPending = false ∧ s.acceptable k = true ∧ ∀ j, s.acceptable j = true → s.before k j = true := by
  have hn : s.nmiPending = false := Bool.eq_false_iff.mpr fun hn => by cases (State.chosen_of_nmi hn).symm.trans h
  rw [State.chosen_of_no_nmi hn] at h
  obtain ⟨_, hf, ⟨⟩⟩ := Option.map_eq_some_iff.mp h
  obtain ⟨hmem, hfirst⟩ := State.firstOf_eq_some hf
  exact ⟨hn, (List.mem_filter.mp hmem).2, fun j hj => hfirst j (List.mem_filter.mpr ⟨List.mem_finRange j, hj⟩)⟩

theorem State.chosen_eq_none {s : State} :
    s.chosen = none ↔ s.nmiPending = false ∧ ∀ k, ¬ s.acceptable k = true := by
  cases hn : s.nmiPending with
  | true => simp [State.chosen_of_nmi hn]
  | false =>
    rw [State.chosen_of_no_nmi hn, Option.map_eq_none_iff, State.firstOf_eq_none, List.filter_eq_nil_iff]
    exact ⟨fun h => ⟨rfl, fun k => h k (List.mem_finRange k)⟩, fun h k _ => h.2 k⟩

/-- Settles O29: a maskable source is taken from the acceptable ones, where NMI is not pending. -/
theorem requestsAreAcceptedIffAboveTheMask : Obligations.RequestsAreAcceptedIffAboveTheMask := by
  refine ⟨fun s k h => ?_, fun s => State.chosen_eq_nmi, fun s => ?_⟩
  · obtain ⟨hn, hk, -⟩ := State.chosen_maskable h
    obtain ⟨hp, hl⟩ := State.acceptable_iff.mp hk
    exact ⟨hp, hl, hn⟩
  · simp only [State.chosen_eq_none, State.acceptable_iff, not_and, BitVec.not_lt]

/-- Settles O30: the accepted source comes first in the order of acceptance. -/
theorem highestLevelIsAcceptedFirst : Obligations.HighestLevelIsAcceptedFirst := by
  intro s k j hk hj
  obtain ⟨-, -, hfirst⟩ := State.chosen_maskable hk
  have hbefore := State.before_iff.mp (hfirst j hj)
  rw [BitVec.le_def, ← BitVec.toNat_inj]
  omega

/-! ### Accepting it -/

theorem step_accept {s : State} {src : Source} (h : s.openToInterrupts) (hc : s.chosen = some src) :
    step s = acceptRequest src s := by
  obtain ⟨⟨he, hr, hd⟩, hdefer, hp, ht⟩ := h
  have hnotrace : (traceOf s.sr && s.lastWasInstruction) = false := by
    rwa [Bool.and_eq_false_iff]
  refine step_of_nextAction (a := .accept src) he ?_
  rw [State.nextAction, hr, hd, hdefer, hp, hnotrace, hc]
  rfl

/-- Settles O27: NMI comes before all others, and its sequence runs with the request taken out. -/
theorem nmiIsAcceptedUnderAnyMask : Obligations.NmiIsAcceptedUnderAnyMask := by
  intro s hopen hn hwf hstack hvector
  obtain ⟨t, ht, he, -, htp⟩ := sequenceSavesAndBranches 11 s.pc s.cp (some 7) s.withoutNmi hwf hstack hvector
  have hstep := step_accept hopen (State.chosen_of_nmi hn)
  obtain ⟨-, -, hp, -⟩ := hopen
  exact ⟨t, hstep.trans ht, he, he.untouched.nmiPending, htp.trans hp⟩

/-- IRQ0 and IRQ1 have the vector indices 32 and 33. -/
theorem State.toNat_vectorOf_irq (s : State) {k : Fin 21} (hk : k.val < 2) : (s.vectorOf k).toNat = 32 + k.val := by
  unfold State.vectorOf
  obtain h | h : k.val = 0 ∨ k.val = 1 := by omega
  · rw [if_pos h, h]
    rfl
  · rw [if_neg (by omega), if_pos h, h]
    rfl

/-- An internal type has the one of `IntVector`. -/
theorem State.vectorOf_internal (s : State) {k : Fin 21} (hk : 2 ≤ k.val) :
    s.vectorOf k = s.cfg.vectorOfInternal.get ⟨k.val - 2, by omega⟩ := by
  rw [State.vectorOf, if_neg (by omega), if_neg (by omega)]

theorem State.le_toNat_vectorOf_internal {s : State} (h : s.cfg.legal) {k : Fin 21} (hk : 2 ≤ k.val) :
    34 ≤ (s.vectorOf k).toNat := by
  rw [s.vectorOf_internal hk]
  exact h.vectorRange _

theorem State.le_vectorOf {s : State} (h : s.cfg.legal) (k : Fin 21) : 32 ≤ s.vectorOf k := by
  show 32 ≤ (s.vectorOf k).toNat
  by_cases hk : k.val < 2
  · rw [s.toNat_vectorOf_irq hk]
    omega
  · have := State.le_toNat_vectorOf_internal h (Nat.not_lt.mp hk)
    omega

/-- The vectors of the internal types are distinct, and lie above those of IRQ0 and IRQ1. -/
theorem State.vectorOf_injective {s : State} (h : s.cfg.legal) {j k : Fin 21} (e : s.vectorOf j = s.vectorOf k) :
    j = k := by
  have irq (i : Fin 21) := s.toNat_vectorOf_irq (k := i)
  have internal (i : Fin 21) := State.le_toNat_vectorOf_internal h (k := i)
  have e' := congrArg BitVec.toNat e
  refine Fin.ext ?_
  by_cases hboth : 2 ≤ j.val ∧ 2 ≤ k.val
  · rw [s.vectorOf_internal hboth.1, s.vectorOf_internal hboth.2] at e
    have := Fin.ext_iff.mp (h.vectorsDistinct _ _ e)
    simp only at this
    omega
  · have := irq j
    have := irq k
    have := internal j
    have := internal k
    omega

/-- Settles O28: the sequence of the source runs with the request taken out of the pending set. -/
theorem acceptedInterruptSetsTheMaskToItsLevel : Obligations.AcceptedInterruptSetsTheMaskToItsLevel := by
  refine ⟨fun s k hopen hc hdte hwf hstack hvector => ?_, fun s => ⟨rfl, rfl, fun i => s.vectorOf_internal (by simp)⟩,
    fun s h => ⟨State.le_vectorOf h, fun j k => State.vectorOf_injective h⟩⟩
  obtain ⟨t, ht, he, -, htp⟩ := sequenceSavesAndBranches (s.vectorOf k) s.pc s.cp (some (s.level.get k))
    (s.withoutPending k) hwf hstack hvector
  have hstep : step s = acceptInterrupt k s :=
    (step_accept hopen hc).trans (if_neg (by rw [hdte]; exact Bool.false_ne_true))
  obtain ⟨-, -, hp, -⟩ := hopen
  refine ⟨t, hstep.trans ht, he, htp.trans hp, ?_⟩
  rw [he.untouched.pending]
  exact ⟨getVector_set_same _ k false, fun j => getVector_set_other _ false⟩

/-- Settles O31: the DTC start is no more than the request taken out and the DTC marked active. -/
theorem dtcStartPushesNothing : Obligations.DtcStartPushesNothing := by
  intro s k hopen hc hdte
  exact ⟨s.startDtc k, (step_accept hopen hc).trans (if_pos hdte), rfl, getVector_set_same _ k false,
    fun j => getVector_set_other _ false, rfl, rfl, rfl, rfl, rfl, rfl⟩

end Sys2Proof.Machine
end

section
/-! Address errors (R140 to R147): accesses and fetches where none may be made in single-chip mode, code just below
such places, and an instruction whose word access is at an odd address. -/

namespace Sys2Proof.Machine

/-! ### Accesses that single-chip mode forbids -/

/-- An address where an access is an address error in single-chip mode: off the chip, or in the disabled RAM (R144,
R145). -/
def State.offChipAt (s : State) (p : Byte) (o : Word) : Prop :=
  s.mode.singleChip = true ∧
    ((0x8000 ≤ s.busAddress p o ∧ s.busAddress p o ≤ 0xFB7F) ∨
      (s.rame = false ∧ 0xFB80 ≤ s.busAddress p o ∧ s.busAddress p o ≤ 0xFF7F))

/-- They are the places whose access is an address error. -/
theorem State.region_eq_error_iff {s : State} {p : Byte} {o : Word} :
    (∃ k, s.region p o = .error k) ↔ s.offChipAt p o := by
  simp only [State.offChipAt, State.region, regionIn, externalRegion]
  generalize s.busAddress p o = a
  constructor
  · rintro ⟨k, h⟩
    split_ifs at h with _ _ _ hram hr hs
    · exact ⟨hs, .inr ⟨Bool.eq_false_iff.mpr hr, hram, by omega⟩⟩
    · exact ⟨‹_›, .inl (by omega)⟩
  · rintro ⟨hs, h | ⟨hr, h⟩⟩
    · exact ⟨none, by rw [if_neg (by omega), if_neg (by omega), if_neg (by omega), if_pos h.1, if_pos hs]⟩
    · refine ⟨some a, ?_⟩
      rw [if_neg (by omega), if_neg (by omega), if_pos h.1, if_neg (by rw [hr]; exact Bool.false_ne_true), if_pos hs]

theorem State.offChipAt_congr {s t : State} {p : Byte} {o : Word} (hm : t.mode = s.mode) (hr : t.rame = s.rame) :
    t.offChipAt p o ↔ s.offChipAt p o := by
  rw [State.offChipAt, State.offChipAt, State.busAddress_congr hm, hm, hr]

/-- In single-chip mode every storage byte from H'8000 up lies at its own address, and on the chip. -/
theorem State.region_key_singleChip {s : State} {p : Byte} {o : Word} {k : Nat} (hs : s.mode.singleChip = true)
    (ha : 0x8000 ≤ s.busAddress p o) (hk : (s.region p o).key = some k) : k = s.busAddress p o ∧ 0xFB80 ≤ k := by
  revert hk
  simp only [State.region, regionIn, externalRegion, hs]
  generalize s.busAddress p o = a at *
  intro hk
  split_ifs at hk <;> simp only [Region.key, Option.some.injEq, reduceCtorEq] at hk <;> omega

/-- Below H'FF80 the byte after one is at the next address. -/
theorem State.busAddress_next {s : State} {p : Byte} {o : Word} (h : s.busAddress p o ≤ 0xFF7F) :
    s.busAddress p (o + 1) = s.busAddress p o + 1 := by
  unfold State.busAddress busAddressIn at *
  split at h <;> bv_omega

theorem State.offChipAt.address_le {s : State} {p : Byte} {o : Word} (h : s.offChipAt p o) :
    0x8000 ≤ s.busAddress p o ∧ s.busAddress p o ≤ 0xFF7F := by
  obtain ⟨-, h | ⟨-, h⟩⟩ := h <;> omega

/-- Both bytes of a word at an even address lie in the same of these places. -/
theorem State.offChipAt.next {s : State} {p : Byte} {o : Word} (h : s.offChipAt p o) (he : isOdd o = false) :
    s.offChipAt p (o + 1) := by
  obtain ⟨hn, heven⟩ := s.busAddress_succ p he
  obtain ⟨hs, h⟩ := h
  rw [State.offChipAt, hn]
  exact ⟨hs, h.imp (fun h => by omega) fun ⟨hr, h⟩ => ⟨hr, by omega⟩⟩

theorem loadByte_offChip {s : State} {p : Byte} {o : Word} (h : s.offChipAt p o) :
    loadByte p o s = .next ⟨none, s.raiseAddressError⟩ := by
  obtain ⟨k, hk⟩ := State.region_eq_error_iff.mpr h
  rw [loadByte, hk]

theorem load_offChip {s : State} {p : Byte} {o : Word} (h : s.offChipAt p o) (sz : Size) :
    load sz p o s = .next ⟨none, s.raiseAddressError⟩ := by
  cases sz with
  | byte => exact loadByte_offChip h
  | word =>
    cases he : isOdd o with
    | true => exact loadWord_odd s he
    | false =>
      have hnext : s.raiseAddressError.offChipAt p (o + 1) := h.next he
      rw [load, loadWord, he, if_neg Bool.false_ne_true, loadByte_offChip h, andThen_next, loadByte_offChip hnext]
      rfl

theorem storeByte_offChip {s : State} {p : Byte} {o : Word} (v : Byte) (h : s.offChipAt p o) :
    storeByte p o v s = .next ⟨false, (drawByteAt p o s).raiseAddressError⟩ := by
  obtain ⟨k, hk⟩ := State.region_eq_error_iff.mpr h
  rw [storeByte, hk]

/-- Such a store leaves RAME, so that no address becomes accessible by it. -/
theorem drawByteAt_offChip {s : State} {p : Byte} {o : Word} (h : s.offChipAt p o) (p' : Byte) (o' : Word) :
    (drawByteAt p o s).raiseAddressError.offChipAt p' o' ↔ s.offChipAt p' o' := by
  obtain ⟨k, hk⟩ := State.region_eq_error_iff.mpr h
  obtain ⟨c, e, -⟩ := drawByteAt_kept p o s
  have hcontrols : ControlsKept s (drawByteAt p o s) := drawByteAt_controls (by rw [hk]; exact nofun)
  exact State.offChipAt_congr (by rw [e]; rfl) hcontrols.rame

theorem storeWord_offChip {s : State} {p : Byte} {o : Word} (v : Word) (h : s.offChipAt p o) :
    ∃ t, storeWord p o v s = .next ⟨false, t⟩ := by
  cases he : isOdd o with
  | true => exact ⟨_, storeWord_odd v s he⟩
  | false =>
    rw [storeWord, he, if_neg Bool.false_ne_true, storeByte_offChip _ h, andThen_next,
      storeByte_offChip _ ((drawByteAt_offChip h _ _).mpr (h.next he))]
    exact ⟨_, rfl⟩

/-- A store that fails leaves the registers and an address error pending. -/
theorem StoreKept.failed {s t : State} (h : StoreKept s ⟨false, t⟩) : t.addrErrPending = true ∧ t.regs = s.regs := by
  obtain ⟨c, a, d, e, -, -, hf⟩ := h.change
  obtain rfl : t = _ := e
  exact ⟨(hf rfl).1, rfl⟩

/-- Settles O20: what lies there is an error, for each byte of a word at an even address, and a store reaches no storage
but the bytes at its own addresses. -/
theorem offChipAccessInSingleChipModeIsAnAddressError : Obligations.OffChipAccessInSingleChipModeIsAnAddressError := by
  intro s p o hs ha
  have h : s.offChipAt p o := ⟨hs, ha⟩
  obtain ⟨hlo, hhi⟩ := h.address_le
  have hnext := State.busAddress_next hhi
  have other {o' : Word} {k : Nat} (ho : 0x8000 ≤ s.busAddress p o') (hk : k ≠ s.busAddress p o' ∨ k ≤ 0xFB7F) :
      (s.region p o').key ≠ some k := fun e => by
    have := State.region_key_singleChip hs ho e
    omega
  refine ⟨load_offChip h, fun v => ?_, fun v => ?_⟩
  · have ht := storeByte_offChip (lowerByte v) h
    obtain ⟨hp, hregs⟩ := (storeByte_kept ht).failed
    exact ⟨_, ht, hp, hregs, fun k hk => (storeByte_memory ht).1 k (other hlo hk)⟩
  · obtain ⟨t, ht⟩ := storeWord_offChip v h
    obtain ⟨hp, hregs⟩ := (storeWord_kept ht).failed
    exact ⟨t, ht, hp, hregs, fun k hk => (store_reach (sz := .word) ht).1 k (other hlo (hk.imp_left And.left))
      fun _ => other (by omega) (hk.imp_left And.right)⟩

/-! ### Fetches -/

theorem State.mayFetch_eq_false_iff {s : State} : s.mayFetch = false ↔
    (∃ q, s.region s.cp s.pc = .register q) ∨ ∃ k, s.region s.cp s.pc = .error k := by
  unfold State.mayFetch
  cases s.region s.cp s.pc <;> simp

theorem State.exists_region_register_iff {s : State} {p : Byte} {o : Word} :
    (∃ q, s.region p o = .register q) ↔ 0xFF80 ≤ s.busAddress p o ∧ s.busAddress p o ≤ 0xFFFF := by
  refine ⟨fun ⟨q, hq⟩ => ?_, fun ⟨h1, h2⟩ => ⟨_, State.region_register.mpr (fieldAddress_ofNat h1 h2).symm⟩⟩
  by_contra h
  exact State.region_ne_register h q hq

theorem State.fetchForbidden_iff {s : State} : s.fetchForbidden ↔
    (0xFF80 ≤ s.busAddress s.cp s.pc ∧ s.busAddress s.cp s.pc ≤ 0xFFFF) ∨ s.offChipAt s.cp s.pc := by
  rw [State.fetchForbidden, State.offChipAt, and_or_left]

theorem instructionStep_blocked {s : State} (h : s.mayFetch = false) : instructionStep s = .next s.fetchBlocked := by
  simp only [instructionStep, fetch, h, Bool.false_eq_true, if_false, andThen_next]

/-- Settles O38: a fetch is blocked by what lies at CP:PC, the register field or a place that single-chip mode
forbids. -/
theorem nothingIsExecutedWhereNothingMayBeFetched : Obligations.NothingIsExecutedWhereNothingMayBeFetched := by
  have places (s : State) : s.mayFetch = false ↔ s.fetchForbidden := by
    rw [State.mayFetch_eq_false_iff, State.exists_region_register_iff, State.region_eq_error_iff,
      State.fetchForbidden_iff]
  exact ⟨places, fun s he ha h => (step_instruction he ha).trans (instructionStep_blocked ((places s).mpr h))⟩

/-- Code at the last three addresses below a place where no instruction may be fetched reaches the address of R141 (a),
of whatever length it is. -/
theorem State.prefetchError_of_address {s : State} {len : Nat} (hlen : 0 < len)
    (h : (0xFF7D ≤ s.busAddress s.cp s.pc ∧ s.busAddress s.cp s.pc ≤ 0xFF7F) ∨
      (s.mode.singleChip = true ∧ 0x7FFD ≤ s.busAddress s.cp s.pc ∧ s.busAddress s.cp s.pc ≤ 0x7FFF)) :
    s.prefetchError len = true := by
  simp only [State.prefetchError, Bool.or_eq_true, Bool.and_eq_true, decide_eq_true_iff]
  exact h.imp (fun h => by omega) fun ⟨hs, h⟩ => ⟨⟨hs, by omega⟩, by omega⟩

theorem State.executing_errorPending {s : State} {len : Nat} (h : s.prefetchError len = true) (i : Instr) :
    (s.executing i len).addrErrPending = true := by
  obtain ⟨n, d, pc, cp, e, -⟩ := s.executing_change i len
  rw [e, h]
  rfl

theorem State.fetched_errorPending {s : State} {len : Nat} (h : s.prefetchError len = true) :
    (s.fetched len).addrErrPending = true := by
  obtain ⟨n, d, e⟩ := s.fetched_change len
  rw [e, h]
  rfl

/-- Settles O39: the prefetch raises the error before the instruction begins, and none clears it. -/
theorem codeJustBelowTheRegisterFieldRaisesAnError : Obligations.CodeJustBelowTheRegisterFieldRaisesAnError := by
  intro s he ha hplace
  refine ⟨fun t ht => ?_, fun hm i len hd hs => ?_⟩
  · rw [step_instruction he ha] at ht
    rcases instructionStep_cases ht with ⟨-, rfl⟩ | ⟨i, len, -, hd, -, ht⟩ | ⟨len, -, hd, -, ht⟩
    · rfl
    · have herror := State.prefetchError_of_address (lookup_length_pos (.inl ⟨i, hd⟩)) hplace
      exact (exec_kept ht).errorPending (State.executing_errorPending herror i)
    · have herror := State.prefetchError_of_address (lookup_length_pos (.inr hd)) hplace
      exact (invalidInstruction_kept ht).errorPending (State.fetched_errorPending herror)
  · have herror := State.prefetchError_of_address (lookup_length_pos (.inl ⟨i, hd⟩)) hplace
    refine ⟨step_run he ha hm hd hs, State.executing_errorPending herror i, ?_⟩
    obtain ⟨n, d, pc, cp, e, -⟩ := s.executing_change i len
    rw [e]
    exact ⟨rfl, rfl, rfl⟩

/-! ### A word at an odd address -/

theorem accessSize_word (ea : Ea) : accessSize .word ea = .word := by
  unfold accessSize
  split <;> rfl

theorem takesSize_of_memory {sz : Size} {ea : Ea} {s : State} {p : Byte} {o : Word} (h : s.place sz ea = .memory p o) :
    ea.takesSize sz = true := by
  cases ea <;> cases h <;> rfl

/-- Reading a word at an odd address completes with no value, an address error pending (R142, R147). -/
theorem readOperand_odd {ea : Ea} {s : State} {p : Byte} {o : Word} (hp : s.place .word ea = .memory p o)
    (ho : isOdd o = true) :
    ∃ n rf, readOperand .word ea s =
      .next ⟨none, ({ s with draws := n, regs := rf } : State).withErrors true true⟩ := by
  obtain ⟨n, rf, e, -⟩ := s.raiseAddressError.modifyFailed_change ea
  refine ⟨n, rf, ?_⟩
  simp only [readOperand, hp, accessSize_word, load, loadWord_odd s ho, andThen_next, e]
  rfl

/-- An instruction that reads an operand and writes a register, after a failed access: the register and the condition
codes drawn, and the end of the instruction. -/
theorem exec_odd {ea : Ea} {s : State} {p : Byte} {o : Word} {i : Instr} {d : Reg} (hp : s.place .word ea = .memory p o)
    (ho : isOdd o = true) (hi : i = movLoadRow .word ea d ∨ i = addRow .word ea d) :
    ∃ n rf sr, exec i s = .next ((({ s with draws := n, regs := rf, sr := sr } : State).withErrors true true).complete
      false (generalLength ea)) := by
  obtain ⟨n, rf, hread⟩ := readOperand_odd hp ho
  have hz := takesSize_of_memory hp
  rcases hi with rfl | rfl
  · rw [exec_movLoadRow d s hz, moveToRegister, hread, andThen_next]
    exact ⟨_, _, _, rfl⟩
  · rw [exec_addRow d s hz, addToRegister, hread, andThen_next]
    exact ⟨_, _, _, rfl⟩

/-- Settles O45: it completes with the error raised, and the frame of MOV and ADD holds after a failed access too. -/
theorem wordLoadFromOddAddressCompletes : Obligations.WordLoadFromOddAddressCompletes := by
  intro ea d s p o hp ho i hi
  obtain ⟨n, rf, sr, ht⟩ := exec_odd hp ho hi
  obtain ⟨registers, -, -, mem, -⟩ := registerDestinationFrame .word ea d i s _ hi ht (takesSize_of_memory hp)
  exact ⟨_, ht, rfl, State.complete_advanced false _ rfl rfl rfl, mem, registers⟩

end Sys2Proof.Machine
end

section
/-! The mask level and T over an instruction (R126, R150, R161). -/

namespace Sys2Proof.Machine

/-- SR went from `sr` to `sr'` with the mask level as it was, and T as it was or cleared. -/
structure MaskKept (sr sr' : Word) : Prop where
  mask : maskOf sr' = maskOf sr
  trace : traceOf sr' = true → traceOf sr = true

theorem MaskKept.of_above {sr sr' : Word} (h : ∀ i, 4 ≤ i → sr'.getLsbD i = sr.getLsbD i) : MaskKept sr sr' :=
  ⟨maskOf_congr h, fun ht => (h 15 (by decide)).symm.trans ht⟩

/-- A sequence that is told no mask level. -/
theorem exceptionSequence_maskKept {index : BitVec 6} {pc : Word} {cp : Byte} {s t : State}
    (h : exceptionSequence index pc cp none s = .next t) : MaskKept s.sr t.sr := by
  obtain ⟨c, sp, pc', cp', rfl, -⟩ := exceptionSequence_kept h
  have hcleared : traceOf (enterSr none s.sr) = false := traceOf_withTrace s.sr false
  exact ⟨maskOf_withTrace s.sr false, fun ht => absurd (hcleared.symm.trans ht) Bool.false_ne_true⟩

theorem trap_maskKept {index : BitVec 6} {n : Nat} {s t : State} (h : trap index n s = .next t) :
    MaskKept s.sr t.sr := by
  obtain ⟨u, hu, h⟩ := andThen_eq_next.mp h
  cases h
  rw [State.finish_sr]
  exact exceptionSequence_maskKept hu

theorem invalidInstruction_maskKept {s t : State} (h : invalidInstruction s = .next t) : MaskKept s.sr t.sr := by
  obtain ⟨u, hu, h⟩ := andThen_eq_next.mp h
  cases h
  rw [State.finish_sr, ← s.tick_sr]
  exact exceptionSequence_maskKept hu

theorem execTrapVs_maskKept {s t : State} (h : execTrapVs s = .next t) : MaskKept s.sr t.sr := by
  unfold execTrapVs at h
  split at h
  · exact trap_maskKept h
  · cases h
    exact .of_above fun _ _ => rfl

/-- DIVXU may take the sequence of a zero divide, which clears T. -/
theorem divxu_maskKept {sz : Size} {ea : Ea} {d : Reg} {s t : State} (hz : ea.takesSize sz = true)
    (h : exec (divxuRow sz ea d) s = .next t) : MaskKept s.sr t.sr := by
  obtain ⟨-, status, trace, -⟩ := divideFrame sz ea d s t h hz
  refine ⟨?_, trace⟩
  ext i hi
  simp only [maskOf, Config.maskBit, BitVec.getElem_extractLsb']
  exact status _ (by omega) (by omega)

/-- An instruction that is not one of the five changes in SR the condition codes alone, unless it takes a sequence. -/
theorem exec_maskKept {i : Instr} {s t : State} (h : exec i s = .next t) (h5 : i.isFive = false) :
    MaskKept s.sr t.sr := by
  cases isRow i with
  | load sz ea d hz =>
    obtain ⟨-, status, -⟩ := registerDestinationFrame sz ea d _ s t (.inl rfl) h hz
    exact .of_above status
  | store sz ea r hi =>
    obtain ⟨-, status, -⟩ := storeFrame sz ea r i s t hi h
    exact .of_above status
  | add sz ea d hz =>
    obtain ⟨-, status, -⟩ := registerDestinationFrame sz ea d _ s t (.inr rfl) h hz
    exact .of_above status
  | divide sz ea d hz => exact divxu_maskKept hz h
  | ldc sz ea c hz => cases ea <;> cases h5
  | combine sz n c f hx hc hfive => exact absurd (h5.symm.trans hfive) Bool.false_ne_true
  | trapa v => exact trap_maskKept h
  | trapVs => exact execTrapVs_maskKept h
  | rte => cases h5
  | movI v d =>
    cases h
    exact .of_above fun _ => getLsbD_moveFlags_above .word v s.sr
  | nop =>
    cases h
    exact .of_above fun _ _ => rfl

/-- Settles O12: an illegal instruction is a sequence that is told no mask level. -/
theorem onlyTheFiveChangeMaskOrSetTrace : Obligations.OnlyTheFiveChangeMaskOrSetTrace := by
  intro i s t h hi
  have hkept : MaskKept s.sr t.sr := by
    rcases hi with h5 | hw
    · exact exec_maskKept h h5
    · rw [exec_of_not_wellFormed hw] at h
      exact invalidInstruction_maskKept h
  exact ⟨hkept.mask, hkept.trace⟩

end Sys2Proof.Machine
end

section
/-! The reset sequence from a vector entry that is ready: it completes, and what it loads (R201). The drawn state has a
RAME bit of its own, which a vector entry, below the on-chip RAM, does not see. -/

namespace Sys2Proof.Machine

/-! ### The vector table lies below the on-chip RAM -/

theorem State.busAddress_page_zero (s : State) (o : Word) : s.busAddress 0 o = o.toNat := by
  unfold State.busAddress busAddressIn
  cases s.mode.cpu with
  | minimum => rfl
  | maximum => exact Nat.zero_add _

/-- Below the on-chip RAM the RAME bit makes no difference. -/
theorem State.readableAt_belowRam {s t : State} (hm : t.mode = s.mode) (hc : t.cfg = s.cfg) {o : Word}
    (ho : o.toNat < 0xFB80) : t.readableAt 0 o = s.readableAt 0 o := by
  have hout : ¬(0xFB80 ≤ s.busAddress 0 o ∧ s.busAddress 0 o ≤ 0xFF7F) := by
    rw [s.busAddress_page_zero]
    omega
  rw [State.readableAt, State.readableAt, State.region_outsideRam hm hc (.inr hout)]

/-- Whether a vector entry can be fetched depends on the operating mode and the parameters alone. -/
theorem State.vectorReady_congr {s t : State} {index : BitVec 6} (hm : t.mode = s.mode) (hc : t.cfg = s.cfg) :
    t.vectorReady index = s.vectorReady index := by
  have hread {o : Word} (ho : o.toNat < 0xFB80) := State.readableAt_belowRam hm hc ho
  simp only [State.vectorReady, State.vectorAddress, State.readableFor, hm]
  cases s.mode.cpu with
  | minimum =>
    simp only
    rw [hread (by bv_omega), hread (by bv_omega)]
  | maximum =>
    simp only
    rw [hread (by bv_omega), hread (by bv_omega), hread (by bv_omega)]

/-- The drawn RAME bit and SR make no difference to a vector entry. -/
theorem State.vectorReady_unspecified (s : State) (sr : Word) (index : BitVec 6) :
    (s.unspecified.setSr sr).vectorReady index = s.vectorReady index := State.vectorReady_congr rfl rfl

/-- The entry of the reset vector is the first of the table in both modes. -/
theorem State.vectorAddress_zero (s : State) : s.vectorAddress 0 = 0 := by
  rw [State.vectorAddress]
  cases s.mode.cpu with
  | minimum => rfl
  | maximum => rfl

/-! ### The reset sequence -/

/-- With RES High again and no data transfer cycle to abandon, the step is the reset sequence (R201). -/
theorem step_reset {s : State} (he : s.env = []) (hr : s.inReset = true) (hd : s.dtcActive = none)
    (hh : s.resHigh = true) : step s = resetSequence s := by
  have ha : s.nextAction = .reset := by
    rw [State.nextAction, hr, hd, hh]
    rfl
  exact step_of_nextAction he ha

/-- What the reset sequence reads is not what the general registers and TP held (log entry 36). -/
theorem resetSequence_regs_tp (s : State) (rf : Regs) (tp : Byte) :
    resetSequence { s with regs := rf, tp := tp } = resetSequence s := rfl

/-- In SR the reset sequence clears T and sets the mask to 7, as accepting a request of level 7 does (R126, R201). -/
theorem masked_resetSr (sr : Word) : Masked (some 7) sr (resetSr sr) := masked_enterSr (some 7) sr

/-- From a ready vector entry 0 the reset sequence completes, in the drawn state but for the mode, SR, what it loads
and the flags that it sets (R201). -/
theorem resetSequence_ready {s : State} (h : s.latchMode.vectorReady 0 = true) :
    ∃ pc cp, ∃ t : State, resetSequence s = .next t ∧
      t = { s.latchMode.unspecified with
        sr := resetSr s.latchMode.unspecified.sr, pc := pc, cp := cp, stale := []
        addrErrPending := false, addrErrDetected := false, dtcActive := none
        defer := true, lastWasInstruction := true, inReset := false } ∧
      (t.mode.cpu = .minimum → pc = t.wordAt 0 0) ∧
      (t.mode.cpu = .maximum → cp = t.byteAt 0 1 ∧ pc = t.wordAt 0 2) := by
  obtain ⟨pc, cp, hv, hmin, hmax⟩ := loadVector_ready ((State.vectorReady_unspecified _ _ 0).trans h)
  rw [State.vectorAddress_zero] at hmin hmax
  refine ⟨pc, cp, _, andThen_eq_next.mpr ⟨_, hv, rfl⟩, rfl, fun hc => ?_, hmax⟩
  obtain ⟨hpc, -⟩ := hmin hc
  exact hpc

/-- Settles O33: the step is the reset sequence, whose vector entry is ready in the drawn state too, and which draws
the general registers and TP before anything reads them. -/
theorem resetSequenceLoadsTheVector : Obligations.ResetSequenceLoadsTheVector := by
  intro s he hr hd hh hvector
  have hstep : step s = resetSequence s := step_reset he hr hd hh
  constructor
  · obtain ⟨pc, cp, t, ht, rfl, hmin, hmax⟩ := resetSequence_ready hvector
    have hsr := masked_resetSr s.latchMode.unspecified.sr
    exact ⟨_, hstep.trans ht, rfl, rfl, hsr.trace, hsr.mask, hmin, hmax, rfl, rfl, rfl, rfl, rfl,
      State.nextAction_deferred rfl rfl rfl, rfl, rfl, rfl⟩
  · intro rf tp
    rw [hstep, step_reset (s := { s with regs := rf, tp := tp }) he hr hd hh, resetSequence_regs_tp]

end Sys2Proof.Machine
end
